-- ==== Sys2Proof/Word.lean ====
section
/-! DEFINITION. The words of the engine: the byte, the 16-bit sum, the six payload bytes and the nine-byte descriptor word.
Spec: 00_scope R11, 30_encoding R100. Helpers over these types stand in files a repair can mend. -/

namespace Sys2Proof

/-- A byte: an unsigned 8-bit value (R11). -/
abbrev Byte := BitVec 8

/-- An unsigned 16-bit value (R11). -/
abbrev U16 := BitVec 16

/-- Six bytes with fixed places: `pay[0..5]` and `rpay[0..5]` (R20). -/
structure Six where
  b0 : Byte
  b1 : Byte
  b2 : Byte
  b3 : Byte
  b4 : Byte
  b5 : Byte
  deriving DecidableEq, Repr

/-- The 9-byte descriptor word `DESC` (R100), byte by byte. -/
structure DescWord where
  byte0 : Byte
  byte1 : Byte
  byte2 : Byte
  byte3 : Byte
  byte4 : Byte
  byte5 : Byte
  byte6 : Byte
  byte7 : Byte
  byte8 : Byte
  deriving DecidableEq, Repr

end Sys2Proof
end

