-- ==== Sys2Proof/Config.lean ====
section
/-! DEFINITION. Constants the spec fixes (00_scope R7), the parameters it leaves to the implementation (R9), and the free value
of the receive queue after a reset (70_reset R221). -/

namespace Sys2Proof.Config

/-- `HDR`: value of both marker bytes (R7, R81). -/
abbrev hdr : Byte := 0x55#8
/-- `ADDR_UNICAST_MAX`: unicast addresses are 0 to 253 (R7, R83). -/
abbrev addrUnicastMax : Byte := 253#8
/-- `ADDR_BCAST` (R7, R83). -/
abbrev addrBcast : Byte := 254#8
/-- The address value the spec reserves (R99). -/
abbrev addrReserved : Byte := 255#8
/-- `PAYLOAD_MAX` (R7). -/
abbrev payloadMax : Nat := 6
/-- `HEADER_BYTES` (R7). -/
abbrev headerBytes : Nat := 4
/-- `LEN_OVERHEAD` (R7, R8; conflict C1 resolved to 3, log entry 23). -/
abbrev lenOverhead : Nat := 3
/-- `LEN_MIN` (R7). -/
abbrev lenMin : Nat := 3
/-- `LEN_MAX` (R7). -/
abbrev lenMax : Nat := 9
/-- `FRAME_MIN` (R7): the size of a frame without payload. -/
abbrev frameMin : Nat := 6
/-- `FRAME_MAX` (R7): also the size of `txbuf` (R20). -/
abbrev frameMax : Nat := 12
/-- `RXBUF_CAP` (R9, R30). -/
abbrev rxbufCap : Nat := 258

/-- One field of a catalogue row's encoding: its size in bytes, little-endian, and the range its value is clamped to
(R180, R183). DESIGN CHOICE: the values are natural numbers, so a field is unsigned (log entry 28; R91 and N10 leave signed fields
open), and they are the payload's own numbers, with no unit conversion (log entry 29; R183 and N9 give no formula). -/
structure FieldSpec where
  bytes : Nat
  lo : Nat
  hi : Option Nat
  deriving DecidableEq, Repr

/-- One row of the command catalogue (R180): `replySize = none` is a write-only command; `bcast` marks the command sent to the
broadcast address whatever the session is bound to (R184). -/
structure CatRow where
  cmd : Byte
  requestSize : Nat
  replySize : Option Nat
  bcast : Bool
  requestFields : List FieldSpec
  replyFields : List FieldSpec
  deriving DecidableEq, Repr

/-- Row of MOVE_TIME_WRITE (R182): position clamped to 0 to 1000, no range given for time. -/
def moveTimeWriteRow : CatRow :=
  { cmd := 1, requestSize := 4, replySize := none, bcast := false,
    requestFields := [⟨2, 0, some 1000⟩, ⟨2, 0, none⟩], replyFields := [] }

/-- Free value (log entry 14): what the receive queue holds after the n-th reset (R221: "may hold anything"). -/
opaque rxqAfterReset : Nat → List Byte

end Sys2Proof.Config

namespace Sys2Proof

/-- The parameters of R9: `POLL_BOUND`, `RXFIFO_DEPTH` (`none` = unbounded) and `CATALOGUE`. -/
structure Config where
  pollBound : Nat
  rxfifoDepth : Option Nat
  catalogue : List Config.CatRow
  deriving DecidableEq, Repr

/-- The spec's defaults: `POLL_BOUND` = 20000, an unbounded queue, the one row the source identifies (R9, R94). -/
def Config.default : Config :=
  { pollBound := 20000, rxfifoDepth := none, catalogue := [Config.moveTimeWriteRow] }

/-- The bounds R9 sets on its parameters: `POLL_BOUND` at least 1, `RXFIFO_DEPTH` at least 12 or unbounded. -/
def Config.wf (c : Config) : Bool :=
  decide (1 ≤ c.pollBound) &&
    match c.rxfifoDepth with
    | none => true
    | some d => decide (Config.frameMax ≤ d)

end Sys2Proof
end

