-- ==== Sys2Proof/Machine/Codec.lean ====
section
/-! DEFINITION. The Frame Codec (40_codec R110 to R124): checksum, encode, decode_and_validate; and the byte-order helper of the
catalogue layer (30_encoding R91). Pure functions, no state. -/

namespace Sys2Proof.Machine.Codec

open Sys2Proof

/-- The six bytes as a sequence, offset 0 first. -/
def sixToList (p : Six) : List Byte := [p.b0, p.b1, p.b2, p.b3, p.b4, p.b5]

/-- Write a sequence over the six bytes from offset 0; the places beyond its end keep their bytes. For `rpay` after a successful
T_BODY that is DEDUCED (log entry 10): R160 writes `rpay[0 .. rplen-1]` only, and 93 U6 calls the places beyond any value. -/
def sixOverwrite (p : Six) (bs : List Byte) : Six :=
  { b0 := bs.getD 0 p.b0, b1 := bs.getD 1 p.b1, b2 := bs.getD 2 p.b2,
    b3 := bs.getD 3 p.b3, b4 := bs.getD 4 p.b4, b5 := bs.getD 5 p.b5 }

/-- Six bytes that begin with a sequence and are 0 beyond it. -/
def sixOfList (bs : List Byte) : Six := sixOverwrite ⟨0, 0, 0, 0, 0, 0⟩ bs

/-- The 16-bit sum of R110. -/
def sum16 : List Byte → U16
  | [] => 0
  | b :: bs => b.zeroExtend 16 + sum16 bs

/-- `checksum(bytes)` (R110): low byte of the complement of the 16-bit sum. -/
def checksum (bs : List Byte) : Byte := (~~~ (sum16 bs)).extractLsb' 0 8

/-- The `length` byte of a frame with `p` payload bytes (R84). -/
def lengthByte (p : Nat) : Byte := BitVec.ofNat 8 (p + Config.lenOverhead)

/-- The bytes a frame's checksum covers: address, length, command id, payload (R87). -/
def covered (a c : Byte) (pl : List Byte) : List Byte := a :: lengthByte pl.length :: c :: pl

/-- `encode(a, c, pl)` (R113), for a payload of at most 6 bytes. -/
def encode (a c : Byte) (pl : List Byte) : List Byte :=
  [Config.hdr, Config.hdr] ++ covered a c pl ++ [checksum (covered a c pl)]

/-- `decode_and_validate(raw, c, l)` (R115, R118): `none` is `Fail(CorruptReply)`, `some pl` is `Ok(pl)`. -/
def decodeAndValidate (raw : List Byte) (c l : Byte) : Option (List Byte) :=
  if l.toNat < Config.lenMin ∨ Config.lenMax < l.toNat then none
  else if raw.length < Config.headerBytes then none
  else if raw[3]? ≠ some l then none
  else if raw.length ≠ 3 + l.toNat then none
  else if raw[4]? ≠ some c then none
  else if raw[2 + l.toNat]? ≠ some (checksum ((raw.drop 2).take l.toNat)) then none
  else some ((raw.drop 5).take (l.toNat - Config.lenOverhead))

/-- `need` for an announced length (R157): L - 1, and 0 for L = 0 (log entry 12). -/
def bodyNeed (l : Byte) : Byte := if l = 0 then 0 else l - 1

/-- The `n`-byte little-endian form of a natural number; `le16` is `leBytes 2` (R91). -/
def leBytes : Nat → Nat → List Byte
  | 0, _ => []
  | n + 1, v => BitVec.ofNat 8 v :: leBytes n (v / 256)

/-- `le16(v)` (R91): low byte first. -/
def le16 (v : U16) : List Byte := leBytes 2 v.toNat

/-- The value of a little-endian byte sequence; `from_le16` on two bytes (R91). -/
def fromLe : List Byte → Nat
  | [] => 0
  | b :: bs => b.toNat + 256 * fromLe bs

end Sys2Proof.Machine.Codec
end

