-- ==== Sys2Proof/Syntax.lean ====
section
/-! DEFINITION. The instructions: one constructor for each of the 29 rows of spec/opcode_table.json. -/

namespace Sys2Proof

/-- The operation codes (R101). -/
inductive OpCode where
  | bind
  | writeCommand
  | requestReply
  | close
  deriving DecidableEq, Repr

/-- The operands a WRITE_COMMAND or a REQUEST_REPLY takes from the descriptor (R100): `plen` keeps its three bits, 7 included. -/
structure Args where
  bcast : Bool
  cmd : Byte
  plen : BitVec 3
  explen : Byte
  pay : Six
  deriving DecidableEq, Repr

/-- One constructor per row of the opcode table. -/
inductive Instr where
  /-- FRAME.P0 (R88): `55 55 a 03 c s`. -/
  | frameP0 (a c s : Byte)
  /-- FRAME.P1 (R88). -/
  | frameP1 (a c d0 s : Byte)
  /-- FRAME.P2 (R88). -/
  | frameP2 (a c d0 d1 s : Byte)
  /-- FRAME.P3 (R88). -/
  | frameP3 (a c d0 d1 d2 s : Byte)
  /-- FRAME.P4 (R88). -/
  | frameP4 (a c d0 d1 d2 d3 s : Byte)
  /-- FRAME.P5 (R88). -/
  | frameP5 (a c d0 d1 d2 d3 d4 s : Byte)
  /-- FRAME.P6 (R88). -/
  | frameP6 (a c d0 d1 d2 d3 d4 d5 s : Byte)
  /-- BIND (R130): bind the session to address `arg`. -/
  | bind (arg : Byte)
  /-- WRITE_COMMAND (R131). -/
  | writeCommand (d : Args)
  /-- REQUEST_REPLY (R132). -/
  | requestReply (d : Args)
  /-- CLOSE (R133). -/
  | close
  /-- CHECKSUM (R110): operand, the frame bytes at offsets 2 to 4+p. -/
  | checksum (bytes : List Byte)
  /-- ENCODE (R113): operands address, command id, payload. -/
  | encodeFrame (a c : Byte) (payload : List Byte)
  /-- DECODE_VALIDATE (R115): operands received bytes, expected command id, expected length. -/
  | decodeValidate (raw : List Byte) (c l : Byte)
  /-- MOVE_TIME_WRITE (R182): operands position and time. -/
  | moveTimeWrite (pos time : U16)
  /-- T_BIND (R130): operand, `DESC.arg`. -/
  | tBind (arg : Byte)
  /-- T_CLOSE (R133). -/
  | tClose
  /-- T_START_REQ (R150): operands, the descriptor's fields. -/
  | tStartReq (d : Args)
  /-- T_START_WR (R151): operands, the descriptor's fields. -/
  | tStartWr (d : Args)
  /-- T_SEND (R153). -/
  | tSend
  /-- T_WR_DONE (R154). -/
  | tWrDone
  /-- T_ARM (R155). -/
  | tArm
  /-- T_HDR (R156). -/
  | tHdr
  /-- T_POLL_HDR_MISS (R158). -/
  | tPollHdrMiss
  /-- T_POLL_HDR_TIMEOUT (R159). -/
  | tPollHdrTimeout
  /-- T_BODY (R160). -/
  | tBody
  /-- T_POLL_BODY_MISS (R161). -/
  | tPollBodyMiss
  /-- T_POLL_BODY_TIMEOUT (R162). -/
  | tPollBodyTimeout
  /-- T_RETIRE (R163). -/
  | tRetire
  deriving DecidableEq, Repr

end Sys2Proof
end

