-- ==== Sys2Proof/Decode.lean ====
section
/-! DEFINITION. Decoding and encoding. Two things carry encodings in this hardware (30_encoding): the wire frame (R80, R88) and the
descriptor word (R100, R101); the catalogue row and the codec rows of the table reuse the frame's pattern (R93), and the fourteen
steps are selected by the code of `phase` and the condition of their row (10_state R25). Equal bits stand for different rows
in different places, so the decoder is told where the word stands (its slot): log entry 15. -/

namespace Sys2Proof

open Sys2Proof.Machine.Codec

/-- Where a word from outside the engine stands. -/
inductive Source where
  /-- the receive side of the channel: a wire frame (R88) -/
  | link
  /-- the host's descriptor port: a 9-byte descriptor (R100) -/
  | host
  /-- the catalogue layer: MOVE_TIME_WRITE, written as the frame it causes (R182) -/
  | catalogue
  /-- the input of CHECKSUM -/
  | checksumFn
  /-- the input of ENCODE -/
  | encodeFn
  /-- the `raw` input of DECODE_VALIDATE, beside the expected command id and length (R115) -/
  | validateFn (c l : Byte)
  deriving DecidableEq, Repr

/-- The condition that, with the code of `phase`, selects a step (R25 and the table's "condition"). -/
inductive Cond where
  /-- a start pulse with this descriptor -/
  | start (w : DescWord)
  /-- no further condition (Flushed, Validated) -/
  | always
  /-- `op` = WRITE_COMMAND -/
  | opWrite
  /-- `op` = REQUEST_REPLY -/
  | opRequest
  /-- enough bytes available -/
  | enough
  /-- too few bytes, bound not reached -/
  | missBelow
  /-- too few bytes, bound reached -/
  | missReached
  deriving DecidableEq, Repr

/-- Where a word stands: at an outside port, or in the sequencer. -/
inductive Slot where
  | port (p : Source)
  | seq (c : Cond)
  deriving DecidableEq, Repr

/-- Why bytes are no word of a slot. -/
inductive DecodeError where
  /-- a frame word that does not begin with the two marker bytes -/
  | marker
  /-- a frame word whose size does not fit its length byte, or whose length byte is outside 3 to 9 -/
  | frameSize
  /-- a descriptor that is not nine bytes -/
  | descriptorSize
  /-- a catalogue word of another command than 1, the only one the table has -/
  | catalogueCommand
  /-- no step has this code of `phase` with this condition -/
  | noSuchStep
  deriving DecidableEq, Repr

/-! ## The descriptor word (R100, R101) -/

/-- `op`: byte 0 bits [1:0] (R101). -/
def descOp (w : DescWord) : OpCode :=
  match w.byte0.getLsbD 1, w.byte0.getLsbD 0 with
  | false, false => .bind
  | false, true => .writeCommand
  | true, false => .requestReply
  | true, true => .close

/-- The operands of a send: `bcast` byte 0 bit [2], `plen` byte 0 bits [5:3], `arg` byte 1, `explen` byte 2, `pay` bytes 3 to 8. -/
def descArgs (w : DescWord) : Args :=
  { bcast := w.byte0.getLsbD 2, cmd := w.byte1, plen := w.byte0.extractLsb' 3 3, explen := w.byte2,
    pay := ⟨w.byte3, w.byte4, w.byte5, w.byte6, w.byte7, w.byte8⟩ }

/-- The host operation a descriptor selects. -/
def decodeDesc (w : DescWord) : Instr :=
  match descOp w with
  | .bind => .bind w.byte1
  | .writeCommand => .writeCommand (descArgs w)
  | .requestReply => .requestReply (descArgs w)
  | .close => .close

/-- The start step a start pulse with a descriptor selects (R25). -/
def decodeStart (w : DescWord) : Instr :=
  match descOp w with
  | .bind => .tBind w.byte1
  | .writeCommand => .tStartWr (descArgs w)
  | .requestReply => .tStartReq (descArgs w)
  | .close => .tClose

/-- The nine bytes on the descriptor port, byte 0 first. -/
def descOfBytes : List Byte → Option DescWord
  | [b0, b1, b2, b3, b4, b5, b6, b7, b8] => some ⟨b0, b1, b2, b3, b4, b5, b6, b7, b8⟩
  | _ => none

/-! ## The wire frame (R88) -/

/-- The frame row a byte sequence matches: format by its size, the two markers and the length byte. The checksum byte is
kept as it stands. -/
def decodeFrame (bs : List Byte) : Except DecodeError Instr :=
  match bs with
  | m1 :: m2 :: a :: l :: c :: rest =>
    if m1 = Config.hdr ∧ m2 = Config.hdr then
      match rest with
      | [s] => if l = 3 then .ok (.frameP0 a c s) else .error .frameSize
      | [d0, s] => if l = 4 then .ok (.frameP1 a c d0 s) else .error .frameSize
      | [d0, d1, s] => if l = 5 then .ok (.frameP2 a c d0 d1 s) else .error .frameSize
      | [d0, d1, d2, s] => if l = 6 then .ok (.frameP3 a c d0 d1 d2 s) else .error .frameSize
      | [d0, d1, d2, d3, s] => if l = 7 then .ok (.frameP4 a c d0 d1 d2 d3 s) else .error .frameSize
      | [d0, d1, d2, d3, d4, s] => if l = 8 then .ok (.frameP5 a c d0 d1 d2 d3 d4 s) else .error .frameSize
      | [d0, d1, d2, d3, d4, d5, s] => if l = 9 then .ok (.frameP6 a c d0 d1 d2 d3 d4 d5 s) else .error .frameSize
      | _ => .error .frameSize
    else .error .marker
  | _ => .error .frameSize

/-- MOVE_TIME_WRITE: `55 55 aa 07 01 pL pH tL tH ss` (R182). The operands are position and time; the address byte (the session's)
and the checksum byte are outputs of the command, so they are not read. -/
def decodeCatalogue (bs : List Byte) : Except DecodeError Instr :=
  match bs with
  | [m1, m2, _, l, c, pL, pH, tL, tH, _] =>
    if m1 = Config.hdr ∧ m2 = Config.hdr then
      if l = 7 then
        if c = 1 then
          .ok (.moveTimeWrite (BitVec.ofNat 16 (fromLe [pL, pH])) (BitVec.ofNat 16 (fromLe [tL, tH])))
        else .error .catalogueCommand
      else .error .frameSize
    else .error .marker
  | _ => .error .frameSize

/-- The covered bytes (offsets 2 to 4+p) of a frame word of the codec rows: `55 55 aa 0l cc`, then l-3 payload bytes; what
follows (the checksum byte) is the functions' output and is not read. -/
def coveredOfFrame (bs : List Byte) : Except DecodeError (List Byte) :=
  match bs with
  | m1 :: m2 :: a :: l :: c :: rest =>
    if m1 = Config.hdr ∧ m2 = Config.hdr then
      if Config.lenMin ≤ l.toNat ∧ l.toNat ≤ Config.lenMax ∧ l.toNat - Config.lenOverhead ≤ rest.length then
        .ok (a :: l :: c :: rest.take (l.toNat - Config.lenOverhead))
      else .error .frameSize
    else .error .marker
  | _ => .error .frameSize

/-- ENCODE from the covered bytes: address, command id and payload (R113). -/
def encodeOfCovered : List Byte → Except DecodeError Instr
  | a :: _ :: c :: pl => .ok (.encodeFrame a c pl)
  | _ => .error .frameSize

/-! ## The steps (R25): code of `phase` and condition -/

/-- The step row with this condition and this code of `phase` (3 bits; the rows' mask is 0x07). -/
def decodeStep (c : Cond) (code : BitVec 3) : Except DecodeError Instr :=
  match c with
  | .start w => if code = 0 then .ok (decodeStart w) else .error .noSuchStep
  | .always => if code = 1 then .ok .tSend else if code = 5 then .ok .tRetire else .error .noSuchStep
  | .opWrite => if code = 2 then .ok .tWrDone else .error .noSuchStep
  | .opRequest => if code = 2 then .ok .tArm else .error .noSuchStep
  | .enough => if code = 3 then .ok .tHdr else if code = 4 then .ok .tBody else .error .noSuchStep
  | .missBelow => if code = 3 then .ok .tPollHdrMiss else if code = 4 then .ok .tPollBodyMiss else .error .noSuchStep
  | .missReached => if code = 3 then .ok .tPollHdrTimeout else if code = 4 then .ok .tPollBodyTimeout else .error .noSuchStep

/-! ## The decoder -/

/-- Decode the bytes that stand in a slot: total, rejecting by name. -/
def decode (slot : Slot) (bs : List Byte) : Except DecodeError Instr :=
  match slot with
  | .port .link => decodeFrame bs
  | .port .host =>
    match descOfBytes bs with
    | some w => .ok (decodeDesc w)
    | none => .error .descriptorSize
  | .port .catalogue => decodeCatalogue bs
  | .port .checksumFn => (coveredOfFrame bs).map .checksum
  | .port .encodeFn => (coveredOfFrame bs).bind encodeOfCovered
  | .port (.validateFn c l) => .ok (.decodeValidate bs c l)
  | .seq c =>
    match bs with
    | [b] => decodeStep c (b.extractLsb' 0 3)
    | _ => .error .noSuchStep

/-! ## The encoder, from the same tables -/

/-- The two bits of an operation code (R101). -/
def opBits : OpCode → BitVec 2
  | .bind => 0
  | .writeCommand => 1
  | .requestReply => 2
  | .close => 3

/-- Byte 0 of a descriptor: reserved bits [7:6] written as 0, then `plen`, `bcast`, `op` (R100). -/
def descByte0 (o : OpCode) (bcast : Bool) (plen : BitVec 3) : Byte :=
  0#2 ++ plen ++ BitVec.ofBool bcast ++ opBits o

/-- The descriptor of an operation with send operands. -/
def descOfArgs (o : OpCode) (d : Args) : DescWord :=
  ⟨descByte0 o d.bcast d.plen, d.cmd, d.explen, d.pay.b0, d.pay.b1, d.pay.b2, d.pay.b3, d.pay.b4, d.pay.b5⟩

/-- The descriptor of BIND; the bytes it ignores are written 00 (95 part 3). -/
def descOfBind (arg : Byte) : DescWord := ⟨descByte0 .bind false 0, arg, 0, 0, 0, 0, 0, 0, 0⟩

/-- The descriptor of CLOSE. -/
def descOfClose : DescWord := ⟨descByte0 .close false 0, 0, 0, 0, 0, 0, 0, 0, 0⟩

/-- The bytes of a descriptor, byte 0 first. -/
def descBytes (w : DescWord) : List Byte :=
  [w.byte0, w.byte1, w.byte2, w.byte3, w.byte4, w.byte5, w.byte6, w.byte7, w.byte8]

/-- The bytes of a frame word with payload `pl` and checksum byte `s` (R88). -/
def frameBytes (a c : Byte) (pl : List Byte) (s : Byte) : List Byte :=
  Config.hdr :: Config.hdr :: a :: lengthByte pl.length :: c :: (pl ++ [s])

/-- The slot and the bytes of an instruction. `a` is the address the session is bound to: it fills the one byte of the
MOVE_TIME_WRITE row that is no operand of the command (R182). -/
def encode (a : Byte) : Instr → Slot × List Byte
  | .frameP0 a c s => (.port .link, frameBytes a c [] s)
  | .frameP1 a c d0 s => (.port .link, frameBytes a c [d0] s)
  | .frameP2 a c d0 d1 s => (.port .link, frameBytes a c [d0, d1] s)
  | .frameP3 a c d0 d1 d2 s => (.port .link, frameBytes a c [d0, d1, d2] s)
  | .frameP4 a c d0 d1 d2 d3 s => (.port .link, frameBytes a c [d0, d1, d2, d3] s)
  | .frameP5 a c d0 d1 d2 d3 d4 s => (.port .link, frameBytes a c [d0, d1, d2, d3, d4] s)
  | .frameP6 a c d0 d1 d2 d3 d4 d5 s => (.port .link, frameBytes a c [d0, d1, d2, d3, d4, d5] s)
  | .bind arg => (.port .host, descBytes (descOfBind arg))
  | .writeCommand d => (.port .host, descBytes (descOfArgs .writeCommand d))
  | .requestReply d => (.port .host, descBytes (descOfArgs .requestReply d))
  | .close => (.port .host, descBytes descOfClose)
  | .checksum bs => (.port .checksumFn, Config.hdr :: Config.hdr :: (bs ++ [Machine.Codec.checksum bs]))
  | .encodeFrame a c pl => (.port .encodeFn, Machine.Codec.encode a c pl)
  | .decodeValidate raw c l => (.port (.validateFn c l), raw)
  | .moveTimeWrite pos time => (.port .catalogue, Machine.Codec.encode a 1 (le16 pos ++ le16 time))
  | .tBind arg => (.seq (.start (descOfBind arg)), [0])
  | .tClose => (.seq (.start descOfClose), [0])
  | .tStartReq d => (.seq (.start (descOfArgs .requestReply d)), [0])
  | .tStartWr d => (.seq (.start (descOfArgs .writeCommand d)), [0])
  | .tSend => (.seq .always, [1])
  | .tWrDone => (.seq .opWrite, [2])
  | .tArm => (.seq .opRequest, [2])
  | .tHdr => (.seq .enough, [3])
  | .tPollHdrMiss => (.seq .missBelow, [3])
  | .tPollHdrTimeout => (.seq .missReached, [3])
  | .tBody => (.seq .enough, [4])
  | .tPollBodyMiss => (.seq .missBelow, [4])
  | .tPollBodyTimeout => (.seq .missReached, [4])
  | .tRetire => (.seq .always, [5])

/-! ## Words as spec/opcode_table.json numbers them -/

/-- The first `n` bytes of a number, least significant byte first: the first byte of the word is bits 7..0. -/
def wordBytes (n w : Nat) : List Byte := leBytes n w

/-- Which port a table word stands at (log entry 15): words that do not begin with the two markers are descriptors; of
the frame patterns, the 40-bit rows are the codec functions' common prefix, the 80-bit pattern with length 07 and
command 01 is MOVE_TIME_WRITE, and the rest are wire frames. -/
def tableSource (nbits w : Nat) : Source :=
  if (wordBytes 2 w) = [Config.hdr, Config.hdr] then
    if nbits ≤ 40 then .encodeFn
    else if (wordBytes 5 w).drop 3 = [7, 1] then .catalogue
    else .link
  else .host

/-- The bytes of a table word as the port takes them; bits above `nbits` are 0. A descriptor is nine bytes; a frame is
as long as its length byte says (R82), at most `FRAME_MAX`. -/
def tableBytes (nbits w : Nat) : List Byte :=
  match tableSource nbits w with
  | .host => wordBytes 9 (w % 2 ^ nbits)
  | _ => (wordBytes Config.frameMax (w % 2 ^ nbits)).take (3 + (w / 2 ^ 24) % 256)

/-- The instruction the decoder reads from a table word. -/
def decodeTableWord (nbits w : Nat) : Option Instr :=
  match decode (.port (tableSource nbits w)) (tableBytes nbits w) with
  | .ok i => some i
  | .error _ => none

end Sys2Proof
end

