-- ==== Sys2Proof/Machine/State.lean ====
section
/-! DEFINITION. The state: the engine state E and the environment state V of 10_state R20, and four fields of the model's own
(configuration, agenda, codec output port, free-value counter). Plain data. -/

namespace Sys2Proof.Machine

open Sys2Proof

/-- `phase` (R24): values 6 and 7 cannot be written down (93 U8). -/
inductive Phase where
  | idle
  | flushed
  | sent
  | awaitingHeader
  | awaitingBody
  | validated
  deriving DecidableEq, Repr

/-- `status` (R31, R190). -/
inductive Status where
  | none
  | ok
  | headerTimeout
  | bodyTimeout
  | corruptReply
  | channelSetupFailure
  deriving DecidableEq, Repr

/-- A frame buffer: cells (offset, byte), offsets strictly rising, no cell with byte 0, which is what an unlisted offset
reads as (log entry 18). -/
abbrev Memory := List Host.Cell

/-- What the outside world does next, or a turn given to the engine (log entry 4). -/
inductive Event where
  /-- the engine takes its enabled step; in Idle it does nothing -/
  | tick
  /-- ENV_DELIVER(b) (R56) -/
  | deliver (b : Byte)
  /-- the collaborator drives `chan_ok` (R130, R222) -/
  | chanOk (v : Bool)
  /-- reset (R220, R221) -/
  | reset
  /-- the host pulses `start` with this descriptor, whatever the engine is doing (R134, R135) -/
  | start (w : DescWord)
  /-- a word at a port: a frame arriving on the link, or a line of the host's program, which waits for `busy` = 0 (R103) -/
  | word (p : Source) (bytes : List Byte)
  /-- the host calls the catalogue wrapper of a command with user-level values (R181); it waits for `busy` = 0. The values
  are natural numbers in the payload's own units (log entries 28, 29) -/
  | wrapper (cmd : Byte) (values : List Nat)
  deriving DecidableEq, Repr

/-- The output port of a codec function evaluated on its own (log entry 5). -/
inductive CodecOut where
  /-- nothing evaluated yet -/
  | nothing
  /-- result of CHECKSUM -/
  | byte (b : Byte)
  /-- result of ENCODE -/
  | frame (bytes : List Byte)
  /-- result of DECODE_VALIDATE: `Ok(payload)` -/
  | valid (payload : List Byte)
  /-- result of DECODE_VALIDATE: `Fail(CorruptReply)` -/
  | corrupt
  deriving DecidableEq, Repr

structure State where
  /-- `open` (R21) -/
  opened : Bool
  addr : Byte
  phase : Phase
  op : OpCode
  bcast : Bool
  cmd : Byte
  plen : BitVec 3
  pay : Six
  explen : Byte
  pollCnt : Nat
  need : Byte
  txbuf : Memory
  txlen : BitVec 4
  rxbuf : Memory
  rxcnt : BitVec 9
  done : Bool
  status : Status
  rplen : BitVec 3
  rpay : Six
  /-- environment state V (R20) -/
  rxq : List Byte
  txlog : List Byte
  chanOk : Bool
  /-- the model's own: the parameters (log entry 1) -/
  cfg : Config
  /-- the model's own: the order in which the agents move (log entry 4) -/
  agenda : List Event
  /-- the model's own (log entry 5) -/
  codecOut : CodecOut
  /-- the model's own: counter of the free value of a reset (log entry 14) -/
  freeIx : Nat
  deriving DecidableEq, Repr

/-- Where the machine stops with a fault. All are SAFE: the spec gives no transition there, and no run of the engine reaches
them from a state that meets `Safety.Inv`. -/
inductive Fault where
  /-- raised by a T_* step other than the four start steps when its precondition does not hold (R13); safe -/
  | stepNotEnabled
  /-- raised by the engine's turn in Sent when `op` is neither WRITE_COMMAND nor REQUEST_REPLY (R165: cannot be); safe -/
  | noStepEnabled
  /-- raised by ChanRead on an empty queue (R53, U1: undefined/error); safe -/
  | chanReadEmpty
  /-- raised by ENCODE, alone or inside a step, on a payload of more than 6 bytes (R96, R113: outside its domain); safe -/
  | payloadTooLong
  /-- raised by T_BODY when 4 + `need` exceeds RXBUF_CAP: the offset does not exist (R20, R30); safe -/
  | rxbufBound
  deriving DecidableEq, Repr

/-- What the machine turns away by name. All are SAFE. -/
inductive Refusal where
  /-- raised by `exec` for an instruction without a meaning (none in this model); safe -/
  | notModelled (mnemonic : String)
  /-- raised by `step` for bytes at a host port that are no word of it (a descriptor that is not nine bytes); safe -/
  | undecodable (e : DecodeError)
  /-- raised by `step` for a catalogue wrapper the configured catalogue does not have, or whose values do not make a
  payload of the row's size (R180, R181); safe -/
  | noCatalogueRow
  deriving DecidableEq, Repr

/-- The machine right after reset (R38, R220). Registers the spec leaves unspecified hold 0 (log entry 2); `rxq` is empty and
`chan_ok` is 0 (log entry 3). -/
def State.reset : State :=
  { opened := false, addr := 0, phase := .idle, op := .bind, bcast := false, cmd := 0, plen := 0, pay := ⟨0, 0, 0, 0, 0, 0⟩,
    explen := 0, pollCnt := 0, need := 0, txbuf := [], txlen := 0, rxbuf := [], rxcnt := 0, done := false, status := .none,
    rplen := 0, rpay := ⟨0, 0, 0, 0, 0, 0⟩, rxq := [], txlog := [], chanOk := false, cfg := Config.default, agenda := [],
    codecOut := .nothing, freeIx := 0 }

end Sys2Proof.Machine
end

