-- ==== Sys2Proof/Machine/Flags.lean ====
section
/-! DEFINITION. Status outputs and the numeric codes of the named values (10_state R24, R31, R32, R33; 60_exceptions R190). -/

namespace Sys2Proof.Machine

open Sys2Proof

/-- The code of `phase` (R24). -/
def phaseCode : Phase → BitVec 3
  | .idle => 0
  | .flushed => 1
  | .sent => 2
  | .awaitingHeader => 3
  | .awaitingBody => 4
  | .validated => 5

/-- The code of `status` (R31, R190). -/
def statusCode : Status → BitVec 3
  | .none => 0
  | .ok => 1
  | .headerTimeout => 2
  | .bodyTimeout => 3
  | .corruptReply => 4
  | .channelSetupFailure => 5

/-- The derived output `busy` (R32). -/
def busy (s : State) : Bool := decide (s.phase ≠ .idle)

/-- The four failures of the taxonomy (R190). -/
def Status.isFailure : Status → Bool
  | .none => false
  | .ok => false
  | .headerTimeout => true
  | .bodyTimeout => true
  | .corruptReply => true
  | .channelSetupFailure => true

/-- What the host reads at the end of an operation, as a sum (R33, 93 U6): no payload stands beside a failure. -/
inductive HostResult where
  /-- `done` = 0 or `busy` = 1: the host may not read (R32) -/
  | pending
  /-- `Ok` of a BIND, a WRITE_COMMAND or a CLOSE -/
  | ok
  /-- `Ok` of a REQUEST_REPLY, with the decoded payload -/
  | okPayload (bytes : List Byte)
  /-- one of the failures -/
  | fail (f : Status)
  deriving DecidableEq, Repr

/-- The host's reading of the result of operation `o` (R32, R33, R134): `rplen` and `rpay` count only for an `Ok` of a
REQUEST_REPLY. -/
def hostResult (o : OpCode) (s : State) : HostResult :=
  if s.done = true ∧ s.phase = .idle then
    match s.status with
    | .none => .pending
    | .ok =>
      if o = .requestReply then .okPayload ((Codec.sixToList s.rpay).take s.rplen.toNat) else .ok
    | f => .fail f
  else .pending

end Sys2Proof.Machine
end

