-- ==== Sys2Proof/Machine/Operands.lean ====
section
/-! DEFINITION. Operands a step reads from the state, the acceptance of a start (41_session_ops R135), and the selection of the
enabled step (10_state R25). -/

namespace Sys2Proof.Machine

open Sys2Proof

/-- The address byte of the next frame (R92, R152). -/
def sendAddr (s : State) : Byte := if s.bcast then Config.addrBcast else s.addr

/-- The request payload `pay[0..plen-1]` (R26). -/
def payloadOf (p : Six) (plen : BitVec 3) : List Byte := (Codec.sixToList p).take plen.toNat

/-- The frame a send with operands `d` puts on the wire, on a session bound to `a` (R113, R152). -/
def requestFrame (a : Byte) (d : Args) : List Byte :=
  Codec.encode (if d.bcast then Config.addrBcast else a) d.cmd (payloadOf d.pay d.plen)

/-- A BIND is accepted (R130, R135). -/
def acceptsBind (s : State) : Bool := decide (s.phase = .idle) && !s.opened

/-- A CLOSE is accepted (R133, R135). -/
def acceptsClose (s : State) : Bool := decide (s.phase = .idle) && s.opened

/-- A WRITE_COMMAND or a REQUEST_REPLY is accepted (R131, R132, R135). -/
def acceptsSend (d : Args) (s : State) : Bool :=
  decide (s.phase = .idle) && s.opened && decide (d.plen.toNat ≤ Config.payloadMax)

/-- Number of bytes available: `ChanAvail()` (R52). -/
def chanAvail (s : State) : Nat := s.rxq.length

/-- The outcome of one poll iteration for `n` bytes (R132 `wait`, R199): availability first, then the bound. -/
def pollCond (n : Nat) (s : State) : Cond :=
  if n ≤ chanAvail s then .enough
  else if s.pollCnt + 1 < s.cfg.pollBound then .missBelow
  else .missReached

/-- The condition under which a step is enabled in the current phase (R25); `none`: no step is. -/
def selectCond (s : State) : Option Cond :=
  match s.phase with
  | .idle => none
  | .flushed => some .always
  | .sent =>
    match s.op with
    | .writeCommand => some .opWrite
    | .requestReply => some .opRequest
    | .bind => none
    | .close => none
  | .awaitingHeader => some (pollCond Config.headerBytes s)
  | .awaitingBody => some (pollCond s.need.toNat s)
  | .validated => some .always

/-- The word of the sequencer slot: the code of `phase`. -/
def phaseWord (s : State) : List Byte := [(phaseCode s.phase).zeroExtend 8]

end Sys2Proof.Machine
end

