-- ==== Sys2Proof/Machine/Ops.lean ====
section
/-! DEFINITION. Named operations over the buffers, the channel and the registers: buffer cells (20_memory R62), the channel primitives
(R51 to R54) and ENV_DELIVER (R56), the latch of a start (R150, R151), `build_and_send` (R152), `raise` and the return from it
(60_exceptions R196, 42 R163), reset (70_reset R220, R221). -/

namespace Sys2Proof.Machine

open Sys2Proof

/-! ## Frame buffers -/

/-- What an unlisted offset reads as (log entry 18). -/
def Memory.unlisted : Byte := 0

/-- The byte at an offset. -/
def Memory.read : Memory → Nat → Byte
  | [], _ => Memory.unlisted
  | (k, v) :: rest, a => if k = a then v else Memory.read rest a

/-- Write one byte, keeping the canonical form. -/
def Memory.write : Memory → Nat → Byte → Memory
  | [], a, b => if b = Memory.unlisted then [] else [(a, b)]
  | (k, v) :: rest, a, b =>
    if a < k then (if b = Memory.unlisted then (k, v) :: rest else (a, b) :: (k, v) :: rest)
    else if a = k then (if b = Memory.unlisted then rest else (a, b) :: rest)
    else (k, v) :: Memory.write rest a b

/-- The canonical form from an offset on: offsets strictly rising, no listed byte equal to the unlisted one. -/
def Memory.wfFrom : Nat → Memory → Bool
  | _, [] => true
  | lo, (k, v) :: rest => decide (lo ≤ k) && decide (v ≠ Memory.unlisted) && Memory.wfFrom (k + 1) rest

/-- The canonical form. -/
def Memory.wf (m : Memory) : Bool := Memory.wfFrom 0 m

/-- Every listed offset is below the buffer's size. -/
def Memory.within (cap : Nat) (m : Memory) : Bool := m.all fun c => decide (c.1 < cap)

/-- `m[off ..] <- bytes`. -/
def Memory.writeBlock : Memory → Nat → List Byte → Memory
  | m, _, [] => m
  | m, off, b :: bs => Memory.writeBlock (Memory.write m off b) (off + 1) bs

/-- `m[off .. off+n-1]`. -/
def Memory.readBlock : Memory → Nat → Nat → List Byte
  | _, _, 0 => []
  | m, off, n + 1 => Memory.read m off :: Memory.readBlock m (off + 1) n

/-! ## The channel -/

/-- `ChanWrite(bytes)` (R51). -/
def chanWrite (bytes : List Byte) (s : State) : State := { s with txlog := s.txlog ++ bytes }

/-- `ChanRead()` (R53): no result on an empty queue. -/
def chanRead (s : State) : Option (Byte × State) :=
  match s.rxq with
  | [] => none
  | b :: rest => some (b, { s with rxq := rest })

/-- `ChanRead(n)` (R53): `n` successive reads, oldest byte first. -/
def chanReadN : Nat → State → Option (List Byte × State)
  | 0, s => some ([], s)
  | n + 1, s =>
    match chanRead s with
    | none => none
    | some (b, s1) =>
      match chanReadN n s1 with
      | none => none
      | some (bs, s2) => some (b :: bs, s2)

/-- `ChanFlush()` (R54). -/
def chanFlush (s : State) : State := { s with rxq := [] }

/-- `ENV_DELIVER(b)` on the queue itself: at a full queue the arriving byte is lost (R55, R56, log entry 8). -/
def rxAppend (depth : Option Nat) (q : List Byte) (b : Byte) : List Byte :=
  match depth with
  | none => q ++ [b]
  | some d => if q.length < d then q ++ [b] else q

/-- `ENV_DELIVER(b)` (R56). -/
def deliver (b : Byte) (s : State) : State := { s with rxq := rxAppend s.cfg.rxfifoDepth s.rxq b }

/-- One `ENV_DELIVER` for each byte, in order. -/
def deliverAll (bytes : List Byte) (s : State) : State := bytes.foldl (fun t b => deliver b t) s

/-! ## Starting and sending -/

/-- What both start steps latch (R150, R151): the descriptor's fields, `done` and `status` cleared. -/
def latch (o : OpCode) (d : Args) (s : State) : State :=
  { s with op := o, bcast := d.bcast, cmd := d.cmd, plen := d.plen, pay := d.pay, explen := d.explen,
           done := false, status := .none }

/-- The register part of `build_and_send()` (R152): the frame goes into `txbuf` and from there to the channel. -/
def sendFrame (frame : List Byte) (n : BitVec 4) (s : State) : State :=
  let buf := Memory.writeBlock s.txbuf 0 frame
  chanWrite (Memory.readBlock buf 0 n.toNat) { s with txlen := n, txbuf := buf }

/-- `build_and_send()` (R152). A payload of more than 6 bytes is outside the domain of `encode` (R96, R113); no step
latches one (log entry 21). -/
def buildAndSend (s : State) : Host.Outcome State Fault Refusal :=
  if s.plen.toNat ≤ Config.payloadMax then
    .next (sendFrame (Codec.encode (sendAddr s) s.cmd (payloadOf s.pay s.plen))
      (BitVec.ofNat 4 Config.frameMin + s.plen.zeroExtend 4) s)
  else .fault .payloadTooLong

/-- The effect of an accepted BIND on the answer of the channel's collaborator (R130, R194). -/
def bindSession (arg : Byte) (s : State) : State :=
  if s.chanOk then { s with addr := arg, opened := true, status := .ok, done := true }
  else { s with status := .channelSetupFailure, done := true }

/-- The effect of an accepted CLOSE (R133). -/
def closeSession (s : State) : State := { s with opened := false, status := .ok, done := true }

/-- The effect of an accepted start of a REQUEST_REPLY (R150): latch, flush, `phase <- Flushed`. -/
def startRequest (d : Args) (s : State) : State :=
  { chanFlush (latch .requestReply d s) with rxcnt := 0, phase := .flushed }

/-- `build_and_send()` and `phase <- Sent` (R151, R153). -/
def sendAndGo (s : State) : Host.Outcome State Fault Refusal :=
  match buildAndSend s with
  | .next t => .next { t with phase := .sent }
  | .fault f => .fault f
  | .refused r => .refused r

/-- The effect of an accepted start of a WRITE_COMMAND (R151): latch, build, send, `phase <- Sent`. -/
def startWrite (d : Args) (s : State) : Host.Outcome State Fault Refusal := sendAndGo (latch .writeCommand d s)

/-! ## Failure entry and return -/

/-- `raise F` (R196): `status <- F; phase <- Validated`. Nothing is saved, because nothing is resumed. -/
def raise (f : Status) (s : State) : State := { s with status := f, phase := .validated }

/-- The end of every operation, failed or not (R163, R200): `done <- 1; phase <- Idle`. -/
def retire (s : State) : State := { s with done := true, phase := .idle }

/-! ## Reset -/

/-- What of a byte sequence fits a queue of the configured depth. -/
def clipToDepth (depth : Option Nat) (q : List Byte) : List Byte :=
  match depth with
  | none => q
  | some d => q.take d

/-- Reset at any time (R220, R221): the engine as after `State.reset`; the parameters, the outside world's agenda and the input
`chan_ok` are not the engine's to reset; what `rxq` holds is a free value (log entry 14). -/
def applyReset (s : State) : State :=
  { State.reset with
    cfg := s.cfg, agenda := s.agenda, chanOk := s.chanOk, freeIx := s.freeIx + 1,
    rxq := clipToDepth s.cfg.rxfifoDepth (Config.rxqAfterReset s.freeIx) }

end Sys2Proof.Machine
end

