-- ==== Sys2Proof/Machine/Sequencer.lean ====
section
/-! DEFINITION. The meanings of the fourteen steps T_* (41_session_ops R130, R133; 42_sequencer_steps R150 to R163). A start step whose
precondition fails is ignored (R135); any other step whose precondition fails is not enabled, and has no transition (R13, log
entry 9). -/

namespace Sys2Proof.Machine

open Sys2Proof

/-- T_BIND (R130). -/
def execTBind (arg : Byte) (s : State) : Host.Outcome State Fault Refusal :=
  if acceptsBind s then .next (bindSession arg s) else .next s

/-- T_CLOSE (R133). -/
def execTClose (s : State) : Host.Outcome State Fault Refusal :=
  if acceptsClose s then .next (closeSession s) else .next s

/-- T_START_REQ (R150). -/
def execTStartReq (d : Args) (s : State) : Host.Outcome State Fault Refusal :=
  if acceptsSend d s then .next (startRequest d s) else .next s

/-- T_START_WR (R151). -/
def execTStartWr (d : Args) (s : State) : Host.Outcome State Fault Refusal :=
  if acceptsSend d s then startWrite d s else .next s

/-- T_SEND (R153). -/
def execTSend (s : State) : Host.Outcome State Fault Refusal :=
  if s.phase = .flushed then sendAndGo s else .fault .stepNotEnabled

/-- T_WR_DONE (R154). -/
def execTWrDone (s : State) : Host.Outcome State Fault Refusal :=
  if s.phase = .sent ∧ s.op = .writeCommand then .next { s with status := .ok, phase := .validated }
  else .fault .stepNotEnabled

/-- T_ARM (R155). -/
def execTArm (s : State) : Host.Outcome State Fault Refusal :=
  if s.phase = .sent ∧ s.op = .requestReply then
    .next { s with need := BitVec.ofNat 8 Config.headerBytes, pollCnt := 0, phase := .awaitingHeader }
  else .fault .stepNotEnabled

/-- T_HDR (R156, R157). -/
def execTHdr (s : State) : Host.Outcome State Fault Refusal :=
  if s.phase = .awaitingHeader ∧ Config.headerBytes ≤ chanAvail s then
    match chanReadN Config.headerBytes s with
    | none => .fault .chanReadEmpty
    | some (bs, t) =>
      let buf := Memory.writeBlock t.rxbuf 0 bs
      .next { t with rxbuf := buf, rxcnt := BitVec.ofNat 9 Config.headerBytes, need := Codec.bodyNeed (Memory.read buf 3),
                     pollCnt := 0, phase := .awaitingBody }
  else .fault .stepNotEnabled

/-- One more failed poll iteration (R158, R161). -/
def countMiss (s : State) : State := { s with pollCnt := s.pollCnt + 1 }

/-- T_POLL_HDR_MISS (R158). -/
def execTPollHdrMiss (s : State) : Host.Outcome State Fault Refusal :=
  if s.phase = .awaitingHeader ∧ chanAvail s < Config.headerBytes ∧ s.pollCnt + 1 < s.cfg.pollBound then .next (countMiss s)
  else .fault .stepNotEnabled

/-- T_POLL_HDR_TIMEOUT (R159). -/
def execTPollHdrTimeout (s : State) : Host.Outcome State Fault Refusal :=
  if s.phase = .awaitingHeader ∧ chanAvail s < Config.headerBytes ∧ s.cfg.pollBound ≤ s.pollCnt + 1 then
    .next (raise .headerTimeout (countMiss s))
  else .fault .stepNotEnabled

/-- The end of T_BODY (R160): the outcome of the validation. DEDUCED (log entry 10): what R160 does not write of `rplen` and `rpay`
(all of both on a failure, `rpay` from `rplen` on after a success) keeps its value; 93 U6 calls it any value. -/
def bodyOutcome (r : Option (List Byte)) (s : State) : State :=
  match r with
  | some pl => { s with status := .ok, rplen := BitVec.ofNat 3 pl.length, rpay := Codec.sixOverwrite s.rpay pl, phase := .validated }
  | none => raise .corruptReply s

/-- T_BODY (R160). -/
def execTBody (s : State) : Host.Outcome State Fault Refusal :=
  if s.phase = .awaitingBody ∧ s.need.toNat ≤ chanAvail s then
    if Config.headerBytes + s.need.toNat ≤ Config.rxbufCap then
      match chanReadN s.need.toNat s with
      | none => .fault .chanReadEmpty
      | some (bs, t) =>
        let buf := Memory.writeBlock t.rxbuf Config.headerBytes bs
        let cnt := BitVec.ofNat 9 (Config.headerBytes + s.need.toNat)
        .next (bodyOutcome (Codec.decodeAndValidate (Memory.readBlock buf 0 cnt.toNat) s.cmd s.explen)
          { t with rxbuf := buf, rxcnt := cnt })
    else .fault .rxbufBound
  else .fault .stepNotEnabled

/-- T_POLL_BODY_MISS (R161). -/
def execTPollBodyMiss (s : State) : Host.Outcome State Fault Refusal :=
  if s.phase = .awaitingBody ∧ chanAvail s < s.need.toNat ∧ s.pollCnt + 1 < s.cfg.pollBound then .next (countMiss s)
  else .fault .stepNotEnabled

/-- T_POLL_BODY_TIMEOUT (R162). -/
def execTPollBodyTimeout (s : State) : Host.Outcome State Fault Refusal :=
  if s.phase = .awaitingBody ∧ chanAvail s < s.need.toNat ∧ s.cfg.pollBound ≤ s.pollCnt + 1 then
    .next (raise .bodyTimeout (countMiss s))
  else .fault .stepNotEnabled

/-- T_RETIRE (R163). -/
def execTRetire (s : State) : Host.Outcome State Fault Refusal :=
  if s.phase = .validated then .next (retire s) else .fault .stepNotEnabled

/-- The engine's turn (R25, R165): the one enabled step; in Idle the engine does nothing. -/
def engineStep (s : State) : Host.Outcome State Fault Refusal :=
  match s.phase with
  | .idle => .next s
  | .flushed => execTSend s
  | .sent =>
    match s.op with
    | .writeCommand => execTWrDone s
    | .requestReply => execTArm s
    | .bind => .fault .noStepEnabled
    | .close => .fault .noStepEnabled
  | .awaitingHeader =>
    match pollCond Config.headerBytes s with
    | .enough => execTHdr s
    | .missBelow => execTPollHdrMiss s
    | _ => execTPollHdrTimeout s
  | .awaitingBody =>
    match pollCond s.need.toNat s with
    | .enough => execTBody s
    | .missBelow => execTPollBodyMiss s
    | _ => execTPollBodyTimeout s
  | .validated => execTRetire s

end Sys2Proof.Machine
end

