-- ==== Sys2Proof/Machine/Session.lean ====
section
/-! DEFINITION. The meanings of BIND, WRITE_COMMAND, REQUEST_REPLY and CLOSE (41_session_ops R130 to R133) as the host sees them: one
blocking call, from the start to `done` (30_encoding R103, R134). The steps that carry a call out are the T_* steps, which govern
(41, first paragraph); between them the outside world acts as the agenda says (00_scope R13, 20_memory R56; log entries 4 and 7). -/

namespace Sys2Proof.Machine

open Sys2Proof

/-- The host's own next line, which waits until `busy` = 0 (R103); a frame arriving on the link does not wait. DESIGN CHOICE (log
entry 24): a word of a codec function evaluated on its own waits as well, because it is the host that evaluates it; R93 and
R113 call the functions combinational and do not say when that may be done. -/
def Event.waitsForIdle : Event → Bool
  | .tick => false
  | .deliver _ => false
  | .chanOk _ => false
  | .reset => false
  | .start _ => false
  | .word .link _ => false
  | .word .host _ => true
  | .word .catalogue _ => true
  | .word .checksumFn _ => true
  | .word .encodeFn _ => true
  | .word (.validateFn _ _) _ => true
  | .wrapper _ _ => true

/-- One move while an operation runs: the head of the agenda, or the engine's turn when the agenda is empty or holds the
host's next line. A start pulse is ignored (R135); bytes on the link arrive (R56). -/
def busyStep (s : State) : Host.Outcome State Fault Refusal :=
  match s.agenda with
  | [] => engineStep s
  | .tick :: rest => engineStep { s with agenda := rest }
  | .deliver b :: rest => .next (deliver b { s with agenda := rest })
  | .chanOk v :: rest => .next { s with agenda := rest, chanOk := v }
  | .reset :: rest => .next (applyReset { s with agenda := rest })
  | .start _ :: rest => .next { s with agenda := rest }
  | .word .link bs :: rest => .next (deliverAll bs { s with agenda := rest })
  | .word _ _ :: _ => engineStep s
  | .wrapper _ _ :: _ => engineStep s

/-- Run until `phase` = Idle, in at most `fuel` moves. -/
def runToIdle : Nat → State → Host.Outcome State Fault Refusal
  | 0, s => .next s
  | fuel + 1, s =>
    match s.phase with
    | .idle => .next s
    | _ =>
      match busyStep s with
      | .next t => runToIdle fuel t
      | .fault f => .fault f
      | .refused r => .refused r

/-- Moves that suffice for one call (R164): at most 4 + 2 * POLL_BOUND engine steps, the start among them, and the agenda's
events; one more, so that a bound of 0, which R9 excludes, completes as well. -/
def callFuel (s : State) : Nat := 5 + 2 * s.cfg.pollBound + s.agenda.length

/-- BIND (R130): one atomic step. -/
def execBind (arg : Byte) (s : State) : Host.Outcome State Fault Refusal :=
  if acceptsBind s then .next (bindSession arg s) else .next s

/-- The blocking call of R131: T_START_WR, T_WR_DONE, T_RETIRE. -/
def writeCall (d : Args) (s : State) : Host.Outcome State Fault Refusal :=
  if acceptsSend d s then
    match startWrite d s with
    | .next t => runToIdle (callFuel s) t
    | .fault f => .fault f
    | .refused r => .refused r
  else .next s

/-- WRITE_COMMAND (R131). -/
def execWriteCommand (d : Args) (s : State) : Host.Outcome State Fault Refusal := writeCall d s

/-- REQUEST_REPLY (R132): T_START_REQ to T_RETIRE. -/
def execRequestReply (d : Args) (s : State) : Host.Outcome State Fault Refusal :=
  if acceptsSend d s then runToIdle (callFuel s) (startRequest d s) else .next s

/-- CLOSE (R133): one atomic step. -/
def execClose (s : State) : Host.Outcome State Fault Refusal :=
  if acceptsClose s then .next (closeSession s) else .next s

end Sys2Proof.Machine
end

