-- ==== Sys2Proof/Machine/Catalogue.lean ====
section
/-! DEFINITION. The catalogue layer (43_catalogue R180 to R186): the expansion of a row into an engine operation, the decoding of its
reply, and the meaning of MOVE_TIME_WRITE (R182). -/

namespace Sys2Proof.Machine

open Sys2Proof

/-- Clamp a value to a field's range (R180, R183). DESIGN CHOICE (log entry 22): a range whose lower end lies above its upper end
gives the upper end. -/
def clampField (f : Config.FieldSpec) (v : Nat) : Nat :=
  match f.hi with
  | none => max f.lo v
  | some h => min h (max f.lo v)

/-- `enc(u)` (R181): each value clamped, then little-endian in its field's size. DESIGN CHOICE (log entry 25): a value that does not
fit its field even after clamping (a field without an upper range, N9) keeps its low bytes. DESIGN CHOICE as well: a value is
unsigned (log entry 28) and is the field's own number, not converted from another unit (log entry 29). -/
def encodeFields : List Config.FieldSpec → List Nat → List Byte
  | f :: fs, v :: vs => Codec.leBytes f.bytes (clampField f v) ++ encodeFields fs vs
  | _, _ => []

/-- The inverse on a reply payload (R181). DESIGN CHOICE (log entry 26): where the fields of a row do not add up to the reply's size,
a missing byte reads as 0 and bytes beyond the fields are dropped. DESIGN CHOICE as well: the bytes are read as an unsigned number
(log entry 28), which is handed on with no unit conversion (log entry 29). -/
def decodeFields : List Config.FieldSpec → List Byte → List Nat
  | [], _ => []
  | f :: fs, bs => Codec.fromLe (bs.take f.bytes) :: decodeFields fs (bs.drop f.bytes)

/-- The operands of a row's operation for a payload: `explen` is r + 3 for a read (R181) and 0, ignored, for a write. DESIGN CHOICE
(log entry 22): `bcast` is the row's mark, for a read too; R184 speaks of a write only. -/
def rowArgs (row : Config.CatRow) (pl : List Byte) : Args :=
  { bcast := row.bcast, cmd := row.cmd, plen := BitVec.ofNat 3 pl.length,
    explen := match row.replySize with
      | none => 0
      | some r => Codec.lengthByte r,
    pay := Codec.sixOfList pl }

/-- Expansion of a row (R181, R184): `none` when the values do not make a payload of the row's size, or that size or the
reply's is more than 6 (R186). -/
def expandRow (row : Config.CatRow) (values : List Nat) : Option Instr :=
  let pl := encodeFields row.requestFields values
  if pl.length = row.requestSize ∧ pl.length ≤ Config.payloadMax ∧ values.length = row.requestFields.length then
    match row.replySize with
    | none => some (.writeCommand (rowArgs row pl))
    | some r => if r ≤ Config.payloadMax then some (.requestReply (rowArgs row pl)) else none
  else none

/-- The row of a command in the configured catalogue. DESIGN CHOICE (log entry 27): of several rows with one command id (C4 allows
several wrappers for a command), the first. -/
def findRow (cmd : Byte) (cat : List Config.CatRow) : Option Config.CatRow := cat.find? fun r => decide (r.cmd = cmd)

/-- What the wrapper of a row hands its caller (R181): a read's payload decoded, a failure passed on unchanged. -/
def wrapperResult (row : Config.CatRow) (s : State) : Option (Except Status (List Nat)) :=
  match hostResult (if row.replySize.isSome then .requestReply else .writeCommand) s with
  | .pending => none
  | .ok => some (.ok [])
  | .okPayload bs => some (.ok (decodeFields row.replyFields bs))
  | .fail f => some (.error f)

/-- The operands of `WRITE 1, le16(pos) ++ le16(time)`, position clamped to 0 to 1000 (R182). -/
def moveTimeArgs (pos time : U16) : Args :=
  rowArgs Config.moveTimeWriteRow (encodeFields Config.moveTimeWriteRow.requestFields [pos.toNat, time.toNat])

/-- MOVE_TIME_WRITE (R182, log entry 16): a WRITE_COMMAND with these operands. -/
def execMoveTimeWrite (pos time : U16) (s : State) : Host.Outcome State Fault Refusal :=
  writeCall (moveTimeArgs pos time) s

end Sys2Proof.Machine
end

