-- ==== Sys2Proof/Machine/Frames.lean ====
section
/-! DEFINITION. The meanings of FRAME.P0 to FRAME.P6 (30_encoding R88): the frame's bytes arrive at the receive side of the channel, one
ENV_DELIVER a byte, in ascending offset (20_memory R56, R58; log entry 6). Nothing of the frame is examined on arrival
(R60): the checks are DECODE_VALIDATE's (R115), inside T_BODY. -/

namespace Sys2Proof.Machine

open Sys2Proof

/-- A frame arrives. -/
def frameArrives (a c : Byte) (pl : List Byte) (ck : Byte) (s : State) : Host.Outcome State Fault Refusal :=
  .next (deliverAll (frameBytes a c pl ck) s)

def execFrameP0 (a c ck : Byte) (s : State) : Host.Outcome State Fault Refusal := frameArrives a c [] ck s

def execFrameP1 (a c d0 ck : Byte) (s : State) : Host.Outcome State Fault Refusal := frameArrives a c [d0] ck s

def execFrameP2 (a c d0 d1 ck : Byte) (s : State) : Host.Outcome State Fault Refusal := frameArrives a c [d0, d1] ck s

def execFrameP3 (a c d0 d1 d2 ck : Byte) (s : State) : Host.Outcome State Fault Refusal :=
  frameArrives a c [d0, d1, d2] ck s

def execFrameP4 (a c d0 d1 d2 d3 ck : Byte) (s : State) : Host.Outcome State Fault Refusal :=
  frameArrives a c [d0, d1, d2, d3] ck s

def execFrameP5 (a c d0 d1 d2 d3 d4 ck : Byte) (s : State) : Host.Outcome State Fault Refusal :=
  frameArrives a c [d0, d1, d2, d3, d4] ck s

def execFrameP6 (a c d0 d1 d2 d3 d4 d5 ck : Byte) (s : State) : Host.Outcome State Fault Refusal :=
  frameArrives a c [d0, d1, d2, d3, d4, d5] ck s

end Sys2Proof.Machine
end

