-- ==== Sys2Proof/Machine/Functions.lean ====
section
/-! DEFINITION. The meanings of CHECKSUM, ENCODE and DECODE_VALIDATE as rows of their own (40_codec R110, R113, R115): the function's
value stands on the codec's output port (log entry 5); no register, flag or queue is touched ("with no register and no access to
the channel"). -/

namespace Sys2Proof.Machine

open Sys2Proof

/-- Put a result on the codec's output port. -/
def setCodecOut (o : CodecOut) (s : State) : State := { s with codecOut := o }

/-- CHECKSUM (R110): total. -/
def execChecksum (bytes : List Byte) (s : State) : Host.Outcome State Fault Refusal :=
  .next (setCodecOut (.byte (Codec.checksum bytes)) s)

/-- ENCODE (R113). A payload of more than 6 bytes is outside the function's domain. -/
def execEncodeFrame (a c : Byte) (payload : List Byte) (s : State) : Host.Outcome State Fault Refusal :=
  if payload.length ≤ Config.payloadMax then .next (setCodecOut (.frame (Codec.encode a c payload)) s)
  else .fault .payloadTooLong

/-- DECODE_VALIDATE (R115): total. -/
def execDecodeValidate (raw : List Byte) (c l : Byte) (s : State) : Host.Outcome State Fault Refusal :=
  match Codec.decodeAndValidate raw c l with
  | some pl => .next (setCodecOut (.valid pl) s)
  | none => .next (setCodecOut .corrupt s)

end Sys2Proof.Machine
end

