-- ==== Sys2Proof/Machine/Dispatch.lean ====
section
/-! DEFINITION. One arm per constructor of Instr. -/

namespace Sys2Proof.Machine

open Sys2Proof

def exec (i : Instr) (s : State) : Host.Outcome State Fault Refusal :=
  match i with
  -- wire frames
  | .frameP0 a c ck => Sys2Proof.Machine.execFrameP0 a c ck s
  | .frameP1 a c d0 ck => Sys2Proof.Machine.execFrameP1 a c d0 ck s
  | .frameP2 a c d0 d1 ck => Sys2Proof.Machine.execFrameP2 a c d0 d1 ck s
  | .frameP3 a c d0 d1 d2 ck => Sys2Proof.Machine.execFrameP3 a c d0 d1 d2 ck s
  | .frameP4 a c d0 d1 d2 d3 ck => Sys2Proof.Machine.execFrameP4 a c d0 d1 d2 d3 ck s
  | .frameP5 a c d0 d1 d2 d3 d4 ck => Sys2Proof.Machine.execFrameP5 a c d0 d1 d2 d3 d4 ck s
  | .frameP6 a c d0 d1 d2 d3 d4 d5 ck => Sys2Proof.Machine.execFrameP6 a c d0 d1 d2 d3 d4 d5 ck s
  -- host operations
  | .bind arg => Sys2Proof.Machine.execBind arg s
  | .writeCommand d => Sys2Proof.Machine.execWriteCommand d s
  | .requestReply d => Sys2Proof.Machine.execRequestReply d s
  | .close => Sys2Proof.Machine.execClose s
  -- codec functions
  | .checksum bytes => Sys2Proof.Machine.execChecksum bytes s
  | .encodeFrame a c payload => Sys2Proof.Machine.execEncodeFrame a c payload s
  | .decodeValidate raw c l => Sys2Proof.Machine.execDecodeValidate raw c l s
  -- catalogue
  | .moveTimeWrite pos time => Sys2Proof.Machine.execMoveTimeWrite pos time s
  -- sequencer steps
  | .tBind arg => Sys2Proof.Machine.execTBind arg s
  | .tClose => Sys2Proof.Machine.execTClose s
  | .tStartReq d => Sys2Proof.Machine.execTStartReq d s
  | .tStartWr d => Sys2Proof.Machine.execTStartWr d s
  | .tSend => Sys2Proof.Machine.execTSend s
  | .tWrDone => Sys2Proof.Machine.execTWrDone s
  | .tArm => Sys2Proof.Machine.execTArm s
  | .tHdr => Sys2Proof.Machine.execTHdr s
  | .tPollHdrMiss => Sys2Proof.Machine.execTPollHdrMiss s
  | .tPollHdrTimeout => Sys2Proof.Machine.execTPollHdrTimeout s
  | .tBody => Sys2Proof.Machine.execTBody s
  | .tPollBodyMiss => Sys2Proof.Machine.execTPollBodyMiss s
  | .tPollBodyTimeout => Sys2Proof.Machine.execTPollBodyTimeout s
  | .tRetire => Sys2Proof.Machine.execTRetire s

end Sys2Proof.Machine
end

