-- ==== Sys2Proof/Machine/Fetch.lean ====
section
/-! DEFINITION. From the state to the next instruction: who moves next (the agenda, log entry 4), the word that stands in that mover's
slot, its decoding, and its execution. `Step.lean` only calls this. -/

namespace Sys2Proof.Machine

open Sys2Proof

/-- Decode the bytes in a slot and run the instruction; bytes that are no word of the slot are refused by name. -/
def runWord (slot : Slot) (bs : List Byte) (s : State) : Host.Outcome State Fault Refusal :=
  match decode slot bs with
  | .ok i => exec i s
  | .error e => .refused (.undecodable e)

/-- Bytes on the link: a frame row if they match one, and otherwise bytes like any others (R56, R60: any bytes may arrive). -/
def runLink (bs : List Byte) (s : State) : Host.Outcome State Fault Refusal :=
  match decode (.port .link) bs with
  | .ok i => exec i s
  | .error _ => .next (deliverAll bs s)

/-- The engine's turn: the step its phase and condition select (R25); in Idle it does nothing. -/
def engineTurn (s : State) : Host.Outcome State Fault Refusal :=
  match selectCond s with
  | some c => runWord (.seq c) (phaseWord s) s
  | none => if s.phase = .idle then .next s else .fault .noStepEnabled

/-- A catalogue wrapper (R181): the row's expansion is run like any other line. -/
def runWrapper (cmd : Byte) (values : List Nat) (s : State) : Host.Outcome State Fault Refusal :=
  match findRow cmd s.cfg.catalogue with
  | none => .refused .noCatalogueRow
  | some row =>
    match expandRow row values with
    | none => .refused .noCatalogueRow
    | some i => exec i s

/-- One move of the outside world, or a turn given to the engine. A start pulse runs its start step, whose precondition
tests the phase: outside Idle it is ignored (R135). -/
def moveOf (e : Event) (s : State) : Host.Outcome State Fault Refusal :=
  match e with
  | .tick => engineTurn s
  | .deliver b => .next (deliver b s)
  | .chanOk v => .next { s with chanOk := v }
  | .reset => .next (applyReset s)
  | .start w => runWord (.seq (.start w)) [0] s
  | .word .link bs => runLink bs s
  | .word p bs => runWord (.port p) bs s
  | .wrapper cmd values => runWrapper cmd values s

/-- The next move: the head of the agenda; the engine's turn when the agenda is empty, or when its head is a line of the
host's program and an operation is running (R103: it waits for `busy` = 0; a codec word too, log entry 24). -/
def nextMove (s : State) : Host.Outcome State Fault Refusal :=
  match s.agenda with
  | [] => engineTurn s
  | e :: rest =>
    if busy s && e.waitsForIdle then engineTurn s else moveOf e { s with agenda := rest }

/-- Put a table word where `nextMove` looks first. A host line is taken only when the engine is idle (R103), so for one the
phase is Idle (log entry 17); a codec word is placed the same way (log entry 24). -/
def placeWord (s : State) (nbits w : Nat) : State :=
  let e := Event.word (tableSource nbits w) (tableBytes nbits w)
  { s with agenda := e :: s.agenda, phase := if e.waitsForIdle then .idle else s.phase }

end Sys2Proof.Machine
end

