-- ==== Sys2Proof/WellFormed.lean ====
section
/-! DEFINITION. Well-formed instructions: the operand ranges the spec gives a host program and a frame. A well-formedness check
refuses nothing in the machine: the engine itself is total on these operands (93_implementation_defined U4, U5). -/

namespace Sys2Proof

open Sys2Proof.Machine.Codec

/-- A descriptor's payload size is 0 to 6 (R96). -/
def Args.wellFormed (d : Args) : Bool := decide (d.plen.toNat ≤ Config.payloadMax)

/-- The checksum byte of a frame is right (R88). -/
def frameOk (a c : Byte) (pl : List Byte) (s : Byte) : Bool := decide (s = checksum (covered a c pl))

/-- The unicast addresses, 0 to 253 (R7, R83). -/
def isUnicast (a : Byte) : Bool := decide (a ≤ Config.addrUnicastMax)

/-- An address a host program may use: unicast or broadcast (R7, R83). Address 255 is reserved (R99, 93 U4). -/
def addrOk (a : Byte) : Bool := isUnicast a || decide (a = Config.addrBcast)

/-- The operand ranges of each row. -/
def Instr.wellFormed : Instr → Bool
  | .frameP0 a c s => frameOk a c [] s
  | .frameP1 a c d0 s => frameOk a c [d0] s
  | .frameP2 a c d0 d1 s => frameOk a c [d0, d1] s
  | .frameP3 a c d0 d1 d2 s => frameOk a c [d0, d1, d2] s
  | .frameP4 a c d0 d1 d2 d3 s => frameOk a c [d0, d1, d2, d3] s
  | .frameP5 a c d0 d1 d2 d3 d4 s => frameOk a c [d0, d1, d2, d3, d4] s
  | .frameP6 a c d0 d1 d2 d3 d4 d5 s => frameOk a c [d0, d1, d2, d3, d4, d5] s
  | .bind arg => addrOk arg
  | .writeCommand d => d.wellFormed
  | .requestReply d => d.wellFormed
  | .close => true
  | .checksum bs =>
      decide (Config.lenMin ≤ bs.length) && decide (bs.length ≤ Config.lenMax) &&
        decide (bs[1]? = some (BitVec.ofNat 8 bs.length))
  | .encodeFrame a _ pl => addrOk a && decide (pl.length ≤ Config.payloadMax)
  | .decodeValidate _ _ _ => true
  | .moveTimeWrite _ _ => true
  | .tBind arg => addrOk arg
  | .tClose => true
  | .tStartReq d => d.wellFormed
  | .tStartWr d => d.wellFormed
  | .tSend => true
  | .tWrDone => true
  | .tArm => true
  | .tHdr => true
  | .tPollHdrMiss => true
  | .tPollHdrTimeout => true
  | .tBody => true
  | .tPollBodyMiss => true
  | .tPollBodyTimeout => true
  | .tRetire => true

end Sys2Proof
end

