-- ==== Sys2Proof/Safety.lean ====
section
/-! DEFINITION. What counts as a safe state and a legal host, in the terms the claims use: the invariant every step keeps
(10_state R20, R24 to R33) and the host's obligations (41_session_ops R136). -/

namespace Sys2Proof.Safety

open Sys2Proof Sys2Proof.Machine

/-- The frame buffers are in canonical form and list no offset that does not exist (R20). -/
def BuffersOk (s : State) : Prop :=
  s.txbuf.wf = true ∧ s.txbuf.within Config.frameMax = true ∧ s.rxbuf.wf = true ∧ s.rxbuf.within Config.rxbufCap = true

/-- The receive queue fits its configured depth (R20, R55). -/
def QueueOk (s : State) : Prop :=
  match s.cfg.rxfifoDepth with
  | none => True
  | some d => s.rxq.length ≤ d

/-- What holds throughout a running operation (R21, R26, R31, R32): the session is open, `done` = 0, the payload size is legal. -/
def Running (s : State) : Prop := s.opened = true ∧ s.done = false ∧ s.plen.toNat ≤ Config.payloadMax

/-- What each phase promises about the registers (R24 to R32). -/
def PhaseOk (s : State) : Prop :=
  match s.phase with
  | .idle => (s.done = true ↔ s.status ≠ .none)
  | .flushed => Running s ∧ s.status = .none ∧ s.op = .requestReply ∧ s.rxcnt = 0
  | .sent =>
      Running s ∧ s.status = .none ∧ s.txlen.toNat = 6 + s.plen.toNat ∧
        (s.op = .writeCommand ∨ (s.op = .requestReply ∧ s.rxcnt = 0))
  | .awaitingHeader =>
      Running s ∧ s.status = .none ∧ s.op = .requestReply ∧ s.rxcnt = 0 ∧ s.need = 4 ∧ s.pollCnt < s.cfg.pollBound
  | .awaitingBody =>
      Running s ∧ s.status = .none ∧ s.op = .requestReply ∧ s.rxcnt = 4 ∧
        s.need = Codec.bodyNeed (Memory.read s.rxbuf 3) ∧ s.pollCnt < s.cfg.pollBound
  | .validated =>
      Running s ∧ s.status ≠ .none ∧ s.status ≠ .channelSetupFailure ∧
        (s.op = .writeCommand ∧ s.status = .ok ∨ s.op = .requestReply)

/-- The invariant of the machine. -/
def Inv (s : State) : Prop :=
  s.cfg.wf = true ∧ BuffersOk s ∧ QueueOk s ∧ s.rplen.toNat ≤ Config.payloadMax ∧ s.pollCnt ≤ s.cfg.pollBound ∧ PhaseOk s

/-- A descriptor the host may present in a state (R136): a start that is accepted, with an address that is not reserved. -/
def HostLegal (w : DescWord) (s : State) : Bool :=
  match descOp w with
  | .bind => acceptsBind s && addrOk w.byte1
  | .writeCommand => acceptsSend (descArgs w) s && ((descArgs w).bcast || addrOk s.addr)
  | .requestReply => acceptsSend (descArgs w) s && ((descArgs w).bcast || addrOk s.addr)
  | .close => acceptsClose s

/-- The ten steps of the running engine: every T_* row but the four that a start selects (R25). -/
def engineSteps : List Instr :=
  [.tSend, .tWrDone, .tArm, .tHdr, .tPollHdrMiss, .tPollHdrTimeout, .tBody, .tPollBodyMiss, .tPollBodyTimeout, .tRetire]

/-- `k` steps of the machine, stopping at the first fault or refusal. -/
def runSteps : Nat → State → Host.Outcome State Fault Refusal
  | 0, s => .next s
  | k + 1, s =>
    match step s with
    | .next t => runSteps k t
    | .fault f => .fault f
    | .refused r => .refused r

/-- The bytes that arrive on the link in a stretch of the agenda (R56). -/
def arrivals : List Event → List Byte
  | [] => []
  | .tick :: es => arrivals es
  | .deliver b :: es => b :: arrivals es
  | .chanOk _ :: es => arrivals es
  | .reset :: es => arrivals es
  | .start _ :: es => arrivals es
  | .word .link bs :: es => bs ++ arrivals es
  | .word .host _ :: es => arrivals es
  | .word .catalogue _ :: es => arrivals es
  | .word .checksumFn _ :: es => arrivals es
  | .word .encodeFn _ :: es => arrivals es
  | .word (.validateFn _ _) _ :: es => arrivals es
  | .wrapper _ _ :: es => arrivals es

/-- Turns of the engine, one for each entry of the list, each after the bytes of its entry have arrived: an environment of
R56, written down. -/
def runWithEnv : List (List Byte) → State → Host.Outcome State Fault Refusal
  | [], s => .next s
  | bs :: rest, s =>
    match engineTurn (deliverAll bs s) with
    | .next t => runWithEnv rest t
    | .fault f => .fault f
    | .refused r => .refused r

/-- The receive queue has room for `n` bytes when it is empty. -/
def RoomFor (n : Nat) (s : State) : Prop := ∀ d, s.cfg.rxfifoDepth = some d → n ≤ d

/-- The outcome is a next state. -/
def Continues (o : Host.Outcome State Fault Refusal) : Prop := ∃ t, o = .next t

end Sys2Proof.Safety
end

