-- ==== Sys2Proof/Certificates/Slice0/Obligations.lean ====
section
/-! DEFINITION. The statements for the provers: what the numbered rules of spec/ say the machine does. -/

open Sys2Proof Sys2Proof.Machine Sys2Proof.Safety

/-! ## Encodings -/

/-- Every well-formed instruction, encoded for a session bound to any address `a`, decodes to itself (R80, R88, R100, R101,
R25). The slot a word stands in is the model's device (log entry 15). -/
def Obligations.DecodeOfEncode : Prop :=
  ∀ (a : Byte) (i : Instr), i.wellFormed = true → decode (encode a i).1 (encode a i).2 = .ok i

/-- Every nine-byte descriptor decodes: the two `op` bits select the operation, the fields stand where R100 puts them, and
the two reserved bits `r` have no influence (R100, R101). -/
def Obligations.DescriptorFieldsDecode : Prop :=
  ∀ (r : BitVec 2) (plen : BitVec 3) (bcast : Bool) (o : OpCode) (arg explen p0 p1 p2 p3 p4 p5 : Byte),
    decode (.port .host)
        [(r ++ plen ++ BitVec.ofBool bcast ++ (match o with | .bind => 0#2 | .writeCommand => 1#2 | .requestReply => 2#2 | .close => 3#2) : BitVec 8),
          arg, explen, p0, p1, p2, p3, p4, p5] =
      .ok (match o with
        | .bind => .bind arg
        | .writeCommand => .writeCommand ⟨bcast, arg, plen, explen, ⟨p0, p1, p2, p3, p4, p5⟩⟩
        | .requestReply => .requestReply ⟨bcast, arg, plen, explen, ⟨p0, p1, p2, p3, p4, p5⟩⟩
        | .close => .close)

/-- Words written out from the spec's encodings decode to the instructions they stand for: the document's example frame, a
corrupt frame, descriptors of programs P1, P2 and P6, the MOVE_TIME_WRITE word and step words (95, R88, R100, R182, R25). -/
def Obligations.SampleWordsDecode : Prop :=
  decode (.port .link) [0x55, 0x55, 0x05, 0x07, 0x01, 0x00, 0x02, 0xE8, 0x03, 0x05] = .ok (.frameP4 5 1 0x00 0x02 0xE8 0x03 5) ∧
  decode (.port .link) [0x55, 0x55, 0x05, 0x03, 0x02, 0x00] = .ok (.frameP0 5 2 0) ∧
  decode (.port .host) [0x21, 0x01, 0x00, 0x00, 0x02, 0xE8, 0x03, 0x00, 0x00] =
    .ok (.writeCommand ⟨false, 1, 4, 0, ⟨0x00, 0x02, 0xE8, 0x03, 0, 0⟩⟩) ∧
  decode (.port .host) [0x02, 0x1C, 0x05, 0, 0, 0, 0, 0, 0] = .ok (.requestReply ⟨false, 28, 0, 5, ⟨0, 0, 0, 0, 0, 0⟩⟩) ∧
  decode (.port .host) [0x0D, 0x0D, 0x00, 0x07, 0, 0, 0, 0, 0] = .ok (.writeCommand ⟨true, 13, 1, 0, ⟨7, 0, 0, 0, 0, 0⟩⟩) ∧
  decode (.port .catalogue) [0x55, 0x55, 0x05, 0x07, 0x01, 0x00, 0x02, 0xE8, 0x03, 0x05] = .ok (.moveTimeWrite 512 1000) ∧
  decode (.seq .enough) [3] = .ok .tHdr ∧ decode (.seq .always) [5] = .ok .tRetire

/-! ## The Frame Codec -/

/-- R111, whole: the three forms of the checksum, its consequence for a well-formed frame, and that any accumulator of at
least 8 bits gives the same byte. -/
def Obligations.ChecksumForms : Prop :=
  (∀ bs : List Byte, (Codec.checksum bs).toNat = 255 - (bs.map BitVec.toNat).sum % 256) ∧
  (∀ bs : List Byte, Codec.checksum bs = ~~~ (BitVec.ofNat 8 ((bs.map BitVec.toNat).sum % 256))) ∧
  (∀ (bs : List Byte) (w : Nat), 8 ≤ w →
    Codec.checksum bs = (~~~ (BitVec.ofNat w (bs.map BitVec.toNat).sum)).extractLsb' 0 8) ∧
  (∀ (a c : Byte) (pl : List Byte), pl.length ≤ 6 →
    ∀ ck, (Codec.encode a c pl)[5 + pl.length]? = some ck →
      ((((Codec.encode a c pl).drop 2).take (3 + pl.length)).map BitVec.toNat).sum % 256 + ck.toNat = 255)

/-- R114, whole: size, length byte and injectivity of `encode`. -/
def Obligations.EncodeProperties : Prop :=
  (∀ (a c : Byte) (pl : List Byte), pl.length ≤ 6 →
    (Codec.encode a c pl).length = 6 + pl.length ∧
      (Codec.encode a c pl)[3]?.map BitVec.toNat = some (pl.length + 3)) ∧
  (∀ (a a' c c' : Byte) (pl pl' : List Byte), pl.length ≤ 6 → pl'.length ≤ 6 →
    Codec.encode a c pl = Codec.encode a' c' pl' → a = a' ∧ c = c' ∧ pl = pl')

/-- `decode_and_validate` accepts exactly the byte sequences that are a well-formed frame of format P<l-3> with command id `c`
but for the two marker bytes, which are not checked, and answers the payload (R115, R120, R121). -/
def Obligations.ValidationAcceptsExactly : Prop :=
  ∀ (raw : List Byte) (c l : Byte) (pl : List Byte),
    Codec.decodeAndValidate raw c l = some pl ↔
      ∃ m1 m2 a : Byte, raw = m1 :: m2 :: (Codec.encode a c pl).drop 2 ∧ pl.length ≤ 6 ∧ l.toNat = pl.length + 3

/-- R122: the round trip of the codec. -/
def Obligations.CodecRoundTrip : Prop :=
  ∀ (a c : Byte) (pl : List Byte), pl.length ≤ 6 →
    Codec.decodeAndValidate (Codec.encode a c pl) c (BitVec.ofNat 8 (3 + pl.length)) = some pl

/-- R123: a single flipped bit is detected at every offset from 2 on and never in the markers; for fixed covered bytes exactly
one value of the checksum byte validates; errors that cancel in the sum pass. -/
def Obligations.SingleBitSensitivity : Prop :=
  (∀ (a c : Byte) (pl f' : List Byte) (off bit : Nat) (b : Byte), pl.length ≤ 6 → bit < 8 →
    (Codec.encode a c pl)[off]? = some b →
    f' = (Codec.encode a c pl).set off (b ^^^ BitVec.twoPow 8 bit) →
    Codec.decodeAndValidate f' c (BitVec.ofNat 8 (3 + pl.length)) = if off < 2 then some pl else none) ∧
  (∀ (a c ck : Byte) (pl : List Byte), pl.length ≤ 6 →
    (Codec.decodeAndValidate ([0x55, 0x55] ++ Codec.covered a c pl ++ [ck]) c (BitVec.ofNat 8 (3 + pl.length)) ≠ none ↔
      ck = Codec.checksum (Codec.covered a c pl))) ∧
  (∀ (a c x y k : Byte) (p q r : List Byte), (p ++ [x] ++ q ++ [y] ++ r).length ≤ 6 →
    Codec.decodeAndValidate
        ([0x55, 0x55] ++ Codec.covered a c (p ++ [x + k] ++ q ++ [y - k] ++ r) ++
          [Codec.checksum (Codec.covered a c (p ++ [x] ++ q ++ [y] ++ r))]) c
        (BitVec.ofNat 8 (3 + (p ++ [x] ++ q ++ [y] ++ r).length)) =
      some (p ++ [x + k] ++ q ++ [y - k] ++ r))

/-- R124: every other expected length fails. -/
def Obligations.LengthExactness : Prop :=
  ∀ (a c l : Byte) (pl : List Byte), pl.length ≤ 6 → l.toNat ≠ pl.length + 3 →
    Codec.decodeAndValidate (Codec.encode a c pl) c l = none

/-- The codec rows evaluated on their own answer with the functions' values (R110, R113, R115) on the model's output port (log entry
5) and change nothing else. That ENCODE of more than 6 bytes, which R113 puts outside its domain, stops as `payloadTooLong` is
the model's choice (log entry 21). -/
def Obligations.CodecRowsComplete : Prop :=
  ∀ s : State,
    (∀ bs : List Byte, exec (.checksum bs) s =
      .next { s with codecOut := .byte (BitVec.ofNat 8 (255 - (bs.map BitVec.toNat).sum % 256)) }) ∧
    (∀ (a c : Byte) (pl : List Byte), pl.length ≤ 6 → exec (.encodeFrame a c pl) s =
      .next { s with codecOut := .frame ([0x55, 0x55, a, BitVec.ofNat 8 (pl.length + 3), c] ++ pl ++
        [BitVec.ofNat 8 (255 - (a.toNat + (pl.length + 3) + c.toNat + (pl.map BitVec.toNat).sum) % 256)]) }) ∧
    (∀ (a c : Byte) (pl : List Byte), 6 < pl.length → exec (.encodeFrame a c pl) s = .fault .payloadTooLong) ∧
    (∀ (raw : List Byte) (c l : Byte), exec (.decodeValidate raw c l) s =
      .next { s with codecOut :=
        match Codec.decodeAndValidate raw c l with
        | some pl => .valid pl
        | none => .corrupt })

/-- `le` encoding and its inverse (R91), on the catalogue's fields (R180, R181): the decoding of an encoded request gives back the
clamped values, when each fits its field. That the values are unsigned and in the payload's own units is the model's choice (log
entries 28 and 29). -/
def Obligations.CatalogueFieldsRoundTrip : Prop :=
  (∀ n v : Nat, v < 256 ^ n → Codec.fromLe (Codec.leBytes n v) = v) ∧
  (∀ (fs : List Config.FieldSpec) (vs : List Nat), vs.length = fs.length →
    (∀ p ∈ List.zip fs vs, clampField p.1 p.2 < 256 ^ p.1.bytes) →
    decodeFields fs (encodeFields fs vs) = List.zipWith clampField fs vs)

/-! ## Frames and bytes on the link -/

/-- A frame row appends its bytes to the receive queue, oldest offset first, and changes nothing else; a bounded queue keeps
the bytes that fit (R56, R58, R60, R88; log entries 6 and 8). -/
def Obligations.FrameArrival : Prop :=
  ∀ (s : State) (a c d0 d1 d2 d3 d4 d5 k : Byte) (keep : List Byte → List Byte),
    (keep = fun bs => match s.cfg.rxfifoDepth with | none => bs | some d => bs.take (d - s.rxq.length)) →
    exec (.frameP0 a c k) s = .next { s with rxq := s.rxq ++ keep [0x55, 0x55, a, 3, c, k] } ∧
    exec (.frameP1 a c d0 k) s = .next { s with rxq := s.rxq ++ keep [0x55, 0x55, a, 4, c, d0, k] } ∧
    exec (.frameP2 a c d0 d1 k) s = .next { s with rxq := s.rxq ++ keep [0x55, 0x55, a, 5, c, d0, d1, k] } ∧
    exec (.frameP3 a c d0 d1 d2 k) s = .next { s with rxq := s.rxq ++ keep [0x55, 0x55, a, 6, c, d0, d1, d2, k] } ∧
    exec (.frameP4 a c d0 d1 d2 d3 k) s = .next { s with rxq := s.rxq ++ keep [0x55, 0x55, a, 7, c, d0, d1, d2, d3, k] } ∧
    exec (.frameP5 a c d0 d1 d2 d3 d4 k) s = .next { s with rxq := s.rxq ++ keep [0x55, 0x55, a, 8, c, d0, d1, d2, d3, d4, k] } ∧
    exec (.frameP6 a c d0 d1 d2 d3 d4 d5 k) s =
      .next { s with rxq := s.rxq ++ keep [0x55, 0x55, a, 9, c, d0, d1, d2, d3, d4, d5, k] }

/-- ENV_DELIVER between any two engine steps, in any phase (R56, R55; log entry 8 for the full queue). -/
def Obligations.ByteArrivesInAnyPhase : Prop :=
  ∀ (s : State) (b : Byte) (rest : List Event), s.agenda = .deliver b :: rest →
    ((∀ d, s.cfg.rxfifoDepth = some d → s.rxq.length < d) →
      step s = .next { s with agenda := rest, rxq := s.rxq ++ [b] }) ∧
    (∀ d, s.cfg.rxfifoDepth = some d → d ≤ s.rxq.length → step s = .next { s with agenda := rest })

/-! ## Reset -/

/-- Reset at any time leaves the engine idle, closed, with no result and an empty transmit log, and it then does nothing (R220,
R38, R221); so does the reset state. -/
def Obligations.ResetLeavesIdleEngine : Prop :=
  (∀ (s : State) (rest : List Event), s.agenda = .reset :: rest →
    ∃ t, step s = .next t ∧ t.phase = .idle ∧ t.opened = false ∧ t.done = false ∧ t.status = .none ∧ t.txlog = [] ∧
      t.agenda = rest ∧ engineTurn t = .next t ∧ ∀ o, hostResult o t = .pending) ∧
  State.reset.phase = .idle ∧ State.reset.opened = false ∧ State.reset.done = false ∧ State.reset.status = .none ∧
    State.reset.txlog = [] ∧ engineTurn State.reset = .next State.reset

/-! ## Host operations -/

/-- R130: BIND, as a host operation and as the step T_BIND. That it leaves `rplen` and `rpay`
alone is the model's reading (log entry 10): R33 and 93 U6 call them unspecified after a BIND. -/
def Obligations.BindResult : Prop :=
  ∀ (arg : Byte) (s : State),
    (s.phase = .idle → s.opened = false → s.chanOk = true →
      exec (.bind arg) s = .next { s with addr := arg, opened := true, status := .ok, done := true } ∧
      exec (.tBind arg) s = .next { s with addr := arg, opened := true, status := .ok, done := true }) ∧
    (s.phase = .idle → s.opened = false → s.chanOk = false →
      exec (.bind arg) s = .next { s with status := .channelSetupFailure, done := true } ∧
      exec (.tBind arg) s = .next { s with status := .channelSetupFailure, done := true }) ∧
    (s.opened = true → exec (.bind arg) s = .next s ∧ exec (.tBind arg) s = .next s)

/-- R133: CLOSE, as a host operation and as the step T_CLOSE. That it leaves `rplen` and `rpay` alone is the model's reading (log
entry 10): R33 and 93 U6 call them unspecified after a CLOSE. -/
def Obligations.CloseResult : Prop :=
  ∀ s : State,
    (s.phase = .idle → s.opened = true →
      exec .close s = .next { s with opened := false, status := .ok, done := true } ∧
      exec .tClose s = .next { s with opened := false, status := .ok, done := true }) ∧
    (s.phase ≠ .idle → exec .close s = .next s ∧ exec .tClose s = .next s)

/-- R135: the starts that are ignored change nothing: as operations, as start steps, and as a raw start pulse. -/
def Obligations.IgnoredStarts : Prop :=
  ∀ s : State,
    (∀ arg, s.phase ≠ .idle ∨ s.opened = true → exec (.bind arg) s = .next s ∧ exec (.tBind arg) s = .next s) ∧
    (s.phase ≠ .idle ∨ s.opened = false → exec .close s = .next s ∧ exec .tClose s = .next s) ∧
    (∀ d : Args, s.phase ≠ .idle ∨ s.opened = false ∨ d.plen = 7 →
      exec (.writeCommand d) s = .next s ∧ exec (.requestReply d) s = .next s ∧
      exec (.tStartWr d) s = .next s ∧ exec (.tStartReq d) s = .next s) ∧
    (∀ (w : DescWord) (rest : List Event), s.agenda = .start w :: rest →
      (s.phase ≠ .idle ∨
        (match descOp w with
          | .bind => s.opened = true
          | .close => s.opened = false
          | .writeCommand => s.opened = false ∨ (descArgs w).plen = 7
          | .requestReply => s.opened = false ∨ (descArgs w).plen = 7)) →
      step s = .next { s with agenda := rest })

/-- R134, R136: a start the host may issue is accepted: BIND and CLOSE finish in that step, the sends begin with `done` = 0 and
`status` = None. -/
def Obligations.LegalStartsAreAccepted : Prop :=
  ∀ (w : DescWord) (s : State) (rest : List Event), HostLegal w s = true → s.agenda = .start w :: rest →
    ∃ t, step s = .next t ∧
      (match descOp w with
        | .bind => t.phase = .idle ∧ t.done = true ∧ t.status = (if s.chanOk then .ok else .channelSetupFailure)
        | .close => t.phase = .idle ∧ t.done = true ∧ t.status = .ok ∧ t.opened = false
        | .writeCommand => t.phase = .sent ∧ t.done = false ∧ t.status = .none
        | .requestReply => t.phase = .flushed ∧ t.done = false ∧ t.status = .none)

/-- R131: a WRITE_COMMAND transmits one frame and completes with `Ok`, whatever arrives meanwhile; it neither flushes nor reads,
and waits for nothing: the queue is its old contents followed by what arrived during the write, and with no arrivals in the
agenda it is unchanged. Two clauses are the model's choice, not R131's: that a bounded queue keeps only what fits (log entry 8;
R131 says that whatever arrives stays), and that `rplen` and `rpay`, which 93 U6 calls any value after a write, keep theirs (log
entry 10). A reset anywhere in the agenda is shut out. The last clauses are its frame: the latched operands, the transmit
buffer up to the frame's size, and nothing else but the queue, `chan_ok` (an input) and the agenda's used part. -/
def Obligations.WriteCommandWhole : Prop :=
  ∀ (d : Args) (s : State) (frame : List Byte), BuffersOk s → s.phase = .idle → s.opened = true → d.plen.toNat ≤ 6 →
    Event.reset ∉ s.agenda → frame = Codec.encode (if d.bcast then 254 else s.addr) d.cmd (payloadOf d.pay d.plen) →
    ∃ t, exec (.writeCommand d) s = .next t ∧ t.txlog = s.txlog ++ frame ∧
      t.status = .ok ∧ t.done = true ∧ t.phase = .idle ∧ hostResult .writeCommand t = .ok ∧
      (∃ used, s.agenda = used ++ t.agenda ∧
        t.rxq = s.rxq ++ (match s.cfg.rxfifoDepth with
          | none => arrivals used
          | some d => (arrivals used).take (d - s.rxq.length))) ∧
      (arrivals s.agenda = [] → t.rxq = s.rxq) ∧
      t.txlen.toNat = 6 + d.plen.toNat ∧ Memory.readBlock t.txbuf 0 (6 + d.plen.toNat) = frame ∧
      (∀ k, 6 + d.plen.toNat ≤ k → Memory.read t.txbuf k = Memory.read s.txbuf k) ∧
      t = { s with op := .writeCommand, bcast := d.bcast, cmd := d.cmd, plen := d.plen, pay := d.pay, explen := d.explen,
                   done := true, status := .ok, txbuf := t.txbuf, txlen := t.txlen, txlog := t.txlog, rxq := t.rxq,
                   chanOk := t.chanOk, agenda := t.agenda }

/-- R164, first sentence: an accepted start of a WRITE_COMMAND reaches Idle with `done` = 1 in exactly three engine steps. -/
def Obligations.WriteTakesThreeSteps : Prop :=
  ∀ (d : Args) (s : State), s.phase = .idle → s.opened = true → d.plen.toNat ≤ 6 →
    ∃ t1 t2 t3, exec (.tStartWr d) s = .next t1 ∧ engineTurn t1 = .next t2 ∧ engineTurn t2 = .next t3 ∧
      t1.phase ≠ .idle ∧ t2.phase ≠ .idle ∧ t3.phase = .idle ∧ t3.done = true

/-- R132, R164: a REQUEST_REPLY always completes, whatever arrives: one frame transmitted, back in Idle, exactly one of the four
outcomes published; with a reset in the agenda it is at least idle again. That `rplen` and `rpay` keep their values on a
failure, where R33 calls them unspecified, is the model's reading (log entry 10). The last clauses are its frame: the buffers
beyond `txlen` and `rxcnt`, and every register that is not named. -/
def Obligations.RequestReplyCompletes : Prop :=
  ∀ (d : Args) (s : State) (frame : List Byte), BuffersOk s → s.phase = .idle → s.opened = true → d.plen.toNat ≤ 6 →
    frame = Codec.encode (if d.bcast then 254 else s.addr) d.cmd (payloadOf d.pay d.plen) →
    ∃ t, exec (.requestReply d) s = .next t ∧ t.phase = .idle ∧ t.cfg = s.cfg ∧
      (Event.reset ∉ s.agenda →
        t.done = true ∧ t.txlog = s.txlog ++ frame ∧
        (t.status = .ok ∨ (t.status = .headerTimeout ∨ t.status = .bodyTimeout ∨ t.status = .corruptReply) ∧
          t.rplen = s.rplen ∧ t.rpay = s.rpay) ∧
        t.txlen.toNat = 6 + d.plen.toNat ∧ Memory.readBlock t.txbuf 0 (6 + d.plen.toNat) = frame ∧
        (∀ k, 6 + d.plen.toNat ≤ k → Memory.read t.txbuf k = Memory.read s.txbuf k) ∧
        (∀ k, t.rxcnt.toNat ≤ k → Memory.read t.rxbuf k = Memory.read s.rxbuf k) ∧
        t = { s with op := .requestReply, bcast := d.bcast, cmd := d.cmd, plen := d.plen, pay := d.pay, explen := d.explen,
                     done := true, status := t.status, rplen := t.rplen, rpay := t.rpay, pollCnt := t.pollCnt, need := t.need,
                     txbuf := t.txbuf, txlen := t.txlen, txlog := t.txlog, rxbuf := t.rxbuf, rxcnt := t.rxcnt, rxq := t.rxq,
                     chanOk := t.chanOk, agenda := t.agenda })

/-- R164: from an accepted start of a REQUEST_REPLY, whatever bytes the environment delivers before each engine step, the
engine is idle with `done` = 1 after at most 4 + 2 * POLL_BOUND steps, the start among them. -/
def Obligations.RequestReplyBounded : Prop :=
  ∀ (d : Args) (s : State) (env : List (List Byte)), s.cfg.wf = true → s.phase = .idle → s.opened = true →
    d.plen.toNat ≤ 6 → env.length + 1 = 4 + 2 * s.cfg.pollBound →
    ∃ t0 k t, exec (.tStartReq d) s = .next t0 ∧ k ≤ env.length ∧ runWithEnv (env.take k) t0 = .next t ∧
      t.phase = .idle ∧ t.done = true

/-- R159, R191: on a line that delivers fewer than 4 bytes and then nothing, a REQUEST_REPLY polls POLL_BOUND times and reports
HeaderTimeout; the bytes stay unread. -/
def Obligations.SilentLineTimesOut : Prop :=
  ∀ (d : Args) (s : State) (bs : List Byte), BuffersOk s → s.cfg.wf = true → s.phase = .idle → s.opened = true →
    d.plen.toNat ≤ 6 → bs.length < 4 → s.agenda = [.word .link bs] →
    ∃ t, exec (.requestReply d) s = .next t ∧ hostResult .requestReply t = .fail .headerTimeout ∧ t.pollCnt = s.cfg.pollBound ∧
      t.rxq = bs ∧ t.rxcnt = 0 ∧ t.rxbuf = s.rxbuf ∧
      t.txlog = s.txlog ++ Codec.encode (if d.bcast then 254 else s.addr) d.cmd (payloadOf d.pay d.plen)

/-- R162, R192: a header that announces more than arrives ends in BodyTimeout; the header is consumed, the partial body stays. -/
def Obligations.PartialBodyTimesOut : Prop :=
  ∀ (d : Args) (s : State) (m1 m2 a l : Byte) (part : List Byte), BuffersOk s → s.cfg.wf = true → s.phase = .idle →
    s.opened = true → d.plen.toNat ≤ 6 → RoomFor (4 + part.length) s → part.length + 1 < l.toNat →
    s.agenda = [.word .link (m1 :: m2 :: a :: l :: part)] →
    ∃ t, exec (.requestReply d) s = .next t ∧ hostResult .requestReply t = .fail .bodyTimeout ∧ t.pollCnt = s.cfg.pollBound ∧
      t.rxq = part ∧ t.rxcnt = 4 ∧ t.need.toNat = l.toNat - 1 ∧ Memory.readBlock t.rxbuf 0 4 = [m1, m2, a, l]

/-- R132, R160, R195: when header and body arrive, the host reads exactly what `decode_and_validate` answers on the bytes of the
frame, and what arrived beyond the frame stays in the queue. -/
def Obligations.RequestReplyReturnsValidation : Prop :=
  ∀ (d : Args) (s : State) (m1 m2 a l : Byte) (body extra : List Byte), BuffersOk s → s.cfg.wf = true → s.phase = .idle →
    s.opened = true → d.plen.toNat ≤ 6 → RoomFor (4 + body.length + extra.length) s → body.length = l.toNat - 1 →
    s.agenda = [.word .link (m1 :: m2 :: a :: l :: (body ++ extra))] →
    ∃ t, exec (.requestReply d) s = .next t ∧ t.rxq = extra ∧
      hostResult .requestReply t =
        match Codec.decodeAndValidate (m1 :: m2 :: a :: l :: body) d.cmd d.explen with
        | some pl => .okPayload pl
        | none => .fail .corruptReply

/-- The blocking call of REQUEST_REPLY or WRITE_COMMAND is the small-step machine run from the start pulse (41, first paragraph:
the two must agree). -/
def Obligations.CallsEqualSmallSteps : Prop :=
  ∀ (d : Args) (s : State), s.phase = .idle → s.opened = true → d.plen.toNat ≤ 6 →
    (∃ k, runSteps k { s with agenda := .start (descOfArgs .requestReply d) :: s.agenda } = exec (.requestReply d) s) ∧
    (∃ k, runSteps k { s with agenda := .start (descOfArgs .writeCommand d) :: s.agenda } = exec (.writeCommand d) s)

/-- R137: the result of a REQUEST_REPLY does not depend on stale bytes, on any register but `addr`, or on earlier calls: two
states that agree on the address, the parameters and what happens from the flush on give the host the same result and
transmit the same bytes. -/
def Obligations.CallsAreIndependent : Prop :=
  ∀ (d : Args) (s1 s2 t1 t2 : State), BuffersOk s1 → BuffersOk s2 → s1.phase = .idle → s2.phase = .idle →
    s1.opened = true → s2.opened = true → s1.addr = s2.addr → s1.cfg = s2.cfg → s1.agenda = s2.agenda →
    Event.reset ∉ s1.agenda →
    exec (.requestReply d) s1 = .next t1 → exec (.requestReply d) s2 = .next t2 → d.plen.toNat ≤ 6 →
    hostResult .requestReply t1 = hostResult .requestReply t2 ∧ t1.rxq = t2.rxq ∧
      ∃ sent, t1.txlog = s1.txlog ++ sent ∧ t2.txlog = s2.txlog ++ sent

/-- R182: MOVE_TIME_WRITE clamps the position to 0..1000 and sends command 1 with the two little-endian fields: it is the
WRITE_COMMAND with that payload, in every state. That the time is sent as it is, unclamped, is the model's reading (log entry
16): the spec gives no range for it (N9). -/
def Obligations.MoveTimeWriteSends : Prop :=
  ∀ (pos time : U16) (s : State) (p0 p1 t0 t1 : Byte), p0 = BitVec.ofNat 8 (min 1000 pos.toNat) →
    p1 = BitVec.ofNat 8 (min 1000 pos.toNat / 256) → t0 = time.extractLsb' 0 8 → t1 = time.extractLsb' 8 8 →
    exec (.moveTimeWrite pos time) s = exec (.writeCommand ⟨false, 1, 4, 0, ⟨p0, p1, t0, t1, 0, 0⟩⟩) s ∧
    (BuffersOk s → s.phase = .idle → s.opened = true → Event.reset ∉ s.agenda →
      ∃ t, exec (.moveTimeWrite pos time) s = .next t ∧ t.status = .ok ∧ t.done = true ∧ t.phase = .idle ∧
        t.txlog = s.txlog ++ Codec.encode s.addr 1 [p0, p1, t0, t1])

/-- R181: a catalogue row whose values fill its fields expands to WRITE_COMMAND with its payload, or to REQUEST_REPLY with expected
length r + 3. The row's `bcast` mark, and above all that a read row hands it to its REQUEST_REPLY, is the model's row form (log
entry 22): R184 gives a broadcast row for a write only. -/
def Obligations.CatalogueRowExpands : Prop :=
  ∀ (row : Config.CatRow) (vs : List Nat), vs.length = row.requestFields.length →
    (encodeFields row.requestFields vs).length = row.requestSize → row.requestSize ≤ 6 →
    (row.replySize = none → ∃ d : Args, expandRow row vs = some (.writeCommand d) ∧ d.cmd = row.cmd ∧ d.bcast = row.bcast ∧
      payloadOf d.pay d.plen = encodeFields row.requestFields vs) ∧
    (∀ r, row.replySize = some r → r ≤ 6 → ∃ d : Args, expandRow row vs = some (.requestReply d) ∧ d.cmd = row.cmd ∧
      d.bcast = row.bcast ∧ d.explen.toNat = r + 3 ∧ payloadOf d.pay d.plen = encodeFields row.requestFields vs)

/-- R181: a catalogue wrapper called while the engine is idle runs its row's expansion; a wrapper without a row, or whose values do
not fit it, is turned away by name (log entry 22). -/
def Obligations.CatalogueWrapperRuns : Prop :=
  ∀ (s : State) (c : Byte) (vs : List Nat) (rest : List Event), s.agenda = .wrapper c vs :: rest → s.phase = .idle →
    (∀ row i, findRow c s.cfg.catalogue = some row → expandRow row vs = some i → step s = exec i { s with agenda := rest }) ∧
    ((∀ row, findRow c s.cfg.catalogue = some row → expandRow row vs = none) → step s = .refused .noCatalogueRow)

/-- R181: what a catalogue wrapper hands its caller when its call has ended (`t` is the state after the step that ran it, `row`
the row found): a failure unchanged, nothing for a write, and the decoded reply payload for a read. Without an open session
its start is ignored (R135). That the decoded values are unsigned and in the payload's own units is the model's choice (log
entries 28 and 29). -/
def Obligations.CatalogueWrapperResult : Prop :=
  ∀ (s t : State) (c : Byte) (vs : List Nat) (rest : List Event) (row : Config.CatRow),
    s.agenda = .wrapper c vs :: rest → s.phase = .idle → findRow c s.cfg.catalogue = some row → step s = .next t →
    (s.opened = true →
      t.phase = .idle ∧
      (t.done = true →
        (t.status.isFailure = true → wrapperResult row t = some (.error t.status)) ∧
        (t.status = .ok → row.replySize = none → wrapperResult row t = some (.ok [])) ∧
        (t.status = .ok → row.replySize.isSome = true →
          wrapperResult row t = some (.ok (decodeFields row.replyFields ((Codec.sixToList t.rpay).take t.rplen.toNat)))))) ∧
    (s.opened = false → t = { s with agenda := rest })

/-! ## Sequencer steps -/

/-- R150: T_START_REQ. -/
def Obligations.StartRequestStep : Prop :=
  ∀ (d : Args) (s : State),
    (s.phase = .idle → s.opened = true → d.plen.toNat ≤ 6 →
      exec (.tStartReq d) s = .next { s with
        op := .requestReply, bcast := d.bcast, cmd := d.cmd, plen := d.plen, pay := d.pay, explen := d.explen,
        done := false, status := .none, rxcnt := 0, rxq := [], phase := .flushed }) ∧
    (¬ (s.phase = .idle ∧ s.opened = true ∧ d.plen.toNat ≤ 6) → exec (.tStartReq d) s = .next s)

/-- R151 with R152: T_START_WR builds the frame afresh in `txbuf`, hands it to the channel whole, and touches nothing else. -/
def Obligations.StartWriteStep : Prop :=
  ∀ (d : Args) (s : State) (frame : List Byte), BuffersOk s → s.phase = .idle → s.opened = true → d.plen.toNat ≤ 6 →
    frame = Codec.encode (if d.bcast then 254 else s.addr) d.cmd (payloadOf d.pay d.plen) →
    ∃ t, exec (.tStartWr d) s = .next t ∧ t.txlog = s.txlog ++ frame ∧ t.txlen.toNat = 6 + d.plen.toNat ∧
      Memory.readBlock t.txbuf 0 (6 + d.plen.toNat) = frame ∧
      (∀ k, 6 + d.plen.toNat ≤ k → Memory.read t.txbuf k = Memory.read s.txbuf k) ∧
      t = { s with op := .writeCommand, bcast := d.bcast, cmd := d.cmd, plen := d.plen, pay := d.pay, explen := d.explen,
                   done := false, status := .none, txbuf := t.txbuf, txlen := t.txlen, txlog := t.txlog, phase := .sent }

/-- R153 with R152: T_SEND. -/
def Obligations.SendStep : Prop :=
  ∀ (s : State) (frame : List Byte), BuffersOk s → s.phase = .flushed → s.plen.toNat ≤ 6 →
    frame = Codec.encode (if s.bcast then 254 else s.addr) s.cmd (payloadOf s.pay s.plen) →
    ∃ t, exec .tSend s = .next t ∧ t.txlog = s.txlog ++ frame ∧ t.txlen.toNat = 6 + s.plen.toNat ∧
      Memory.readBlock t.txbuf 0 (6 + s.plen.toNat) = frame ∧
      (∀ k, 6 + s.plen.toNat ≤ k → Memory.read t.txbuf k = Memory.read s.txbuf k) ∧
      t = { s with txbuf := t.txbuf, txlen := t.txlen, txlog := t.txlog, phase := .sent }

/-- R154 and R155: T_WR_DONE and T_ARM. -/
def Obligations.SentSteps : Prop :=
  ∀ s : State, s.phase = .sent →
    (s.op = .writeCommand → exec .tWrDone s = .next { s with status := .ok, phase := .validated }) ∧
    (s.op = .requestReply → exec .tArm s = .next { s with need := 4, pollCnt := 0, phase := .awaitingHeader })

/-- R156 with R157: T_HDR reads the four oldest bytes and sets `need` from the announced length. -/
def Obligations.HeaderStep : Prop :=
  ∀ (s : State) (m1 m2 a l : Byte) (rest : List Byte), BuffersOk s → s.phase = .awaitingHeader →
    s.rxq = m1 :: m2 :: a :: l :: rest →
    ∃ t, exec .tHdr s = .next t ∧ Memory.readBlock t.rxbuf 0 4 = [m1, m2, a, l] ∧
      (∀ k, 4 ≤ k → Memory.read t.rxbuf k = Memory.read s.rxbuf k) ∧ t.need.toNat = l.toNat - 1 ∧
      t = { s with rxbuf := t.rxbuf, rxcnt := 4, need := t.need, pollCnt := 0, rxq := rest, phase := .awaitingBody }

/-- R158 and R161: the failed polls below the bound. -/
def Obligations.PollMissSteps : Prop :=
  ∀ s : State, s.pollCnt + 1 < s.cfg.pollBound →
    (s.phase = .awaitingHeader → s.rxq.length < 4 → exec .tPollHdrMiss s = .next { s with pollCnt := s.pollCnt + 1 }) ∧
    (s.phase = .awaitingBody → s.rxq.length < s.need.toNat →
      exec .tPollBodyMiss s = .next { s with pollCnt := s.pollCnt + 1 })

/-- R159 and R162 with R196: the poll that reaches the bound raises the timeout. That it leaves `rplen` and `rpay` alone is the
model's reading (log entry 10): R33 and 93 U6 call them unspecified after a failure. -/
def Obligations.PollTimeoutSteps : Prop :=
  ∀ s : State, s.cfg.pollBound ≤ s.pollCnt + 1 →
    (s.phase = .awaitingHeader → s.rxq.length < 4 →
      exec .tPollHdrTimeout s = .next { s with pollCnt := s.pollCnt + 1, status := .headerTimeout, phase := .validated }) ∧
    (s.phase = .awaitingBody → s.rxq.length < s.need.toNat →
      exec .tPollBodyTimeout s = .next { s with pollCnt := s.pollCnt + 1, status := .bodyTimeout, phase := .validated })

/-- R160: T_BODY reads `need` bytes (0 to 254: R28, R157), validates the whole frame and publishes the payload, or raises
CorruptReply and leaves the result registers as they were. That after a success `rpay` keeps its bytes from `rplen` on, which 93
U6 calls any value, and that `rplen` and `rpay` keep theirs on a failure, is the model's reading (log entry 10). -/
def Obligations.BodyStep : Prop :=
  ∀ s : State, BuffersOk s → s.phase = .awaitingBody → s.need.toNat ≤ s.rxq.length → s.need.toNat ≤ 254 →
    ∃ t, exec .tBody s = .next t ∧ t.rxcnt.toNat = 4 + s.need.toNat ∧
      Memory.readBlock t.rxbuf 4 s.need.toNat = s.rxq.take s.need.toNat ∧
      (∀ k, k < 4 ∨ 4 + s.need.toNat ≤ k → Memory.read t.rxbuf k = Memory.read s.rxbuf k) ∧
      (match Codec.decodeAndValidate (Memory.readBlock s.rxbuf 0 4 ++ s.rxq.take s.need.toNat) s.cmd s.explen with
        | some pl => t.status = .ok ∧ t.rplen.toNat = pl.length ∧ (Codec.sixToList t.rpay).take pl.length = pl ∧
            (Codec.sixToList t.rpay).drop pl.length = (Codec.sixToList s.rpay).drop pl.length
        | none => t.status = .corruptReply ∧ t.rplen = s.rplen ∧ t.rpay = s.rpay) ∧
      t = { s with rxbuf := t.rxbuf, rxcnt := t.rxcnt, rxq := s.rxq.drop s.need.toNat, status := t.status, rplen := t.rplen,
                   rpay := t.rpay, phase := .validated }

/-- The model's own stops in states no run reaches (log entry 21): a latched payload size of 7, and a `need` of 255, which no
header gives and which does not fit the buffer. -/
def Obligations.OutOfDomainStops : Prop :=
  ∀ s : State,
    (s.phase = .flushed → s.plen = 7 → exec .tSend s = .fault .payloadTooLong) ∧
    (s.phase = .awaitingBody → s.need = 255 → 255 ≤ s.rxq.length → exec .tBody s = .fault .rxbufBound)

/-- R163: T_RETIRE publishes and returns to Idle; the outcome and the result registers stay. -/
def Obligations.RetireStep : Prop :=
  ∀ s : State, s.phase = .validated → exec .tRetire s = .next { s with done := true, phase := .idle }

/-- R164, R165: in a running engine exactly one of the ten steps is enabled, the engine's turn takes it, and every other one has no
transition (it stops as `stepNotEnabled`, log entry 9). -/
def Obligations.ExactlyOneStepEnabled : Prop :=
  ∀ s : State, Inv s → s.phase ≠ .idle →
    ∃ i ∈ engineSteps, Continues (exec i s) ∧ engineTurn s = exec i s ∧
      ∀ j ∈ engineSteps, j ≠ i → exec j s = .fault .stepNotEnabled

/-- R25: the transitions of `phase`, with their conditions; no other exists. A blocking call of the host starts and ends in Idle. -/
def Obligations.PhaseTransitions : Prop :=
  (∀ s t : State, engineTurn s = .next t →
    (s.phase = .idle ∧ t = s) ∨
    (s.phase = .flushed ∧ t.phase = .sent) ∨
    (s.phase = .sent ∧ s.op = .writeCommand ∧ t.phase = .validated) ∨
    (s.phase = .sent ∧ s.op = .requestReply ∧ t.phase = .awaitingHeader) ∨
    (s.phase = .awaitingHeader ∧ s.rxq.length < 4 ∧ s.pollCnt + 1 < s.cfg.pollBound ∧ t.phase = .awaitingHeader) ∨
    (s.phase = .awaitingHeader ∧ s.rxq.length < 4 ∧ s.cfg.pollBound ≤ s.pollCnt + 1 ∧ t.phase = .validated) ∨
    (s.phase = .awaitingHeader ∧ 4 ≤ s.rxq.length ∧ t.phase = .awaitingBody) ∨
    (s.phase = .awaitingBody ∧ s.rxq.length < s.need.toNat ∧ s.pollCnt + 1 < s.cfg.pollBound ∧ t.phase = .awaitingBody) ∨
    (s.phase = .awaitingBody ∧ s.rxq.length < s.need.toNat ∧ s.cfg.pollBound ≤ s.pollCnt + 1 ∧ t.phase = .validated) ∨
    (s.phase = .awaitingBody ∧ s.need.toNat ≤ s.rxq.length ∧ t.phase = .validated) ∨
    (s.phase = .validated ∧ t.phase = .idle)) ∧
  (∀ (s t : State) (w : DescWord) (rest : List Event), s.agenda = .start w :: rest → step s = .next t →
    t.phase = s.phase ∨
    (s.phase = .idle ∧ descOp w = .writeCommand ∧ t.phase = .sent) ∨
    (s.phase = .idle ∧ descOp w = .requestReply ∧ t.phase = .flushed)) ∧
  (∀ (s t : State) (e : Event) (rest : List Event), s.agenda = e :: rest → step s = .next t → e.waitsForIdle = false →
    e ≠ .tick → e ≠ .reset → (∀ w, e ≠ .start w) → t.phase = s.phase) ∧
  (∀ (s t : State) (e : Event) (rest : List Event), s.agenda = e :: rest → step s = .next t → e.waitsForIdle = true →
    s.phase = .idle → t.phase = .idle)

/-! ## The whole machine -/

/-- The invariant holds after reset. -/
def Obligations.ResetMeetsInvariant : Prop := Inv State.reset

/-- Every step keeps the invariant: buffers canonical and in bounds, queue within its depth, counters bounded, and each phase's
registers as R24 to R32 say. -/
def Obligations.StepKeepsInvariant : Prop := ∀ s t : State, Inv s → step s = .next t → Inv t

/-- From a state that meets the invariant no step faults: no read of an empty queue (R53, R235), no disabled step (R165), no offset
that does not exist (R30), no payload of more than 6 bytes (R96). -/
def Obligations.NoFaultFromInvariant : Prop := ∀ (s : State) (f : Fault), Inv s → step s ≠ .fault f

/-- A step runs the decoded instruction: the word at the head of the agenda (a host's line only in Idle; R103), the start
pulse's word, or the sequencer's word; bytes on the link that match no frame arrive as they are. -/
def Obligations.StepRunsDecodedInstruction : Prop :=
  ∀ (s : State) (rest : List Event) (i : Instr),
    (∀ (p : Source) (bs : List Byte), s.agenda = .word p bs :: rest → decode (.port p) bs = .ok i → (s.phase = .idle ∨ p = .link) →
      step s = exec i { s with agenda := rest }) ∧
    (∀ (w : DescWord), s.agenda = .start w :: rest → decode (.seq (.start w)) [0] = .ok i →
      step s = exec i { s with agenda := rest }) ∧
    (∀ c : Cond, s.agenda = .tick :: rest → selectCond s = some c → decode (.seq c) (phaseWord s) = .ok i →
      step s = exec i { s with agenda := rest }) ∧
    (∀ c : Cond, (s.agenda = [] ∨ ∃ e, s.agenda = e :: rest ∧ e.waitsForIdle = true) → selectCond s = some c →
      decode (.seq c) (phaseWord s) = .ok i → step s = exec i s) ∧
    (∀ (bs : List Byte) (err : DecodeError), s.agenda = .word .link bs :: rest → decode (.port .link) bs = .error err →
      step s = .next (deliverAll bs { s with agenda := rest }))

/-- A table word placed for the next fetch is the instruction the next step runs, in any state; a host's line is taken in
Idle. -/
def Obligations.PlacedWordRuns : Prop :=
  ∀ (s : State) (nbits w : Nat) (i : Instr), decodeTableWord nbits w = some i →
    step (s.withFetchWord nbits w) =
      exec i (if tableSource nbits w = .link then s else { s with phase := .idle })

/-- R22: `addr` is written only by BIND. -/
def Obligations.AddrWrittenOnlyByBind : Prop :=
  ∀ s t : State, step s = .next t → Event.reset ∉ s.agenda → t.addr ≠ s.addr →
    s.phase = .idle ∧ s.opened = false ∧ s.chanOk = true ∧ t.opened = true ∧
      ∃ rest, (∃ w : DescWord, s.agenda = .start w :: rest ∧ descOp w = .bind ∧ w.byte1 = t.addr) ∨
        (∃ bs, s.agenda = .word .host bs :: rest ∧ decode (.port .host) bs = .ok (.bind t.addr))

/-- R51, R201: without a reset the transmit log only grows, and one step adds at most one frame, whole. -/
def Obligations.TransmitLogGrowsByWholeFrames : Prop :=
  ∀ s t : State, BuffersOk s → Event.reset ∉ s.agenda → step s = .next t →
    t.txlog = s.txlog ∨ ∃ (a c : Byte) (pl : List Byte), pl.length ≤ 6 ∧ t.txlog = s.txlog ++ Codec.encode a c pl

/-- R36: the parameters do not change while the engine runs. -/
def Obligations.ParametersNeverChange : Prop := ∀ s t : State, step s = .next t → t.cfg = s.cfg

/-- R33: no payload stands beside a failure, and the payload the host reads is at most 6 bytes. -/
def Obligations.NoPayloadBesideFailure : Prop :=
  ∀ (o : OpCode) (s : State), Inv s →
    (s.status.isFailure = true → s.done = true → hostResult o s = .fail s.status) ∧
    (∀ bs, hostResult o s = .okPayload bs → o = .requestReply ∧ s.status = .ok ∧ s.done = true ∧ s.phase = .idle ∧
      bs.length = s.rplen.toNat ∧ bs.length ≤ 6)
end

