-- ==== Sys2Proof/Laws/State.lean ====
section
/-! SUPPORT. One lemma per field per update: what each named update leaves in each field of the state. -/

namespace Sys2Proof.Machine

open Sys2Proof

section Fields
variable (s : State)

/-! ### chanWrite -/

@[simp] theorem chanWrite_opened (bs : List Byte) : (chanWrite bs s).opened = s.opened := rfl
@[simp] theorem chanWrite_addr (bs : List Byte) : (chanWrite bs s).addr = s.addr := rfl
@[simp] theorem chanWrite_phase (bs : List Byte) : (chanWrite bs s).phase = s.phase := rfl
@[simp] theorem chanWrite_op (bs : List Byte) : (chanWrite bs s).op = s.op := rfl
@[simp] theorem chanWrite_bcast (bs : List Byte) : (chanWrite bs s).bcast = s.bcast := rfl
@[simp] theorem chanWrite_cmd (bs : List Byte) : (chanWrite bs s).cmd = s.cmd := rfl
@[simp] theorem chanWrite_plen (bs : List Byte) : (chanWrite bs s).plen = s.plen := rfl
@[simp] theorem chanWrite_pay (bs : List Byte) : (chanWrite bs s).pay = s.pay := rfl
@[simp] theorem chanWrite_explen (bs : List Byte) : (chanWrite bs s).explen = s.explen := rfl
@[simp] theorem chanWrite_pollCnt (bs : List Byte) : (chanWrite bs s).pollCnt = s.pollCnt := rfl
@[simp] theorem chanWrite_need (bs : List Byte) : (chanWrite bs s).need = s.need := rfl
@[simp] theorem chanWrite_txbuf (bs : List Byte) : (chanWrite bs s).txbuf = s.txbuf := rfl
@[simp] theorem chanWrite_txlen (bs : List Byte) : (chanWrite bs s).txlen = s.txlen := rfl
@[simp] theorem chanWrite_rxbuf (bs : List Byte) : (chanWrite bs s).rxbuf = s.rxbuf := rfl
@[simp] theorem chanWrite_rxcnt (bs : List Byte) : (chanWrite bs s).rxcnt = s.rxcnt := rfl
@[simp] theorem chanWrite_done (bs : List Byte) : (chanWrite bs s).done = s.done := rfl
@[simp] theorem chanWrite_status (bs : List Byte) : (chanWrite bs s).status = s.status := rfl
@[simp] theorem chanWrite_rplen (bs : List Byte) : (chanWrite bs s).rplen = s.rplen := rfl
@[simp] theorem chanWrite_rpay (bs : List Byte) : (chanWrite bs s).rpay = s.rpay := rfl
@[simp] theorem chanWrite_rxq (bs : List Byte) : (chanWrite bs s).rxq = s.rxq := rfl
@[simp] theorem chanWrite_txlog (bs : List Byte) : (chanWrite bs s).txlog = s.txlog ++ bs := rfl
@[simp] theorem chanWrite_chanOk (bs : List Byte) : (chanWrite bs s).chanOk = s.chanOk := rfl
@[simp] theorem chanWrite_cfg (bs : List Byte) : (chanWrite bs s).cfg = s.cfg := rfl
@[simp] theorem chanWrite_agenda (bs : List Byte) : (chanWrite bs s).agenda = s.agenda := rfl
@[simp] theorem chanWrite_codecOut (bs : List Byte) : (chanWrite bs s).codecOut = s.codecOut := rfl
@[simp] theorem chanWrite_freeIx (bs : List Byte) : (chanWrite bs s).freeIx = s.freeIx := rfl

/-! ### chanFlush -/

@[simp] theorem chanFlush_opened : (chanFlush s).opened = s.opened := rfl
@[simp] theorem chanFlush_addr : (chanFlush s).addr = s.addr := rfl
@[simp] theorem chanFlush_phase : (chanFlush s).phase = s.phase := rfl
@[simp] theorem chanFlush_op : (chanFlush s).op = s.op := rfl
@[simp] theorem chanFlush_bcast : (chanFlush s).bcast = s.bcast := rfl
@[simp] theorem chanFlush_cmd : (chanFlush s).cmd = s.cmd := rfl
@[simp] theorem chanFlush_plen : (chanFlush s).plen = s.plen := rfl
@[simp] theorem chanFlush_pay : (chanFlush s).pay = s.pay := rfl
@[simp] theorem chanFlush_explen : (chanFlush s).explen = s.explen := rfl
@[simp] theorem chanFlush_pollCnt : (chanFlush s).pollCnt = s.pollCnt := rfl
@[simp] theorem chanFlush_need : (chanFlush s).need = s.need := rfl
@[simp] theorem chanFlush_txbuf : (chanFlush s).txbuf = s.txbuf := rfl
@[simp] theorem chanFlush_txlen : (chanFlush s).txlen = s.txlen := rfl
@[simp] theorem chanFlush_rxbuf : (chanFlush s).rxbuf = s.rxbuf := rfl
@[simp] theorem chanFlush_rxcnt : (chanFlush s).rxcnt = s.rxcnt := rfl
@[simp] theorem chanFlush_done : (chanFlush s).done = s.done := rfl
@[simp] theorem chanFlush_status : (chanFlush s).status = s.status := rfl
@[simp] theorem chanFlush_rplen : (chanFlush s).rplen = s.rplen := rfl
@[simp] theorem chanFlush_rpay : (chanFlush s).rpay = s.rpay := rfl
@[simp] theorem chanFlush_rxq : (chanFlush s).rxq = [] := rfl
@[simp] theorem chanFlush_txlog : (chanFlush s).txlog = s.txlog := rfl
@[simp] theorem chanFlush_chanOk : (chanFlush s).chanOk = s.chanOk := rfl
@[simp] theorem chanFlush_cfg : (chanFlush s).cfg = s.cfg := rfl
@[simp] theorem chanFlush_agenda : (chanFlush s).agenda = s.agenda := rfl
@[simp] theorem chanFlush_codecOut : (chanFlush s).codecOut = s.codecOut := rfl
@[simp] theorem chanFlush_freeIx : (chanFlush s).freeIx = s.freeIx := rfl

/-! ### deliver -/

@[simp] theorem deliver_opened (b : Byte) : (deliver b s).opened = s.opened := rfl
@[simp] theorem deliver_addr (b : Byte) : (deliver b s).addr = s.addr := rfl
@[simp] theorem deliver_phase (b : Byte) : (deliver b s).phase = s.phase := rfl
@[simp] theorem deliver_op (b : Byte) : (deliver b s).op = s.op := rfl
@[simp] theorem deliver_bcast (b : Byte) : (deliver b s).bcast = s.bcast := rfl
@[simp] theorem deliver_cmd (b : Byte) : (deliver b s).cmd = s.cmd := rfl
@[simp] theorem deliver_plen (b : Byte) : (deliver b s).plen = s.plen := rfl
@[simp] theorem deliver_pay (b : Byte) : (deliver b s).pay = s.pay := rfl
@[simp] theorem deliver_explen (b : Byte) : (deliver b s).explen = s.explen := rfl
@[simp] theorem deliver_pollCnt (b : Byte) : (deliver b s).pollCnt = s.pollCnt := rfl
@[simp] theorem deliver_need (b : Byte) : (deliver b s).need = s.need := rfl
@[simp] theorem deliver_txbuf (b : Byte) : (deliver b s).txbuf = s.txbuf := rfl
@[simp] theorem deliver_txlen (b : Byte) : (deliver b s).txlen = s.txlen := rfl
@[simp] theorem deliver_rxbuf (b : Byte) : (deliver b s).rxbuf = s.rxbuf := rfl
@[simp] theorem deliver_rxcnt (b : Byte) : (deliver b s).rxcnt = s.rxcnt := rfl
@[simp] theorem deliver_done (b : Byte) : (deliver b s).done = s.done := rfl
@[simp] theorem deliver_status (b : Byte) : (deliver b s).status = s.status := rfl
@[simp] theorem deliver_rplen (b : Byte) : (deliver b s).rplen = s.rplen := rfl
@[simp] theorem deliver_rpay (b : Byte) : (deliver b s).rpay = s.rpay := rfl
@[simp] theorem deliver_rxq (b : Byte) : (deliver b s).rxq = rxAppend s.cfg.rxfifoDepth s.rxq b := rfl
@[simp] theorem deliver_txlog (b : Byte) : (deliver b s).txlog = s.txlog := rfl
@[simp] theorem deliver_chanOk (b : Byte) : (deliver b s).chanOk = s.chanOk := rfl
@[simp] theorem deliver_cfg (b : Byte) : (deliver b s).cfg = s.cfg := rfl
@[simp] theorem deliver_agenda (b : Byte) : (deliver b s).agenda = s.agenda := rfl
@[simp] theorem deliver_codecOut (b : Byte) : (deliver b s).codecOut = s.codecOut := rfl
@[simp] theorem deliver_freeIx (b : Byte) : (deliver b s).freeIx = s.freeIx := rfl

/-! ### setCodecOut -/

@[simp] theorem setCodecOut_opened (o : CodecOut) : (setCodecOut o s).opened = s.opened := rfl
@[simp] theorem setCodecOut_addr (o : CodecOut) : (setCodecOut o s).addr = s.addr := rfl
@[simp] theorem setCodecOut_phase (o : CodecOut) : (setCodecOut o s).phase = s.phase := rfl
@[simp] theorem setCodecOut_op (o : CodecOut) : (setCodecOut o s).op = s.op := rfl
@[simp] theorem setCodecOut_bcast (o : CodecOut) : (setCodecOut o s).bcast = s.bcast := rfl
@[simp] theorem setCodecOut_cmd (o : CodecOut) : (setCodecOut o s).cmd = s.cmd := rfl
@[simp] theorem setCodecOut_plen (o : CodecOut) : (setCodecOut o s).plen = s.plen := rfl
@[simp] theorem setCodecOut_pay (o : CodecOut) : (setCodecOut o s).pay = s.pay := rfl
@[simp] theorem setCodecOut_explen (o : CodecOut) : (setCodecOut o s).explen = s.explen := rfl
@[simp] theorem setCodecOut_pollCnt (o : CodecOut) : (setCodecOut o s).pollCnt = s.pollCnt := rfl
@[simp] theorem setCodecOut_need (o : CodecOut) : (setCodecOut o s).need = s.need := rfl
@[simp] theorem setCodecOut_txbuf (o : CodecOut) : (setCodecOut o s).txbuf = s.txbuf := rfl
@[simp] theorem setCodecOut_txlen (o : CodecOut) : (setCodecOut o s).txlen = s.txlen := rfl
@[simp] theorem setCodecOut_rxbuf (o : CodecOut) : (setCodecOut o s).rxbuf = s.rxbuf := rfl
@[simp] theorem setCodecOut_rxcnt (o : CodecOut) : (setCodecOut o s).rxcnt = s.rxcnt := rfl
@[simp] theorem setCodecOut_done (o : CodecOut) : (setCodecOut o s).done = s.done := rfl
@[simp] theorem setCodecOut_status (o : CodecOut) : (setCodecOut o s).status = s.status := rfl
@[simp] theorem setCodecOut_rplen (o : CodecOut) : (setCodecOut o s).rplen = s.rplen := rfl
@[simp] theorem setCodecOut_rpay (o : CodecOut) : (setCodecOut o s).rpay = s.rpay := rfl
@[simp] theorem setCodecOut_rxq (o : CodecOut) : (setCodecOut o s).rxq = s.rxq := rfl
@[simp] theorem setCodecOut_txlog (o : CodecOut) : (setCodecOut o s).txlog = s.txlog := rfl
@[simp] theorem setCodecOut_chanOk (o : CodecOut) : (setCodecOut o s).chanOk = s.chanOk := rfl
@[simp] theorem setCodecOut_cfg (o : CodecOut) : (setCodecOut o s).cfg = s.cfg := rfl
@[simp] theorem setCodecOut_agenda (o : CodecOut) : (setCodecOut o s).agenda = s.agenda := rfl
@[simp] theorem setCodecOut_codecOut (o : CodecOut) : (setCodecOut o s).codecOut = o := rfl
@[simp] theorem setCodecOut_freeIx (o : CodecOut) : (setCodecOut o s).freeIx = s.freeIx := rfl

/-! ### countMiss -/

@[simp] theorem countMiss_opened : (countMiss s).opened = s.opened := rfl
@[simp] theorem countMiss_addr : (countMiss s).addr = s.addr := rfl
@[simp] theorem countMiss_phase : (countMiss s).phase = s.phase := rfl
@[simp] theorem countMiss_op : (countMiss s).op = s.op := rfl
@[simp] theorem countMiss_bcast : (countMiss s).bcast = s.bcast := rfl
@[simp] theorem countMiss_cmd : (countMiss s).cmd = s.cmd := rfl
@[simp] theorem countMiss_plen : (countMiss s).plen = s.plen := rfl
@[simp] theorem countMiss_pay : (countMiss s).pay = s.pay := rfl
@[simp] theorem countMiss_explen : (countMiss s).explen = s.explen := rfl
@[simp] theorem countMiss_pollCnt : (countMiss s).pollCnt = s.pollCnt + 1 := rfl
@[simp] theorem countMiss_need : (countMiss s).need = s.need := rfl
@[simp] theorem countMiss_txbuf : (countMiss s).txbuf = s.txbuf := rfl
@[simp] theorem countMiss_txlen : (countMiss s).txlen = s.txlen := rfl
@[simp] theorem countMiss_rxbuf : (countMiss s).rxbuf = s.rxbuf := rfl
@[simp] theorem countMiss_rxcnt : (countMiss s).rxcnt = s.rxcnt := rfl
@[simp] theorem countMiss_done : (countMiss s).done = s.done := rfl
@[simp] theorem countMiss_status : (countMiss s).status = s.status := rfl
@[simp] theorem countMiss_rplen : (countMiss s).rplen = s.rplen := rfl
@[simp] theorem countMiss_rpay : (countMiss s).rpay = s.rpay := rfl
@[simp] theorem countMiss_rxq : (countMiss s).rxq = s.rxq := rfl
@[simp] theorem countMiss_txlog : (countMiss s).txlog = s.txlog := rfl
@[simp] theorem countMiss_chanOk : (countMiss s).chanOk = s.chanOk := rfl
@[simp] theorem countMiss_cfg : (countMiss s).cfg = s.cfg := rfl
@[simp] theorem countMiss_agenda : (countMiss s).agenda = s.agenda := rfl
@[simp] theorem countMiss_codecOut : (countMiss s).codecOut = s.codecOut := rfl
@[simp] theorem countMiss_freeIx : (countMiss s).freeIx = s.freeIx := rfl

/-! ### raise -/

@[simp] theorem raise_opened (f : Status) : (raise f s).opened = s.opened := rfl
@[simp] theorem raise_addr (f : Status) : (raise f s).addr = s.addr := rfl
@[simp] theorem raise_phase (f : Status) : (raise f s).phase = .validated := rfl
@[simp] theorem raise_op (f : Status) : (raise f s).op = s.op := rfl
@[simp] theorem raise_bcast (f : Status) : (raise f s).bcast = s.bcast := rfl
@[simp] theorem raise_cmd (f : Status) : (raise f s).cmd = s.cmd := rfl
@[simp] theorem raise_plen (f : Status) : (raise f s).plen = s.plen := rfl
@[simp] theorem raise_pay (f : Status) : (raise f s).pay = s.pay := rfl
@[simp] theorem raise_explen (f : Status) : (raise f s).explen = s.explen := rfl
@[simp] theorem raise_pollCnt (f : Status) : (raise f s).pollCnt = s.pollCnt := rfl
@[simp] theorem raise_need (f : Status) : (raise f s).need = s.need := rfl
@[simp] theorem raise_txbuf (f : Status) : (raise f s).txbuf = s.txbuf := rfl
@[simp] theorem raise_txlen (f : Status) : (raise f s).txlen = s.txlen := rfl
@[simp] theorem raise_rxbuf (f : Status) : (raise f s).rxbuf = s.rxbuf := rfl
@[simp] theorem raise_rxcnt (f : Status) : (raise f s).rxcnt = s.rxcnt := rfl
@[simp] theorem raise_done (f : Status) : (raise f s).done = s.done := rfl
@[simp] theorem raise_status (f : Status) : (raise f s).status = f := rfl
@[simp] theorem raise_rplen (f : Status) : (raise f s).rplen = s.rplen := rfl
@[simp] theorem raise_rpay (f : Status) : (raise f s).rpay = s.rpay := rfl
@[simp] theorem raise_rxq (f : Status) : (raise f s).rxq = s.rxq := rfl
@[simp] theorem raise_txlog (f : Status) : (raise f s).txlog = s.txlog := rfl
@[simp] theorem raise_chanOk (f : Status) : (raise f s).chanOk = s.chanOk := rfl
@[simp] theorem raise_cfg (f : Status) : (raise f s).cfg = s.cfg := rfl
@[simp] theorem raise_agenda (f : Status) : (raise f s).agenda = s.agenda := rfl
@[simp] theorem raise_codecOut (f : Status) : (raise f s).codecOut = s.codecOut := rfl
@[simp] theorem raise_freeIx (f : Status) : (raise f s).freeIx = s.freeIx := rfl

/-! ### retire -/

@[simp] theorem retire_opened : (retire s).opened = s.opened := rfl
@[simp] theorem retire_addr : (retire s).addr = s.addr := rfl
@[simp] theorem retire_phase : (retire s).phase = .idle := rfl
@[simp] theorem retire_op : (retire s).op = s.op := rfl
@[simp] theorem retire_bcast : (retire s).bcast = s.bcast := rfl
@[simp] theorem retire_cmd : (retire s).cmd = s.cmd := rfl
@[simp] theorem retire_plen : (retire s).plen = s.plen := rfl
@[simp] theorem retire_pay : (retire s).pay = s.pay := rfl
@[simp] theorem retire_explen : (retire s).explen = s.explen := rfl
@[simp] theorem retire_pollCnt : (retire s).pollCnt = s.pollCnt := rfl
@[simp] theorem retire_need : (retire s).need = s.need := rfl
@[simp] theorem retire_txbuf : (retire s).txbuf = s.txbuf := rfl
@[simp] theorem retire_txlen : (retire s).txlen = s.txlen := rfl
@[simp] theorem retire_rxbuf : (retire s).rxbuf = s.rxbuf := rfl
@[simp] theorem retire_rxcnt : (retire s).rxcnt = s.rxcnt := rfl
@[simp] theorem retire_done : (retire s).done = true := rfl
@[simp] theorem retire_status : (retire s).status = s.status := rfl
@[simp] theorem retire_rplen : (retire s).rplen = s.rplen := rfl
@[simp] theorem retire_rpay : (retire s).rpay = s.rpay := rfl
@[simp] theorem retire_rxq : (retire s).rxq = s.rxq := rfl
@[simp] theorem retire_txlog : (retire s).txlog = s.txlog := rfl
@[simp] theorem retire_chanOk : (retire s).chanOk = s.chanOk := rfl
@[simp] theorem retire_cfg : (retire s).cfg = s.cfg := rfl
@[simp] theorem retire_agenda : (retire s).agenda = s.agenda := rfl
@[simp] theorem retire_codecOut : (retire s).codecOut = s.codecOut := rfl
@[simp] theorem retire_freeIx : (retire s).freeIx = s.freeIx := rfl

/-! ### latch -/

@[simp] theorem latch_opened (o : OpCode) (d : Args) : (latch o d s).opened = s.opened := rfl
@[simp] theorem latch_addr (o : OpCode) (d : Args) : (latch o d s).addr = s.addr := rfl
@[simp] theorem latch_phase (o : OpCode) (d : Args) : (latch o d s).phase = s.phase := rfl
@[simp] theorem latch_op (o : OpCode) (d : Args) : (latch o d s).op = o := rfl
@[simp] theorem latch_bcast (o : OpCode) (d : Args) : (latch o d s).bcast = d.bcast := rfl
@[simp] theorem latch_cmd (o : OpCode) (d : Args) : (latch o d s).cmd = d.cmd := rfl
@[simp] theorem latch_plen (o : OpCode) (d : Args) : (latch o d s).plen = d.plen := rfl
@[simp] theorem latch_pay (o : OpCode) (d : Args) : (latch o d s).pay = d.pay := rfl
@[simp] theorem latch_explen (o : OpCode) (d : Args) : (latch o d s).explen = d.explen := rfl
@[simp] theorem latch_pollCnt (o : OpCode) (d : Args) : (latch o d s).pollCnt = s.pollCnt := rfl
@[simp] theorem latch_need (o : OpCode) (d : Args) : (latch o d s).need = s.need := rfl
@[simp] theorem latch_txbuf (o : OpCode) (d : Args) : (latch o d s).txbuf = s.txbuf := rfl
@[simp] theorem latch_txlen (o : OpCode) (d : Args) : (latch o d s).txlen = s.txlen := rfl
@[simp] theorem latch_rxbuf (o : OpCode) (d : Args) : (latch o d s).rxbuf = s.rxbuf := rfl
@[simp] theorem latch_rxcnt (o : OpCode) (d : Args) : (latch o d s).rxcnt = s.rxcnt := rfl
@[simp] theorem latch_done (o : OpCode) (d : Args) : (latch o d s).done = false := rfl
@[simp] theorem latch_status (o : OpCode) (d : Args) : (latch o d s).status = .none := rfl
@[simp] theorem latch_rplen (o : OpCode) (d : Args) : (latch o d s).rplen = s.rplen := rfl
@[simp] theorem latch_rpay (o : OpCode) (d : Args) : (latch o d s).rpay = s.rpay := rfl
@[simp] theorem latch_rxq (o : OpCode) (d : Args) : (latch o d s).rxq = s.rxq := rfl
@[simp] theorem latch_txlog (o : OpCode) (d : Args) : (latch o d s).txlog = s.txlog := rfl
@[simp] theorem latch_chanOk (o : OpCode) (d : Args) : (latch o d s).chanOk = s.chanOk := rfl
@[simp] theorem latch_cfg (o : OpCode) (d : Args) : (latch o d s).cfg = s.cfg := rfl
@[simp] theorem latch_agenda (o : OpCode) (d : Args) : (latch o d s).agenda = s.agenda := rfl
@[simp] theorem latch_codecOut (o : OpCode) (d : Args) : (latch o d s).codecOut = s.codecOut := rfl
@[simp] theorem latch_freeIx (o : OpCode) (d : Args) : (latch o d s).freeIx = s.freeIx := rfl

/-! ### startRequest -/

@[simp] theorem startRequest_opened (d : Args) : (startRequest d s).opened = s.opened := rfl
@[simp] theorem startRequest_addr (d : Args) : (startRequest d s).addr = s.addr := rfl
@[simp] theorem startRequest_phase (d : Args) : (startRequest d s).phase = .flushed := rfl
@[simp] theorem startRequest_op (d : Args) : (startRequest d s).op = .requestReply := rfl
@[simp] theorem startRequest_bcast (d : Args) : (startRequest d s).bcast = d.bcast := rfl
@[simp] theorem startRequest_cmd (d : Args) : (startRequest d s).cmd = d.cmd := rfl
@[simp] theorem startRequest_plen (d : Args) : (startRequest d s).plen = d.plen := rfl
@[simp] theorem startRequest_pay (d : Args) : (startRequest d s).pay = d.pay := rfl
@[simp] theorem startRequest_explen (d : Args) : (startRequest d s).explen = d.explen := rfl
@[simp] theorem startRequest_pollCnt (d : Args) : (startRequest d s).pollCnt = s.pollCnt := rfl
@[simp] theorem startRequest_need (d : Args) : (startRequest d s).need = s.need := rfl
@[simp] theorem startRequest_txbuf (d : Args) : (startRequest d s).txbuf = s.txbuf := rfl
@[simp] theorem startRequest_txlen (d : Args) : (startRequest d s).txlen = s.txlen := rfl
@[simp] theorem startRequest_rxbuf (d : Args) : (startRequest d s).rxbuf = s.rxbuf := rfl
@[simp] theorem startRequest_rxcnt (d : Args) : (startRequest d s).rxcnt = 0 := rfl
@[simp] theorem startRequest_done (d : Args) : (startRequest d s).done = false := rfl
@[simp] theorem startRequest_status (d : Args) : (startRequest d s).status = .none := rfl
@[simp] theorem startRequest_rplen (d : Args) : (startRequest d s).rplen = s.rplen := rfl
@[simp] theorem startRequest_rpay (d : Args) : (startRequest d s).rpay = s.rpay := rfl
@[simp] theorem startRequest_rxq (d : Args) : (startRequest d s).rxq = [] := rfl
@[simp] theorem startRequest_txlog (d : Args) : (startRequest d s).txlog = s.txlog := rfl
@[simp] theorem startRequest_chanOk (d : Args) : (startRequest d s).chanOk = s.chanOk := rfl
@[simp] theorem startRequest_cfg (d : Args) : (startRequest d s).cfg = s.cfg := rfl
@[simp] theorem startRequest_agenda (d : Args) : (startRequest d s).agenda = s.agenda := rfl
@[simp] theorem startRequest_codecOut (d : Args) : (startRequest d s).codecOut = s.codecOut := rfl
@[simp] theorem startRequest_freeIx (d : Args) : (startRequest d s).freeIx = s.freeIx := rfl

/-! ### closeSession -/

@[simp] theorem closeSession_opened : (closeSession s).opened = false := rfl
@[simp] theorem closeSession_addr : (closeSession s).addr = s.addr := rfl
@[simp] theorem closeSession_phase : (closeSession s).phase = s.phase := rfl
@[simp] theorem closeSession_op : (closeSession s).op = s.op := rfl
@[simp] theorem closeSession_bcast : (closeSession s).bcast = s.bcast := rfl
@[simp] theorem closeSession_cmd : (closeSession s).cmd = s.cmd := rfl
@[simp] theorem closeSession_plen : (closeSession s).plen = s.plen := rfl
@[simp] theorem closeSession_pay : (closeSession s).pay = s.pay := rfl
@[simp] theorem closeSession_explen : (closeSession s).explen = s.explen := rfl
@[simp] theorem closeSession_pollCnt : (closeSession s).pollCnt = s.pollCnt := rfl
@[simp] theorem closeSession_need : (closeSession s).need = s.need := rfl
@[simp] theorem closeSession_txbuf : (closeSession s).txbuf = s.txbuf := rfl
@[simp] theorem closeSession_txlen : (closeSession s).txlen = s.txlen := rfl
@[simp] theorem closeSession_rxbuf : (closeSession s).rxbuf = s.rxbuf := rfl
@[simp] theorem closeSession_rxcnt : (closeSession s).rxcnt = s.rxcnt := rfl
@[simp] theorem closeSession_done : (closeSession s).done = true := rfl
@[simp] theorem closeSession_status : (closeSession s).status = .ok := rfl
@[simp] theorem closeSession_rplen : (closeSession s).rplen = s.rplen := rfl
@[simp] theorem closeSession_rpay : (closeSession s).rpay = s.rpay := rfl
@[simp] theorem closeSession_rxq : (closeSession s).rxq = s.rxq := rfl
@[simp] theorem closeSession_txlog : (closeSession s).txlog = s.txlog := rfl
@[simp] theorem closeSession_chanOk : (closeSession s).chanOk = s.chanOk := rfl
@[simp] theorem closeSession_cfg : (closeSession s).cfg = s.cfg := rfl
@[simp] theorem closeSession_agenda : (closeSession s).agenda = s.agenda := rfl
@[simp] theorem closeSession_codecOut : (closeSession s).codecOut = s.codecOut := rfl
@[simp] theorem closeSession_freeIx : (closeSession s).freeIx = s.freeIx := rfl

/-! ### sendFrame -/

@[simp] theorem sendFrame_opened (fr : List Byte) (n : BitVec 4) : (sendFrame fr n s).opened = s.opened := rfl
@[simp] theorem sendFrame_addr (fr : List Byte) (n : BitVec 4) : (sendFrame fr n s).addr = s.addr := rfl
@[simp] theorem sendFrame_phase (fr : List Byte) (n : BitVec 4) : (sendFrame fr n s).phase = s.phase := rfl
@[simp] theorem sendFrame_op (fr : List Byte) (n : BitVec 4) : (sendFrame fr n s).op = s.op := rfl
@[simp] theorem sendFrame_bcast (fr : List Byte) (n : BitVec 4) : (sendFrame fr n s).bcast = s.bcast := rfl
@[simp] theorem sendFrame_cmd (fr : List Byte) (n : BitVec 4) : (sendFrame fr n s).cmd = s.cmd := rfl
@[simp] theorem sendFrame_plen (fr : List Byte) (n : BitVec 4) : (sendFrame fr n s).plen = s.plen := rfl
@[simp] theorem sendFrame_pay (fr : List Byte) (n : BitVec 4) : (sendFrame fr n s).pay = s.pay := rfl
@[simp] theorem sendFrame_explen (fr : List Byte) (n : BitVec 4) : (sendFrame fr n s).explen = s.explen := rfl
@[simp] theorem sendFrame_pollCnt (fr : List Byte) (n : BitVec 4) : (sendFrame fr n s).pollCnt = s.pollCnt := rfl
@[simp] theorem sendFrame_need (fr : List Byte) (n : BitVec 4) : (sendFrame fr n s).need = s.need := rfl
@[simp] theorem sendFrame_txbuf (fr : List Byte) (n : BitVec 4) : (sendFrame fr n s).txbuf = Memory.writeBlock s.txbuf 0 fr := rfl
@[simp] theorem sendFrame_txlen (fr : List Byte) (n : BitVec 4) : (sendFrame fr n s).txlen = n := rfl
@[simp] theorem sendFrame_rxbuf (fr : List Byte) (n : BitVec 4) : (sendFrame fr n s).rxbuf = s.rxbuf := rfl
@[simp] theorem sendFrame_rxcnt (fr : List Byte) (n : BitVec 4) : (sendFrame fr n s).rxcnt = s.rxcnt := rfl
@[simp] theorem sendFrame_done (fr : List Byte) (n : BitVec 4) : (sendFrame fr n s).done = s.done := rfl
@[simp] theorem sendFrame_status (fr : List Byte) (n : BitVec 4) : (sendFrame fr n s).status = s.status := rfl
@[simp] theorem sendFrame_rplen (fr : List Byte) (n : BitVec 4) : (sendFrame fr n s).rplen = s.rplen := rfl
@[simp] theorem sendFrame_rpay (fr : List Byte) (n : BitVec 4) : (sendFrame fr n s).rpay = s.rpay := rfl
@[simp] theorem sendFrame_rxq (fr : List Byte) (n : BitVec 4) : (sendFrame fr n s).rxq = s.rxq := rfl
@[simp] theorem sendFrame_txlog (fr : List Byte) (n : BitVec 4) : (sendFrame fr n s).txlog = s.txlog ++ Memory.readBlock (Memory.writeBlock s.txbuf 0 fr) 0 n.toNat := rfl
@[simp] theorem sendFrame_chanOk (fr : List Byte) (n : BitVec 4) : (sendFrame fr n s).chanOk = s.chanOk := rfl
@[simp] theorem sendFrame_cfg (fr : List Byte) (n : BitVec 4) : (sendFrame fr n s).cfg = s.cfg := rfl
@[simp] theorem sendFrame_agenda (fr : List Byte) (n : BitVec 4) : (sendFrame fr n s).agenda = s.agenda := rfl
@[simp] theorem sendFrame_codecOut (fr : List Byte) (n : BitVec 4) : (sendFrame fr n s).codecOut = s.codecOut := rfl
@[simp] theorem sendFrame_freeIx (fr : List Byte) (n : BitVec 4) : (sendFrame fr n s).freeIx = s.freeIx := rfl

/-! ### applyReset -/

@[simp] theorem applyReset_opened : (applyReset s).opened = false := rfl
@[simp] theorem applyReset_addr : (applyReset s).addr = 0 := rfl
@[simp] theorem applyReset_phase : (applyReset s).phase = .idle := rfl
@[simp] theorem applyReset_op : (applyReset s).op = .bind := rfl
@[simp] theorem applyReset_bcast : (applyReset s).bcast = false := rfl
@[simp] theorem applyReset_cmd : (applyReset s).cmd = 0 := rfl
@[simp] theorem applyReset_plen : (applyReset s).plen = 0 := rfl
@[simp] theorem applyReset_pay : (applyReset s).pay = ⟨0, 0, 0, 0, 0, 0⟩ := rfl
@[simp] theorem applyReset_explen : (applyReset s).explen = 0 := rfl
@[simp] theorem applyReset_pollCnt : (applyReset s).pollCnt = 0 := rfl
@[simp] theorem applyReset_need : (applyReset s).need = 0 := rfl
@[simp] theorem applyReset_txbuf : (applyReset s).txbuf = [] := rfl
@[simp] theorem applyReset_txlen : (applyReset s).txlen = 0 := rfl
@[simp] theorem applyReset_rxbuf : (applyReset s).rxbuf = [] := rfl
@[simp] theorem applyReset_rxcnt : (applyReset s).rxcnt = 0 := rfl
@[simp] theorem applyReset_done : (applyReset s).done = false := rfl
@[simp] theorem applyReset_status : (applyReset s).status = .none := rfl
@[simp] theorem applyReset_rplen : (applyReset s).rplen = 0 := rfl
@[simp] theorem applyReset_rpay : (applyReset s).rpay = ⟨0, 0, 0, 0, 0, 0⟩ := rfl
@[simp] theorem applyReset_rxq : (applyReset s).rxq = clipToDepth s.cfg.rxfifoDepth (Config.rxqAfterReset s.freeIx) := rfl
@[simp] theorem applyReset_txlog : (applyReset s).txlog = [] := rfl
@[simp] theorem applyReset_chanOk : (applyReset s).chanOk = s.chanOk := rfl
@[simp] theorem applyReset_cfg : (applyReset s).cfg = s.cfg := rfl
@[simp] theorem applyReset_agenda : (applyReset s).agenda = s.agenda := rfl
@[simp] theorem applyReset_codecOut : (applyReset s).codecOut = .nothing := rfl
@[simp] theorem applyReset_freeIx : (applyReset s).freeIx = s.freeIx + 1 := rfl

end Fields

end Sys2Proof.Machine
end

