-- ==== Sys2Proof/Laws/Channel.lean ====
section
/-! SUPPORT. The laws of the channel primitives. -/

namespace Sys2Proof.Machine

open Sys2Proof

/-- ChanRead(n) with enough bytes available: the n oldest bytes, the rest stays. -/
theorem chanReadN_enough {n : Nat} {s : State} (h : n ≤ s.rxq.length) :
    chanReadN n s = some (s.rxq.take n, { s with rxq := s.rxq.drop n }) := by
  induction n generalizing s with
  | zero => rfl
  | succ n ih =>
    cases hq : s.rxq with
    | nil => simp [hq] at h
    | cons b rest =>
      have hr : n ≤ ({ s with rxq := rest } : State).rxq.length := by
        simpa [hq] using h
      simp only [chanReadN, chanRead, hq, ih hr, List.take_succ_cons, List.drop_succ_cons]

/-- ChanRead(n) with too few bytes has no result. -/
theorem chanReadN_short {n : Nat} {s : State} (h : s.rxq.length < n) : chanReadN n s = none := by
  induction n generalizing s with
  | zero => simp at h
  | succ n ih =>
    cases hq : s.rxq with
    | nil => simp [chanReadN, chanRead, hq]
    | cons b rest =>
      have hr : ({ s with rxq := rest } : State).rxq.length < n := by
        simpa [hq] using h
      simp only [chanReadN, chanRead, hq, ih hr]

/-- The queue after a sequence of arrivals. -/
def rxAppendAll (depth : Option Nat) (q bs : List Byte) : List Byte := bs.foldl (rxAppend depth) q

theorem deliverAll_eq (bs : List Byte) (s : State) :
    deliverAll bs s = { s with rxq := rxAppendAll s.cfg.rxfifoDepth s.rxq bs } := by
  induction bs generalizing s with
  | nil => rfl
  | cons b bs ih =>
    have hstep : deliverAll (b :: bs) s = deliverAll bs (deliver b s) := rfl
    rw [hstep, ih]
    rfl

@[simp] theorem rxAppendAll_none (q bs : List Byte) : rxAppendAll none q bs = q ++ bs := by
  induction bs generalizing q with
  | nil => simp [rxAppendAll]
  | cons b bs ih =>
    have : rxAppendAll none q (b :: bs) = rxAppendAll none (q ++ [b]) bs := rfl
    rw [this, ih, List.append_assoc, List.singleton_append]

/-- At a bounded queue the bytes that still fit are kept, in order. -/
theorem rxAppendAll_some (d : Nat) (q bs : List Byte) : rxAppendAll (some d) q bs = q ++ bs.take (d - q.length) := by
  induction bs generalizing q with
  | nil => simp [rxAppendAll]
  | cons b bs ih =>
    have : rxAppendAll (some d) q (b :: bs) = rxAppendAll (some d) (rxAppend (some d) q b) bs := rfl
    rw [this, ih]
    by_cases hlt : q.length < d
    · have hd : d - q.length = (d - (q.length + 1)) + 1 := by omega
      simp only [rxAppend, hlt, if_true, List.length_append, List.length_singleton]
      rw [hd, List.take_succ_cons]
      simp
    · have hd : d - q.length = 0 := by omega
      simp [rxAppend, hlt, hd]

theorem rxAppend_isPrefix (depth : Option Nat) (q : List Byte) (b : Byte) : q <+: rxAppend depth q b := by
  cases depth with
  | none => exact List.prefix_append _ _
  | some d =>
    simp only [rxAppend]
    split
    · exact List.prefix_append _ _
    · exact List.prefix_refl _

theorem rxAppendAll_isPrefix (depth : Option Nat) (q bs : List Byte) : q <+: rxAppendAll depth q bs := by
  cases depth with
  | none => simp
  | some d => rw [rxAppendAll_some]; exact List.prefix_append _ _

theorem rxAppendAll_length_le {d : Nat} {q : List Byte} (h : q.length ≤ d) (bs : List Byte) :
    (rxAppendAll (some d) q bs).length ≤ d := by
  rw [rxAppendAll_some, List.length_append, List.length_take]
  omega

theorem rxAppend_length_le {d : Nat} {q : List Byte} (h : q.length ≤ d) (b : Byte) : (rxAppend (some d) q b).length ≤ d :=
  rxAppendAll_length_le h [b]

theorem clipToDepth_length_le (d : Nat) (q : List Byte) : (clipToDepth (some d) q).length ≤ d := by
  simp only [clipToDepth, List.length_take]
  omega

end Sys2Proof.Machine
end

