-- ==== Sys2Proof/Laws/Codec.lean ====
section
/-! SUPPORT. The laws of the codec's functions: sizes, places, sums, little-endian values. -/

namespace Sys2Proof.Machine.Codec

open Sys2Proof

@[simp] theorem sixToList_length (p : Six) : (sixToList p).length = 6 := rfl

@[simp] theorem covered_length (a c : Byte) (pl : List Byte) : (covered a c pl).length = 3 + pl.length := by
  simp [covered]; omega

@[simp] theorem encode_length (a c : Byte) (pl : List Byte) : (encode a c pl).length = 6 + pl.length := by
  simp [encode]; omega

theorem lengthByte_toNat {p : Nat} (h : p ≤ 6) : (lengthByte p).toNat = p + 3 := by
  simp only [lengthByte, Config.lenOverhead, BitVec.toNat_ofNat]
  omega

/-- The bytes of a frame one by one (R80). -/
theorem encode_eq_cons (a c : Byte) (pl : List Byte) :
    encode a c pl = Config.hdr :: Config.hdr :: a :: lengthByte pl.length :: c :: (pl ++ [checksum (covered a c pl)]) := by
  simp [encode, covered]

/-- The sum of the bytes of a sequence, as a natural number (R11). -/
def sumNat (bs : List Byte) : Nat := (bs.map BitVec.toNat).sum

@[simp] theorem sumNat_nil : sumNat [] = 0 := rfl
@[simp] theorem sumNat_cons (b : Byte) (bs : List Byte) : sumNat (b :: bs) = b.toNat + sumNat bs := by simp [sumNat]
@[simp] theorem sumNat_append (as bs : List Byte) : sumNat (as ++ bs) = sumNat as + sumNat bs := by simp [sumNat]

theorem sum16_toNat (bs : List Byte) : (sum16 bs).toNat = sumNat bs % 65536 := by
  induction bs with
  | nil => rfl
  | cons b bs ih =>
    have hb := b.isLt
    simp only [sum16, BitVec.toNat_add, ih, sumNat_cons, BitVec.toNat_setWidth]
    omega

/-- The last byte decides: two sequences have equal checksums when their sums agree modulo 256, and only then. -/
theorem checksum_eq_iff (as bs : List Byte) : checksum as = checksum bs ↔ sumNat as % 256 = sumNat bs % 256 := by
  have key : ∀ cs : List Byte, (checksum cs).toNat = (65535 - sumNat cs % 65536) % 256 := by
    intro cs
    simp only [checksum, BitVec.extractLsb'_toNat, BitVec.toNat_not, sum16_toNat]
    simp
  rw [← BitVec.toNat_inj, key, key]
  omega

@[simp] theorem leBytes_length (n v : Nat) : (leBytes n v).length = n := by
  induction n generalizing v with
  | zero => rfl
  | succ n ih => simp [leBytes, ih]

@[simp] theorem le16_length (v : U16) : (le16 v).length = 2 := by simp [le16]

end Sys2Proof.Machine.Codec
end

