-- ==== Sys2Proof/Laws/Memory.lean ====
section
/-! SUPPORT. The laws of the frame buffers: read after write, blocks, the canonical form. -/

namespace Sys2Proof.Machine.Memory

open Sys2Proof

theorem read_below_wfFrom {lo : Nat} {m : Memory} (h : wfFrom lo m = true) {a : Nat} (ha : a < lo) :
    m.read a = unlisted := by
  induction m generalizing lo with
  | nil => rfl
  | cons c rest ih =>
    obtain ⟨k, v⟩ := c
    simp only [wfFrom, Bool.and_eq_true, decide_eq_true_eq] at h
    have hk : k ≠ a := by omega
    simp only [read, hk, if_false]
    exact ih h.2 (by omega)

theorem wfFrom_mono {lo hi : Nat} {m : Memory} (h : wfFrom hi m = true) (hle : lo ≤ hi) : wfFrom lo m = true := by
  cases m with
  | nil => rfl
  | cons c rest =>
    obtain ⟨k, v⟩ := c
    simp only [wfFrom, Bool.and_eq_true, decide_eq_true_eq] at h ⊢
    exact ⟨⟨by omega, h.1.2⟩, h.2⟩

/-- A read after a write to the same offset gives the byte written. -/
theorem read_write_same {lo : Nat} {m : Memory} (h : wfFrom lo m = true) (a : Nat) (b : Byte) :
    (m.write a b).read a = b := by
  induction m generalizing lo with
  | nil =>
    by_cases hb : b = unlisted
    · simp [write, read, hb]
    · simp [write, read, hb]
  | cons c rest ih =>
    obtain ⟨k, v⟩ := c
    simp only [wfFrom, Bool.and_eq_true, decide_eq_true_eq] at h
    simp only [write]
    split
    · rename_i hlt
      split
      · rename_i hb
        have hk : k ≠ a := by omega
        simp only [read, hk, if_false]
        rw [read_below_wfFrom h.2 (by omega), hb]
      · simp [read]
    · split
      · rename_i heq
        split
        · rename_i hb
          rw [read_below_wfFrom h.2 (by omega), hb]
        · simp [read]
      · rename_i hne
        have hk : k ≠ a := fun e => hne e.symm
        simp only [read, hk, if_false]
        exact ih h.2

/-- A write leaves every other offset alone. -/
theorem read_write_other {m : Memory} {a x : Nat} (hx : x ≠ a) (b : Byte) : (m.write a b).read x = m.read x := by
  have hax : a ≠ x := fun e => hx e.symm
  induction m with
  | nil => by_cases hb : b = unlisted <;> simp [write, read, hb, hax]
  | cons c rest ih =>
    obtain ⟨k, v⟩ := c
    simp only [write]
    split
    · split <;> simp [read, hax]
    · split
      · rename_i heq
        subst heq
        split <;> simp [read, hax]
      · simp only [read, ih]

theorem write_wfFrom {lo : Nat} {m : Memory} (h : wfFrom lo m = true) {a : Nat} (ha : lo ≤ a) (b : Byte) :
    wfFrom lo (m.write a b) = true := by
  induction m generalizing lo with
  | nil =>
    by_cases hb : b = unlisted
    · simp [write, hb, wfFrom]
    · simp [write, hb, wfFrom, ha]
  | cons c rest ih =>
    obtain ⟨k, v⟩ := c
    simp only [wfFrom, Bool.and_eq_true, decide_eq_true_eq] at h
    obtain ⟨⟨hk, hv⟩, hr⟩ := h
    simp only [write]
    split
    · rename_i hlt
      split
      · simp [wfFrom, hk, hv, hr]
      · rename_i hb
        have : a + 1 ≤ k := hlt
        simp [wfFrom, ha, hb, hv, hr, this]
    · split
      · rename_i heq
        subst heq
        split
        · exact wfFrom_mono hr (by omega)
        · rename_i hb
          simp [wfFrom, ha, hb, hr]
      · have := ih hr (by omega : k + 1 ≤ a)
        simp [wfFrom, hk, hv, this]

/-- A write keeps the canonical form. -/
theorem write_wf {m : Memory} (h : m.wf = true) (a : Nat) (b : Byte) : (m.write a b).wf = true :=
  write_wfFrom h (Nat.zero_le a) b

theorem read_write_same_wf {m : Memory} (h : m.wf = true) (a : Nat) (b : Byte) : (m.write a b).read a = b :=
  read_write_same h a b

/-- A write below the buffer's size lists no offset beyond it. -/
theorem write_within {cap : Nat} {m : Memory} (h : m.within cap = true) {a : Nat} (ha : a < cap) (b : Byte) :
    (m.write a b).within cap = true := by
  induction m with
  | nil =>
    by_cases hb : b = unlisted
    · simp [write, hb, within]
    · simp [write, hb, within, ha]
  | cons c rest ih =>
    obtain ⟨k, v⟩ := c
    simp only [within, List.all_cons, Bool.and_eq_true, decide_eq_true_eq] at h
    obtain ⟨hk, hr⟩ := h
    have ih' := ih hr
    simp only [within] at ih'
    simp only [write]
    split
    · split <;> simp [within, hk, ha, hr]
    · split
      · split <;> simp [within, ha, hr]
      · simp [within, hk, ih']

theorem writeBlock_wf {m : Memory} (h : m.wf = true) (off : Nat) (bs : List Byte) : (m.writeBlock off bs).wf = true := by
  induction bs generalizing m off with
  | nil => exact h
  | cons b bs ih => exact ih (write_wf h off b) (off + 1)

theorem writeBlock_within {cap : Nat} {m : Memory} (h : m.within cap = true) {off : Nat} {bs : List Byte}
    (hle : off + bs.length ≤ cap) : (m.writeBlock off bs).within cap = true := by
  induction bs generalizing m off with
  | nil => exact h
  | cons b bs ih =>
    simp only [List.length_cons] at hle
    exact ih (write_within h (by omega) b) (by omega)

/-- A block write leaves every offset outside the block alone. -/
theorem read_writeBlock_other {m : Memory} {off x : Nat} {bs : List Byte} (hx : x < off ∨ off + bs.length ≤ x) :
    (m.writeBlock off bs).read x = m.read x := by
  induction bs generalizing m off with
  | nil => rfl
  | cons b bs ih =>
    simp only [List.length_cons] at hx
    have h1 : x < off + 1 ∨ off + 1 + bs.length ≤ x := by omega
    simp only [writeBlock]
    rw [ih h1, read_write_other (by omega)]

@[simp] theorem readBlock_length (m : Memory) (off n : Nat) : (m.readBlock off n).length = n := by
  induction n generalizing off with
  | zero => rfl
  | succ n ih => simp [readBlock, ih]

theorem readBlock_congr {m m' : Memory} {off n : Nat} (h : ∀ x, off ≤ x → x < off + n → m.read x = m'.read x) :
    m.readBlock off n = m'.readBlock off n := by
  induction n generalizing off with
  | zero => rfl
  | succ n ih =>
    simp only [readBlock]
    rw [h off (by omega) (by omega), ih fun x h1 h2 => h x (by omega) (by omega)]

/-- A block read after a block write at the same place gives the bytes written. -/
theorem readBlock_writeBlock {m : Memory} (h : m.wf = true) (off : Nat) (bs : List Byte) :
    (m.writeBlock off bs).readBlock off bs.length = bs := by
  induction bs generalizing m off with
  | nil => rfl
  | cons b bs ih =>
    simp only [writeBlock, List.length_cons, readBlock]
    rw [ih (write_wf h off b), read_writeBlock_other (by omega), read_write_same_wf h]

/-- A block read that ends where a block write begins does not see it. -/
theorem readBlock_writeBlock_before {m : Memory} {off n x : Nat} {bs : List Byte} (hle : off + n ≤ x) :
    (m.writeBlock x bs).readBlock off n = m.readBlock off n :=
  readBlock_congr fun _ _ h2 => read_writeBlock_other (Or.inl (by omega))

theorem readBlock_append (m : Memory) (off a b : Nat) :
    m.readBlock off (a + b) = m.readBlock off a ++ m.readBlock (off + a) b := by
  induction a generalizing off with
  | zero => simp [readBlock]
  | succ a ih =>
    rw [Nat.succ_add]
    simp only [readBlock, List.cons_append]
    rw [ih, show off + 1 + a = off + (a + 1) by omega]

end Sys2Proof.Machine.Memory
end

