-- ==== Sys2Proof/Laws/PerInstr.lean ====
section
/-! SUPPORT. Statements for every instruction, one lemma per constructor. Family EncodedSize: how many bytes an instruction's word
has, from the spec's encodings (R82, R88, R100, R25). -/

namespace Sys2Proof.Laws.EncodedSize

open Sys2Proof

/-- The number of bytes the spec gives the instruction's word. -/
def size : Instr → Nat
  | .frameP0 _ _ _ => 6
  | .frameP1 _ _ _ _ => 7
  | .frameP2 _ _ _ _ _ => 8
  | .frameP3 _ _ _ _ _ _ => 9
  | .frameP4 _ _ _ _ _ _ _ => 10
  | .frameP5 _ _ _ _ _ _ _ _ => 11
  | .frameP6 _ _ _ _ _ _ _ _ _ => 12
  | .bind _ => 9
  | .writeCommand _ => 9
  | .requestReply _ => 9
  | .close => 9
  | .checksum bs => 3 + bs.length
  | .encodeFrame _ _ pl => 6 + pl.length
  | .decodeValidate raw _ _ => raw.length
  | .moveTimeWrite _ _ => 10
  | .tBind _ => 1
  | .tClose => 1
  | .tStartReq _ => 1
  | .tStartWr _ => 1
  | .tSend => 1
  | .tWrDone => 1
  | .tArm => 1
  | .tHdr => 1
  | .tPollHdrMiss => 1
  | .tPollHdrTimeout => 1
  | .tBody => 1
  | .tPollBodyMiss => 1
  | .tPollBodyTimeout => 1
  | .tRetire => 1

/-- The encoded word has that many bytes, whatever address the session is bound to. -/
def Statement (i : Instr) : Prop := ∀ a : Byte, (encode a i).2.length = size i

theorem frameP0 (a c s : Byte) : Statement (.frameP0 a c s) := fun _ => rfl
theorem frameP1 (a c d0 s : Byte) : Statement (.frameP1 a c d0 s) := fun _ => rfl
theorem frameP2 (a c d0 d1 s : Byte) : Statement (.frameP2 a c d0 d1 s) := fun _ => rfl
theorem frameP3 (a c d0 d1 d2 s : Byte) : Statement (.frameP3 a c d0 d1 d2 s) := fun _ => rfl
theorem frameP4 (a c d0 d1 d2 d3 s : Byte) : Statement (.frameP4 a c d0 d1 d2 d3 s) := fun _ => rfl
theorem frameP5 (a c d0 d1 d2 d3 d4 s : Byte) : Statement (.frameP5 a c d0 d1 d2 d3 d4 s) := fun _ => rfl
theorem frameP6 (a c d0 d1 d2 d3 d4 d5 s : Byte) : Statement (.frameP6 a c d0 d1 d2 d3 d4 d5 s) := fun _ => rfl
theorem bind (arg : Byte) : Statement (.bind arg) := fun _ => rfl
theorem writeCommand (d : Args) : Statement (.writeCommand d) := fun _ => rfl
theorem requestReply (d : Args) : Statement (.requestReply d) := fun _ => rfl
theorem close : Statement .close := fun _ => rfl
theorem checksum (bytes : List Byte) : Statement (.checksum bytes) := by intro a; simp [encode, size]; omega
theorem encodeFrame (a c : Byte) (payload : List Byte) : Statement (.encodeFrame a c payload) := by intro a; simp [encode, size]
theorem decodeValidate (raw : List Byte) (c l : Byte) : Statement (.decodeValidate raw c l) := fun _ => rfl
theorem moveTimeWrite (pos time : U16) : Statement (.moveTimeWrite pos time) := fun _ => rfl
theorem tBind (arg : Byte) : Statement (.tBind arg) := fun _ => rfl
theorem tClose : Statement .tClose := fun _ => rfl
theorem tStartReq (d : Args) : Statement (.tStartReq d) := fun _ => rfl
theorem tStartWr (d : Args) : Statement (.tStartWr d) := fun _ => rfl
theorem tSend : Statement .tSend := fun _ => rfl
theorem tWrDone : Statement .tWrDone := fun _ => rfl
theorem tArm : Statement .tArm := fun _ => rfl
theorem tHdr : Statement .tHdr := fun _ => rfl
theorem tPollHdrMiss : Statement .tPollHdrMiss := fun _ => rfl
theorem tPollHdrTimeout : Statement .tPollHdrTimeout := fun _ => rfl
theorem tBody : Statement .tBody := fun _ => rfl
theorem tPollBodyMiss : Statement .tPollBodyMiss := fun _ => rfl
theorem tPollBodyTimeout : Statement .tPollBodyTimeout := fun _ => rfl
theorem tRetire : Statement .tRetire := fun _ => rfl

end Sys2Proof.Laws.EncodedSize
end

