-- ==== Sys2Proof/Laws/Sequencer.lean ====
section
/-! SUPPORT. One lemma per shared operation of the sequencer and the fetch: everything it can do, cited instead of unfolding it. -/

namespace Sys2Proof.Machine

open Sys2Proof

/-! ## Sending -/

theorem sixToList_take_length {p : Six} {n : Nat} (h : n ≤ 6) : ((Codec.sixToList p).take n).length = n := by
  simp [List.length_take]; omega

theorem payloadOf_length {p : Six} {n : BitVec 3} (h : n.toNat ≤ 6) : (payloadOf p n).length = n.toNat :=
  sixToList_take_length h

/-- The frame of a send with `plen` at most 6 has 6 + `plen` bytes (R82). -/
theorem encode_payload_length (a c : Byte) (p : Six) {n : BitVec 3} (h : n.toNat ≤ 6) :
    (Codec.encode a c (payloadOf p n)).length = 6 + n.toNat := by
  rw [Codec.encode_length, payloadOf_length h]

theorem txlen_toNat {n : BitVec 3} (h : n.toNat ≤ 6) : (6 + n.zeroExtend 4 : BitVec 4).toNat = 6 + n.toNat := by
  simp only [BitVec.toNat_add, BitVec.toNat_setWidth]
  have : (6 : BitVec 4).toNat = 6 := rfl
  omega

/-- What `build_and_send` does on a legal payload size (R152): it sends the frame, whatever `txbuf` held. -/
theorem buildAndSend_legal {s : State} (h : s.plen.toNat ≤ 6) :
    buildAndSend s =
      .next (sendFrame (Codec.encode (sendAddr s) s.cmd (payloadOf s.pay s.plen)) (6 + s.plen.zeroExtend 4) s) := by
  simp [buildAndSend, h]

/-- The transmitted bytes are the frame (R34, R152). -/
theorem sendFrame_txlog_eq {s : State} (hb : s.txbuf.wf = true) {frame : List Byte} {n : BitVec 4}
    (hn : n.toNat = frame.length) : (sendFrame frame n s).txlog = s.txlog ++ frame := by
  rw [sendFrame_txlog, hn, Memory.readBlock_writeBlock hb]

/-- `sendAndGo` on a legal payload size: the frame is transmitted and stands in `txbuf`, the phase is Sent, and only the transmit
registers and the phase changed (R151, R152, R153). -/
theorem sendAndGo_legal {s : State} (hb : s.txbuf.wf = true) (h : s.plen.toNat ≤ 6) :
    ∃ t, sendAndGo s = .next t ∧
      t.txlog = s.txlog ++ Codec.encode (sendAddr s) s.cmd (payloadOf s.pay s.plen) ∧ t.txlen.toNat = 6 + s.plen.toNat ∧
      Memory.readBlock t.txbuf 0 (6 + s.plen.toNat) = Codec.encode (sendAddr s) s.cmd (payloadOf s.pay s.plen) ∧
      (∀ k, 6 + s.plen.toNat ≤ k → Memory.read t.txbuf k = Memory.read s.txbuf k) ∧
      t.txbuf = Memory.writeBlock s.txbuf 0 (Codec.encode (sendAddr s) s.cmd (payloadOf s.pay s.plen)) ∧
      t = { s with txbuf := t.txbuf, txlen := t.txlen, txlog := t.txlog, phase := .sent } := by
  have hl := encode_payload_length (sendAddr s) s.cmd s.pay h
  refine ⟨{ sendFrame (Codec.encode (sendAddr s) s.cmd (payloadOf s.pay s.plen)) (6 + s.plen.zeroExtend 4) s with
    phase := .sent }, ?_, ?_, txlen_toNat h, ?_, ?_, rfl, rfl⟩
  · simp only [sendAndGo, buildAndSend_legal h]
  · exact sendFrame_txlog_eq hb (by rw [txlen_toNat h, hl])
  · rw [← hl]; exact Memory.readBlock_writeBlock hb 0 _
  · intro k hk; exact Memory.read_writeBlock_other (Or.inr (by omega))

/-- Of the 256 address bytes a host program may use all but the reserved one (R83, R99). -/
theorem addrOk_iff (a : Byte) : addrOk a = true ↔ a ≠ Config.addrReserved := by
  revert a; decide

/-! ## The body -/

/-- `need` is the announced length less one, and 0 for 0 (R157). -/
theorem bodyNeed_toNat (l : Byte) : (Codec.bodyNeed l).toNat = l.toNat - 1 := by
  unfold Codec.bodyNeed
  split
  · rename_i h; subst h; rfl
  · rename_i h
    have h0 : l.toNat ≠ 0 := fun e => h (BitVec.eq_of_toNat_eq e)
    have hl := l.isLt
    simp only [BitVec.toNat_sub]
    simp; omega

/-- An accepted payload has at most 6 bytes (R115, R117). -/
theorem decodeAndValidate_length {raw : List Byte} {c l : Byte} {pl : List Byte}
    (h : Codec.decodeAndValidate raw c l = some pl) : pl.length ≤ 6 := by
  unfold Codec.decodeAndValidate at h
  repeat' split at h
  all_goals try (cases h; done)
  simp only [Config.lenMin, Config.lenMax, Config.lenOverhead, Option.some.injEq] at *
  subst h; simp; omega

/-! ## The engine's turn -/

/-- The engine's turn through fetch and decode is the step its phase and condition select (R25). -/
theorem engineTurn_eq_engineStep (s : State) : engineTurn s = engineStep s := by
  unfold engineTurn engineStep selectCond
  cases hp : s.phase
  case idle => rfl
  case flushed => simp [runWord, decode, decodeStep, phaseWord, phaseCode, hp, exec]
  case sent => cases ho : s.op <;> simp [runWord, decode, decodeStep, phaseWord, phaseCode, hp, exec]
  case awaitingHeader =>
    simp only [pollCond]
    split
    · simp [runWord, decode, decodeStep, phaseWord, phaseCode, hp, exec]
    · split <;> simp [runWord, decode, decodeStep, phaseWord, phaseCode, hp, exec]
  case awaitingBody =>
    simp only [pollCond]
    split
    · simp [runWord, decode, decodeStep, phaseWord, phaseCode, hp, exec]
    · split <;> simp [runWord, decode, decodeStep, phaseWord, phaseCode, hp, exec]
  case validated => simp [runWord, decode, decodeStep, phaseWord, phaseCode, hp, exec]

/-- A frame row found on the link lets exactly its bytes arrive. -/
theorem decodeFrame_exec {bs : List Byte} {i : Instr} (h : decodeFrame bs = .ok i) (s : State) :
    exec i s = .next (deliverAll bs s) := by
  unfold decodeFrame at h
  repeat' split at h
  all_goals first
    | (cases h; done)
    | (casesm* _ ∧ _
       cases h
       subst_vars
       rfl)

/-- Bytes on the link arrive, whether or not they are a frame (R56, R60). -/
theorem runLink_eq (bs : List Byte) (s : State) : runLink bs s = .next (deliverAll bs s) := by
  unfold runLink
  cases h : decode (.port .link) bs with
  | error e => rfl
  | ok i => exact decodeFrame_exec h s

/-! ## Starts -/

theorem descOp_of (o : OpCode) (d : Args) : descOp (descOfArgs o d) = o := by
  obtain ⟨bcast, cmd, plen, explen, pay⟩ := d
  have : ∀ (o : OpCode) (b : Bool) (p : BitVec 3),
      (match (descByte0 o b p).getLsbD 1, (descByte0 o b p).getLsbD 0 with
        | false, false => OpCode.bind | false, true => .writeCommand | true, false => .requestReply | true, true => .close) = o := by
    intro o b p
    cases o <;> cases b <;> revert p <;> decide
  exact this o bcast plen

theorem descArgs_of (o : OpCode) (d : Args) : descArgs (descOfArgs o d) = d := by
  obtain ⟨bcast, cmd, plen, explen, pay⟩ := d
  have h2 : ∀ (o : OpCode) (b : Bool) (p : BitVec 3),
      (descByte0 o b p).getLsbD 2 = b ∧ (descByte0 o b p).extractLsb' 3 3 = p := by
    intro o b p
    cases o <;> cases b <;> revert p <;> decide
  simp only [descArgs, descOfArgs, (h2 o bcast plen).1, (h2 o bcast plen).2]

/-- A start step that is not accepted changes nothing (R135). -/
theorem start_ignored_outside_idle {s : State} (h : s.phase ≠ .idle) (w : DescWord) :
    runWord (.seq (.start w)) [0] s = .next s := by
  have hb : acceptsBind s = false := by simp [acceptsBind, h]
  have hc : acceptsClose s = false := by simp [acceptsClose, h]
  have hs : ∀ d, acceptsSend d s = false := by intro d; simp [acceptsSend, h]
  have hd : decode (.seq (.start w)) [0] = .ok (decodeStart w) := rfl
  simp only [runWord, hd, decodeStart]
  cases descOp w <;> simp [exec, execTBind, execTClose, execTStartReq, execTStartWr, hb, hc, hs]

/-! ## One move while an operation runs -/

/-- While an operation runs, a step of the machine is the move the blocking calls make. -/
theorem nextMove_busy {s : State} (h : s.phase ≠ .idle) : nextMove s = busyStep s := by
  have hb : busy s = true := by simp [busy, h]
  unfold nextMove busyStep
  cases ha : s.agenda with
  | nil => exact engineTurn_eq_engineStep s
  | cons e rest =>
    have hr : ({ s with agenda := rest } : State).phase ≠ .idle := h
    cases e with
    | tick => simp [Event.waitsForIdle, moveOf, engineTurn_eq_engineStep]
    | deliver b => simp [Event.waitsForIdle, moveOf]
    | chanOk v => simp [Event.waitsForIdle, moveOf]
    | reset => simp [Event.waitsForIdle, moveOf]
    | start w =>
      simp only [Event.waitsForIdle, Bool.and_false, Bool.false_eq_true, if_false, moveOf]
      exact start_ignored_outside_idle hr w
    | wrapper c vs => simp [Event.waitsForIdle, hb, engineTurn_eq_engineStep]
    | word p bs =>
      cases p <;> simp [Event.waitsForIdle, hb, moveOf, runLink_eq, engineTurn_eq_engineStep]

end Sys2Proof.Machine
end

