-- ==== Sys2Proof/Laws/Session.lean ====
section
/-! SUPPORT. What the engine's turn and one move of a running call can do, said once, and the induction over a call. -/

namespace Sys2Proof.Machine

open Sys2Proof

/-- The state after T_HDR with the four oldest bytes `bs` taken (R156, R157). -/
def afterHeader (s : State) : State :=
  { s with rxq := s.rxq.drop 4, rxbuf := Memory.writeBlock s.rxbuf 0 (s.rxq.take 4), rxcnt := 4,
           need := Codec.bodyNeed (Memory.read (Memory.writeBlock s.rxbuf 0 (s.rxq.take 4)) 3), pollCnt := 0,
           phase := .awaitingBody }

/-- The state after T_BODY before the outcome is stored: the body's bytes taken (R160). -/
def afterBodyRead (s : State) : State :=
  { s with rxq := s.rxq.drop s.need.toNat, rxbuf := Memory.writeBlock s.rxbuf 4 (s.rxq.take s.need.toNat),
           rxcnt := BitVec.ofNat 9 (4 + s.need.toNat) }

/-- The verdict T_BODY reaches (R160, R115). -/
def bodyVerdict (s : State) : Option (List Byte) :=
  Codec.decodeAndValidate (Memory.readBlock (Memory.writeBlock s.rxbuf 4 (s.rxq.take s.need.toNat)) 0 (4 + s.need.toNat))
    s.cmd s.explen

theorem execTBody_enough {s : State} (hp : s.phase = .awaitingBody) (hn : s.need.toNat ≤ s.rxq.length)
    (hl : s.need.toNat ≤ 254) : execTBody s = .next (bodyOutcome (bodyVerdict s) (afterBodyRead s)) := by
  have hc : (BitVec.ofNat 9 (4 + s.need.toNat)).toNat = 4 + s.need.toNat := by simp; omega
  have hcap : Config.headerBytes + s.need.toNat ≤ Config.rxbufCap := by simp only [Config.headerBytes, Config.rxbufCap]; omega
  have hv : bodyVerdict s = Codec.decodeAndValidate
      (Memory.readBlock (Memory.writeBlock s.rxbuf 4 (s.rxq.take s.need.toNat)) 0 (BitVec.ofNat 9 (4 + s.need.toNat)).toNat)
      s.cmd s.explen := by rw [hc]; rfl
  unfold execTBody
  rw [if_pos ⟨hp, hn⟩, if_pos hcap, chanReadN_enough hn, hv]
  rfl

/-- In a canonical buffer the verdict is on the header's four bytes and the bytes just read (R160). -/
theorem bodyVerdict_eq {s : State} (hb : s.rxbuf.wf = true) (hn : s.need.toNat ≤ s.rxq.length) :
    bodyVerdict s = Codec.decodeAndValidate (Memory.readBlock s.rxbuf 0 4 ++ s.rxq.take s.need.toNat) s.cmd s.explen := by
  have htl : (s.rxq.take s.need.toNat).length = s.need.toNat := by simp; omega
  have hrb := Memory.readBlock_writeBlock hb 4 (s.rxq.take s.need.toNat)
  rw [htl] at hrb
  rw [bodyVerdict, Memory.readBlock_append, Memory.readBlock_writeBlock_before (by omega), Nat.zero_add, hrb]

/-- The state after T_SEND (R153). -/
def afterSend (s : State) : State :=
  { sendFrame (Codec.encode (sendAddr s) s.cmd (payloadOf s.pay s.plen)) (6 + s.plen.zeroExtend 4) s with phase := .sent }

theorem sendAndGo_eq {s : State} (h : s.plen.toNat ≤ 6) : sendAndGo s = .next (afterSend s) := by
  simp only [sendAndGo, buildAndSend_legal h, afterSend]

theorem execTHdr_enough {s : State} (hp : s.phase = .awaitingHeader) (h : 4 ≤ s.rxq.length) :
    execTHdr s = .next (afterHeader s) := by
  unfold execTHdr
  rw [if_pos ⟨hp, h⟩, chanReadN_enough h]
  rfl

/-- The transition each phase and condition takes, as a relation: R150 to R163 without the starts. -/
inductive Turn (s : State) : State → Prop where
  | idle (hp : s.phase = .idle) : Turn s s
  | send (hp : s.phase = .flushed) (hn : s.plen.toNat ≤ 6) : Turn s (afterSend s)
  | writeDone (hp : s.phase = .sent) (ho : s.op = .writeCommand) : Turn s { s with status := .ok, phase := .validated }
  | arm (hp : s.phase = .sent) (ho : s.op = .requestReply) : Turn s { s with need := 4, pollCnt := 0, phase := .awaitingHeader }
  | header (hp : s.phase = .awaitingHeader) (hl : 4 ≤ s.rxq.length) : Turn s (afterHeader s)
  | headerMiss (hp : s.phase = .awaitingHeader) (hl : s.rxq.length < 4) (hc : s.pollCnt + 1 < s.cfg.pollBound) :
      Turn s (countMiss s)
  | headerTimeout (hp : s.phase = .awaitingHeader) (hl : s.rxq.length < 4) (hc : s.cfg.pollBound ≤ s.pollCnt + 1) :
      Turn s (raise .headerTimeout (countMiss s))
  | body (hp : s.phase = .awaitingBody) (hl : s.need.toNat ≤ s.rxq.length) (hn : s.need.toNat ≤ 254) :
      Turn s (bodyOutcome (bodyVerdict s) (afterBodyRead s))
  | bodyMiss (hp : s.phase = .awaitingBody) (hl : s.rxq.length < s.need.toNat) (hc : s.pollCnt + 1 < s.cfg.pollBound) :
      Turn s (countMiss s)
  | bodyTimeout (hp : s.phase = .awaitingBody) (hl : s.rxq.length < s.need.toNat) (hc : s.cfg.pollBound ≤ s.pollCnt + 1) :
      Turn s (raise .bodyTimeout (countMiss s))
  | retire (hp : s.phase = .validated) : Turn s (retire s)

theorem pollCond_enough {n : Nat} {s : State} (h : n ≤ s.rxq.length) : pollCond n s = .enough := by
  simp [pollCond, chanAvail, h]

theorem pollCond_miss {n : Nat} {s : State} (h : s.rxq.length < n) (hc : s.pollCnt + 1 < s.cfg.pollBound) :
    pollCond n s = .missBelow := by
  simp [pollCond, chanAvail, hc]; omega

theorem pollCond_reached {n : Nat} {s : State} (h : s.rxq.length < n) (hc : s.cfg.pollBound ≤ s.pollCnt + 1) :
    pollCond n s = .missReached := by
  unfold pollCond
  rw [if_neg (by unfold chanAvail; omega), if_neg (by omega)]

/-- The engine's turn makes the transition of the relation. -/
theorem engineStep_of_turn {s t : State} (h : Turn s t) : engineStep s = .next t := by
  unfold engineStep
  cases h with
  | idle hp => rw [hp]
  | send hp hn => rw [hp]; simp only [execTSend, hp, if_true, sendAndGo_eq hn]
  | writeDone hp ho => rw [hp]; simp only [ho, execTWrDone, hp, and_self, if_true]
  | arm hp ho => rw [hp]; simp only [ho, execTArm, hp, and_self, if_true]; rfl
  | header hp hl => rw [hp]; simp only [pollCond_enough (n := Config.headerBytes) hl, execTHdr_enough hp hl]
  | headerMiss hp hl hc =>
    rw [hp]; simp only [pollCond_miss (n := Config.headerBytes) hl hc]; exact if_pos ⟨hp, hl, hc⟩
  | headerTimeout hp hl hc =>
    rw [hp]; simp only [pollCond_reached (n := Config.headerBytes) hl hc]; exact if_pos ⟨hp, hl, hc⟩
  | body hp hl hn => rw [hp]; simp only [pollCond_enough hl]; exact execTBody_enough hp hl hn
  | bodyMiss hp hl hc =>
    rw [hp]; simp only [pollCond_miss hl hc]; exact if_pos ⟨hp, hl, hc⟩
  | bodyTimeout hp hl hc =>
    rw [hp]; simp only [pollCond_reached hl hc]; exact if_pos ⟨hp, hl, hc⟩
  | retire hp => rw [hp]; simp only [execTRetire, hp, if_true]

/-- The engine's turn makes no other transition. -/
theorem turn_of_engineStep {s t : State} (h : engineStep s = .next t) : Turn s t := by
  have key : ∀ u, Turn s u → Turn s t := by
    intro u hu
    have hs := engineStep_of_turn hu
    rw [hs] at h
    cases h
    exact hu
  cases hp : s.phase with
  | idle => exact key s (.idle hp)
  | flushed =>
    by_cases hn : s.plen.toNat ≤ 6
    · exact key _ (.send hp hn)
    · simp [engineStep, hp, execTSend, sendAndGo, buildAndSend, hn] at h
  | sent =>
    cases ho : s.op with
    | writeCommand => exact key _ (.writeDone hp ho)
    | requestReply => exact key _ (.arm hp ho)
    | bind => simp [engineStep, hp, ho] at h
    | close => simp [engineStep, hp, ho] at h
  | validated => exact key _ (.retire hp)
  | awaitingHeader =>
    by_cases hl : 4 ≤ s.rxq.length
    · exact key _ (.header hp hl)
    · by_cases hc : s.pollCnt + 1 < s.cfg.pollBound
      · exact key _ (.headerMiss hp (by omega) hc)
      · exact key _ (.headerTimeout hp (by omega) (by omega))
  | awaitingBody =>
    by_cases hl : s.need.toNat ≤ s.rxq.length
    · by_cases hn : s.need.toNat ≤ 254
      · exact key _ (.body hp hl hn)
      · have hcap : ¬ Config.headerBytes + s.need.toNat ≤ Config.rxbufCap := by
          simp only [Config.headerBytes, Config.rxbufCap]; omega
        simp only [engineStep, hp, pollCond_enough hl] at h
        unfold execTBody at h
        rw [if_pos ⟨hp, hl⟩, if_neg hcap] at h
        cases h
    · by_cases hc : s.pollCnt + 1 < s.cfg.pollBound
      · exact key _ (.bodyMiss hp (by omega) hc)
      · exact key _ (.bodyTimeout hp (by omega) (by omega))

/-- The turn is possible whenever the latched operands are those of an operation (R24 to R30). -/
theorem turn_total {s : State} (hn : s.phase = .flushed → s.plen.toNat ≤ 6)
    (hneed : s.phase = .awaitingBody → s.need.toNat ≤ 254)
    (ho : s.phase = .sent → s.op = .writeCommand ∨ s.op = .requestReply) : ∃ t, Turn s t := by
  cases hp : s.phase with
  | idle => exact ⟨_, .idle hp⟩
  | flushed => exact ⟨_, .send hp (hn hp)⟩
  | sent => rcases ho hp with ho | ho; exact ⟨_, .writeDone hp ho⟩; exact ⟨_, .arm hp ho⟩
  | validated => exact ⟨_, .retire hp⟩
  | awaitingHeader =>
    by_cases hl : 4 ≤ s.rxq.length
    · exact ⟨_, .header hp hl⟩
    · by_cases hc : s.pollCnt + 1 < s.cfg.pollBound
      · exact ⟨_, .headerMiss hp (by omega) hc⟩
      · exact ⟨_, .headerTimeout hp (by omega) (by omega)⟩
  | awaitingBody =>
    by_cases hl : s.need.toNat ≤ s.rxq.length
    · exact ⟨_, .body hp hl (hneed hp)⟩
    · by_cases hc : s.pollCnt + 1 < s.cfg.pollBound
      · exact ⟨_, .bodyMiss hp (by omega) hc⟩
      · exact ⟨_, .bodyTimeout hp (by omega) (by omega)⟩

/-! ## Measure -/

/-- An upper bound on the turns the engine needs to be idle (R164). -/
def turnsLeft (s : State) : Nat :=
  let bound := max 1 s.cfg.pollBound
  match s.phase with
  | .idle => 0
  | .validated => 1
  | .awaitingBody => max 1 (s.cfg.pollBound - s.pollCnt) + 1
  | .awaitingHeader => max 1 (s.cfg.pollBound - s.pollCnt) + bound + 1
  | .sent => 2 * bound + 2
  | .flushed => 2 * bound + 3

@[simp] theorem bodyOutcome_phase (r : Option (List Byte)) (s : State) : (bodyOutcome r s).phase = .validated := by
  cases r <;> rfl
@[simp] theorem bodyOutcome_agenda (r : Option (List Byte)) (s : State) : (bodyOutcome r s).agenda = s.agenda := by
  cases r <;> rfl
@[simp] theorem bodyOutcome_cfg (r : Option (List Byte)) (s : State) : (bodyOutcome r s).cfg = s.cfg := by
  cases r <;> rfl

/-- A turn outside Idle comes nearer to Idle, and leaves the agenda and the parameters. -/
theorem turn_decreases {s t : State} (h : Turn s t) (hp : s.phase ≠ .idle) :
    turnsLeft t < turnsLeft s ∧ t.agenda = s.agenda ∧ t.cfg = s.cfg := by
  cases h with
  | idle h => exact absurd h hp
  | send h hn => exact ⟨by simp [turnsLeft, h, afterSend, sendFrame, chanWrite], rfl, rfl⟩
  | writeDone h ho => exact ⟨by simp [turnsLeft, h], rfl, rfl⟩
  | arm h ho => exact ⟨by simp [turnsLeft, h]; omega, rfl, rfl⟩
  | header h hl => exact ⟨by simp only [turnsLeft, h, afterHeader]; omega, rfl, rfl⟩
  | headerMiss h hl hc => exact ⟨by simp only [turnsLeft, h, countMiss]; omega, rfl, rfl⟩
  | headerTimeout h hl hc => exact ⟨by simp only [turnsLeft, h, countMiss, raise]; omega, rfl, rfl⟩
  | body h hl hn => exact ⟨by simp only [turnsLeft, h, bodyOutcome_phase]; omega, by simp [afterBodyRead], by simp [afterBodyRead]⟩
  | bodyMiss h hl hc => exact ⟨by simp only [turnsLeft, h, countMiss]; omega, rfl, rfl⟩
  | bodyTimeout h hl hc => exact ⟨by simp only [turnsLeft, h, countMiss, raise]; omega, rfl, rfl⟩
  | retire h => exact ⟨by simp [turnsLeft, h, retire], rfl, rfl⟩

/-! ## One move of a running call -/

/-- The arrivals of two stretches of the agenda, one after the other. -/
theorem arrivals_append (as bs : List Event) : Safety.arrivals (as ++ bs) = Safety.arrivals as ++ Safety.arrivals bs := by
  induction as with
  | nil => rfl
  | cons e as ih =>
    cases e with
    | word p w => cases p <;> simp [Safety.arrivals, ih]
    | _ => simp [Safety.arrivals, ih]

theorem rxAppendAll_append (depth : Option Nat) (q as bs : List Byte) :
    rxAppendAll depth q (as ++ bs) = rxAppendAll depth (rxAppendAll depth q as) bs := List.foldl_append

/-- What one move of a running call can do: a turn, or an event of the outside world. A start pulse brings no bytes and changes
nothing else. -/
inductive Move (s : State) : State → Prop where
  | turn {t : State} (h : Turn s t) : Move s t
  | tick {t : State} {rest : List Event} (ha : s.agenda = .tick :: rest) (h : Turn { s with agenda := rest } t) : Move s t
  | bytes {rest : List Event} {e : Event} (bs : List Byte) (ha : s.agenda = e :: rest) (he : e ≠ .reset)
      (hbs : Safety.arrivals [e] = bs) :
      Move s { s with agenda := rest, rxq := rxAppendAll s.cfg.rxfifoDepth s.rxq bs }
  | chanOk {rest : List Event} (v : Bool) (ha : s.agenda = .chanOk v :: rest) : Move s { s with agenda := rest, chanOk := v }
  | reset {rest : List Event} (ha : s.agenda = .reset :: rest) : Move s (applyReset { s with agenda := rest })

theorem move_total {s : State} (hn : s.phase = .flushed → s.plen.toNat ≤ 6)
    (hneed : s.phase = .awaitingBody → s.need.toNat ≤ 254)
    (ho : s.phase = .sent → s.op = .writeCommand ∨ s.op = .requestReply) : ∃ t, busyStep s = .next t ∧ Move s t := by
  obtain ⟨u, hu⟩ := turn_total hn hneed ho
  have hstep := engineStep_of_turn hu
  unfold busyStep
  cases ha : s.agenda with
  | nil => exact ⟨u, hstep, .turn hu⟩
  | cons e rest =>
    cases e with
    | tick =>
      obtain ⟨v, hv⟩ := turn_total (s := { s with agenda := rest }) hn hneed ho
      exact ⟨v, engineStep_of_turn hv, .tick ha hv⟩
    | deliver b => exact ⟨_, rfl, .bytes (e := .deliver b) [b] ha (by simp) rfl⟩
    | chanOk v => exact ⟨_, rfl, .chanOk v ha⟩
    | reset => exact ⟨_, rfl, .reset ha⟩
    | start w => exact ⟨_, rfl, .bytes (e := .start w) [] ha (by simp) rfl⟩
    | wrapper c vs => exact ⟨u, hstep, .turn hu⟩
    | word p bs =>
      cases p with
      | link =>
        refine ⟨_, rfl, ?_⟩
        rw [deliverAll_eq]
        exact .bytes (e := .word .link bs) bs ha (by simp) (List.append_nil bs)
      | _ => exact ⟨u, hstep, .turn hu⟩

/-- A running call makes no other move. -/
theorem move_of_busyStep {s t : State} (h : busyStep s = .next t) : Move s t := by
  unfold busyStep at h
  cases ha : s.agenda with
  | nil => rw [ha] at h; exact .turn (turn_of_engineStep h)
  | cons e rest =>
    rw [ha] at h
    cases e with
    | tick => exact .tick ha (turn_of_engineStep h)
    | deliver b => cases h; exact .bytes (e := .deliver b) [b] ha (by simp) rfl
    | chanOk v => cases h; exact .chanOk v ha
    | reset => cases h; exact .reset ha
    | start w => cases h; exact .bytes (e := .start w) [] ha (by simp) rfl
    | wrapper c vs => exact .turn (turn_of_engineStep h)
    | word p bs =>
      cases p with
      | link =>
        cases h
        rw [deliverAll_eq]
        exact .bytes (e := .word .link bs) bs ha (by simp) (List.append_nil bs)
      | _ => exact .turn (turn_of_engineStep h)

/-- A move outside Idle comes nearer to Idle or shortens the agenda. -/
theorem move_decreases {s t : State} (h : Move s t) (hp : s.phase ≠ .idle) :
    turnsLeft t + t.agenda.length < turnsLeft s + s.agenda.length ∧ t.cfg = s.cfg := by
  cases h with
  | turn h =>
    obtain ⟨h1, h2, h3⟩ := turn_decreases h hp
    rw [h2]; exact ⟨by omega, h3⟩
  | tick ha h =>
    obtain ⟨h1, h2, h3⟩ := turn_decreases h hp
    have h1' : turnsLeft t < turnsLeft s := h1
    rw [h2, ha]
    exact ⟨by simp only [List.length_cons]; omega, h3⟩
  | bytes bs ha he hbs => rw [ha]; exact ⟨by simp [turnsLeft], rfl⟩
  | chanOk v ha => rw [ha]; exact ⟨by simp [turnsLeft], rfl⟩
  | reset ha => rw [ha]; exact ⟨by simp [turnsLeft, applyReset, State.reset]; omega, rfl⟩

/-- Induction over a call: what every move keeps holds at its end, which is in Idle. -/
theorem runToIdle_reaches {P : State → Prop}
    (hstep : ∀ s, P s → s.phase ≠ .idle → ∃ t, busyStep s = .next t ∧ P t) :
    ∀ (fuel : Nat) (s : State), P s → turnsLeft s + s.agenda.length ≤ fuel →
      ∃ t, runToIdle fuel s = .next t ∧ P t ∧ t.phase = .idle ∧ t.cfg = s.cfg := by
  intro fuel
  induction fuel with
  | zero =>
    intro s hs hle
    refine ⟨s, rfl, hs, ?_, rfl⟩
    cases hp : s.phase <;> simp [turnsLeft, hp] at hle ⊢
  | succ n ih =>
    intro s hs hle
    by_cases hp : s.phase = .idle
    · exact ⟨s, by simp only [runToIdle, hp], hs, hp, rfl⟩
    · obtain ⟨t, ht, hPt⟩ := hstep s hs hp
      obtain ⟨hlt, hcfg⟩ := move_decreases (move_of_busyStep ht) hp
      obtain ⟨u, hu, hPu, hpu, hcu⟩ := ih t hPt (by omega)
      refine ⟨u, ?_, hPu, hpu, by rw [hcu, hcfg]⟩
      unfold runToIdle
      cases hph : s.phase with
      | idle => exact absurd hph hp
      | _ => simp only [ht, hu]

/-- What every move keeps holds after a run of any length that answers a next state. -/
theorem runToIdle_keeps {P : State → Prop} (hstep : ∀ s t, P s → s.phase ≠ .idle → Move s t → P t) :
    ∀ (fuel : Nat) (s t : State), P s → runToIdle fuel s = .next t → P t := by
  intro fuel
  induction fuel with
  | zero => intro s t hs h; cases h; exact hs
  | succ n ih =>
    intro s t hs h
    by_cases hp : s.phase = .idle
    · simp only [runToIdle, hp] at h; cases h; exact hs
    · unfold runToIdle at h
      cases hb : busyStep s with
      | next u =>
        have hu := hstep s u hs hp (move_of_busyStep hb)
        refine ih u t hu ?_
        cases hph : s.phase with
        | idle => exact absurd hph hp
        | _ => simpa only [hph, hb] using h
      | fault f => cases hph : s.phase <;> simp [hph, hb] at h hp
      | refused r => cases hph : s.phase <;> simp [hph, hb] at h hp

end Sys2Proof.Machine
end

