-- ==== Sys2Proof/Tests/Slice0.lean ====
section
/-! SUPPORT. Tests on fixed values. Expected results are the spec's own: the examples, vectors and traces of 95_test_vectors.md,
or the encodings of 30_encoding.md written out by hand. -/

namespace Sys2Proof.Tests

open Sys2Proof Sys2Proof.Machine Sys2Proof.Safety

set_option maxRecDepth 4000

/-! ## Helpers -/

/-- One view of a next state; `none` on a stop. -/
def look {α : Type} (f : State → α) (o : Host.Outcome State Fault Refusal) : Option α :=
  match o with
  | .next t => some (f t)
  | .fault _ => none
  | .refused _ => none

/-- The fault an outcome stops with. -/
def faultOf (o : Host.Outcome State Fault Refusal) : Option Fault :=
  match o with
  | .next _ => none
  | .fault f => some f
  | .refused _ => none

/-- The refusal an outcome stops with. -/
def refusalOf (o : Host.Outcome State Fault Refusal) : Option Refusal :=
  match o with
  | .next _ => none
  | .fault _ => none
  | .refused r => some r

/-- A session bound to 5, idle, with `PB` = 3 (95 part 2.4). -/
def bound5 : State := { State.reset with opened := true, addr := 5, cfg := { Config.default with pollBound := 3 } }

/-- The same with a queue of the least depth R9 allows. -/
def bound5Shallow : State := { bound5 with cfg := { Config.default with pollBound := 3, rxfifoDepth := some 12 } }

/-- The same with something to do next. -/
def next5 (es : List Event) : State := { bound5 with agenda := es }

/-- A request of that session, somewhere in its run: `REQ 28, [], 5`. -/
def running (p : Phase) (q : List Byte) : State :=
  { bound5 with phase := p, op := .requestReply, cmd := 28, explen := 5, rxq := q }

/-- The operands of `WRITE 1, [00 02 E8 03]` (P1) and of `REQ 28, [], 5` (P2). -/
def write1 : Args := ⟨false, 1, 4, 0, ⟨0x00, 0x02, 0xE8, 0x03, 0, 0⟩⟩
def req28 : Args := ⟨false, 28, 0, 5, ⟨0, 0, 0, 0, 0, 0⟩⟩

/-! ## Ill-formed terms are refused -/

theorem test_wf_frame_checksum :
    (Instr.frameP0 5 2 0xF4).wellFormed = false ∧ (Instr.frameP1 3 26 0x2A 0xB5).wellFormed = false ∧
    (Instr.frameP2 5 28 0xF4 0x01 0xE5).wellFormed = false ∧ (Instr.frameP3 5 1 1 2 3 0xEC).wellFormed = false ∧
    (Instr.frameP4 5 1 0x00 0x02 0xE8 0x03 6).wellFormed = false ∧ (Instr.frameP5 5 1 1 2 3 4 5 0xE3).wellFormed = false ∧
    (Instr.frameP6 0 0 0 0 0 0 0 0 0xF7).wellFormed = false := by decide

theorem test_wf_frame_right :
    (Instr.frameP0 5 2 0xF5).wellFormed = true ∧ (Instr.frameP4 5 1 0x00 0x02 0xE8 0x03 5).wellFormed = true ∧
    (Instr.frameP6 253 255 255 255 255 255 255 255 0).wellFormed = true := by decide

theorem test_wf_reserved_address :
    (Instr.bind 255).wellFormed = false ∧ (Instr.tBind 255).wellFormed = false ∧
    (Instr.encodeFrame 255 1 []).wellFormed = false ∧ (Instr.bind 254).wellFormed = true := by decide

theorem test_wf_plen_seven :
    (Instr.writeCommand ⟨false, 1, 7, 0, ⟨0, 0, 0, 0, 0, 0⟩⟩).wellFormed = false ∧
    (Instr.requestReply ⟨false, 1, 7, 0, ⟨0, 0, 0, 0, 0, 0⟩⟩).wellFormed = false ∧
    (Instr.tStartWr ⟨false, 1, 7, 0, ⟨0, 0, 0, 0, 0, 0⟩⟩).wellFormed = false ∧
    (Instr.tStartReq ⟨false, 1, 7, 0, ⟨0, 0, 0, 0, 0, 0⟩⟩).wellFormed = false := by decide

theorem test_wf_checksum_input :
    (Instr.checksum [0, 2]).wellFormed = false ∧ (Instr.checksum [0, 10, 0, 0, 0, 0, 0, 0, 0, 0]).wellFormed = false ∧
    (Instr.checksum [0, 4, 0]).wellFormed = false ∧ (Instr.checksum [0, 3, 0]).wellFormed = true := by decide

theorem test_wf_encode_payload : (Instr.encodeFrame 5 1 [1, 2, 3, 4, 5, 6, 7]).wellFormed = false := by decide

/-! ## Decoding: words written out from R88, R100, R101, R25 -/

theorem test_decode_frameP0 : decode (.port .link) [0x55, 0x55, 0x05, 0x03, 0x02, 0xF5] = .ok (.frameP0 5 2 0xF5) := by decide
theorem test_decode_frameP1 : decode (.port .link) [0x55, 0x55, 0x03, 0x04, 0x1A, 0x2A, 0xB4] = .ok (.frameP1 3 26 0x2A 0xB4) := by
  decide
theorem test_decode_frameP2 : decode (.port .link) [0x55, 0x55, 0x05, 0x05, 0x1C, 0xF4, 0x01, 0xE4] =
    .ok (.frameP2 5 28 0xF4 0x01 0xE4) := by decide
theorem test_decode_frameP3 : decode (.port .link) [0x55, 0x55, 0x05, 0x06, 0x01, 1, 2, 3, 0xED] = .ok (.frameP3 5 1 1 2 3 0xED) := by
  decide
/-- The document's frame, bit by bit. -/
theorem test_decode_frameP4 : decode (.port .link)
    [0b01010101, 0b01010101, 0b00000101, 0b00000111, 0b00000001, 0b00000000, 0b00000010, 0b11101000, 0b00000011, 0b00000101] =
    .ok (.frameP4 5 1 0x00 0x02 0xE8 0x03 5) := by decide
theorem test_decode_frameP5 : decode (.port .link) [0x55, 0x55, 0x05, 0x08, 0x01, 1, 2, 3, 4, 5, 0xE2] =
    .ok (.frameP5 5 1 1 2 3 4 5 0xE2) := by decide
theorem test_decode_frameP6 : decode (.port .link) [0x55, 0x55, 0xFD, 0x09, 0xFF, 1, 2, 3, 4, 5, 6, 0x00] =
    .ok (.frameP6 253 255 1 2 3 4 5 6 0) := by decide
theorem test_decode_frame_refused :
    decode (.port .link) [0x54, 0x55, 0x05, 0x03, 0x02, 0xF5] = .error .marker ∧
    decode (.port .link) [0x55, 0x55, 0x05, 0x04, 0x02, 0xF5] = .error .frameSize ∧
    decode (.port .link) [0x55, 0x55, 0x05, 0x0A, 0x02, 0, 0, 0, 0, 0, 0, 0, 0xF5] = .error .frameSize ∧
    decode (.port .link) [0x55, 0x55] = .error .frameSize := by decide
/-- `BIND 5`: `op` 00; bits 7:6, `bcast` and `plen` have no influence. -/
theorem test_decode_bind :
    decode (.port .host) [0b00000000, 5, 0, 0, 0, 0, 0, 0, 0] = .ok (.bind 5) ∧
    decode (.port .host) [0b11111100, 5, 9, 9, 9, 9, 9, 9, 9] = .ok (.bind 5) := by decide
/-- `WRITE.B 13, [07]` of P6: `plen` 001, `bcast` 1, `op` 01. -/
theorem test_decode_writeCommand : decode (.port .host) [0b00001101, 13, 0, 7, 0, 0, 0, 0, 0] =
    .ok (.writeCommand ⟨true, 13, 1, 0, ⟨7, 0, 0, 0, 0, 0⟩⟩) := by decide
/-- `plen` 110, `op` 10, payload 1 to 6. -/
theorem test_decode_requestReply : decode (.port .host) [0b00110010, 0x1C, 0x05, 1, 2, 3, 4, 5, 6] =
    .ok (.requestReply ⟨false, 28, 6, 5, ⟨1, 2, 3, 4, 5, 6⟩⟩) := by decide
theorem test_decode_close : decode (.port .host) [0b00000011, 0, 0, 0, 0, 0, 0, 0, 0] = .ok .close := by decide
theorem test_decode_desc_refused : decode (.port .host) [0x00, 0x05] = .error .descriptorSize := by decide
theorem test_decode_checksum : decode (.port .checksumFn) [0x55, 0x55, 0x05, 0x07, 0x01, 0x00, 0x02, 0xE8, 0x03, 0x05] =
    .ok (.checksum [0x05, 0x07, 0x01, 0x00, 0x02, 0xE8, 0x03]) := by decide
theorem test_decode_encodeFrame : decode (.port .encodeFn) [0x55, 0x55, 0x05, 0x05, 0x1C, 0xF4, 0x01, 0xE4] =
    .ok (.encodeFrame 5 28 [0xF4, 0x01]) := by decide
theorem test_decode_decodeValidate : decode (.port (.validateFn 2 7)) [0x55, 0x55, 0x05] =
    .ok (.decodeValidate [0x55, 0x55, 0x05] 2 7) := by decide
/-- `MOVE_TIME_WRITE 512, 1000` (K1): low byte first. -/
theorem test_decode_moveTimeWrite : decode (.port .catalogue)
    [0x55, 0x55, 0x05, 0x07, 0x01, 0x00, 0x02, 0xE8, 0x03, 0x05] = .ok (.moveTimeWrite 512 1000) := by decide
theorem test_decode_tBind : decode (.seq (.start ⟨0x00, 7, 0, 0, 0, 0, 0, 0, 0⟩)) [0b000] = .ok (.tBind 7) := by decide
theorem test_decode_tClose : decode (.seq (.start ⟨0x03, 0, 0, 0, 0, 0, 0, 0, 0⟩)) [0b000] = .ok .tClose := by decide
theorem test_decode_tStartReq : decode (.seq (.start ⟨0x02, 0x1C, 0x05, 0, 0, 0, 0, 0, 0⟩)) [0b000] = .ok (.tStartReq req28) := by
  decide
theorem test_decode_tStartWr : decode (.seq (.start ⟨0x21, 0x01, 0x00, 0x00, 0x02, 0xE8, 0x03, 0x00, 0x00⟩)) [0b000] =
    .ok (.tStartWr write1) := by decide
theorem test_decode_tSend : decode (.seq .always) [0b001] = .ok .tSend := by decide
theorem test_decode_tWrDone : decode (.seq .opWrite) [0b010] = .ok .tWrDone := by decide
theorem test_decode_tArm : decode (.seq .opRequest) [0b010] = .ok .tArm := by decide
theorem test_decode_tHdr : decode (.seq .enough) [0b011] = .ok .tHdr := by decide
theorem test_decode_tPollHdrMiss : decode (.seq .missBelow) [0b011] = .ok .tPollHdrMiss := by decide
theorem test_decode_tPollHdrTimeout : decode (.seq .missReached) [0b011] = .ok .tPollHdrTimeout := by decide
theorem test_decode_tBody : decode (.seq .enough) [0b100] = .ok .tBody := by decide
theorem test_decode_tPollBodyMiss : decode (.seq .missBelow) [0b100] = .ok .tPollBodyMiss := by decide
theorem test_decode_tPollBodyTimeout : decode (.seq .missReached) [0b100] = .ok .tPollBodyTimeout := by decide
theorem test_decode_tRetire : decode (.seq .always) [0b101] = .ok .tRetire := by decide
/-- Codes 6 and 7 of `phase`, and a code with the wrong condition, select no step (R25, U8). -/
theorem test_decode_step_refused :
    decode (.seq .always) [0b110] = .error .noSuchStep ∧ decode (.seq .enough) [0b111] = .error .noSuchStep ∧
    decode (.seq .always) [0b010] = .error .noSuchStep := by decide
/-- Table words: bit 0 is the least significant bit of the first byte; absent operand bytes are 0. -/
theorem test_table_words :
    decodeTableWord 8 0x00 = some (.bind 0) ∧ decodeTableWord 8 0x01 = some (.writeCommand ⟨false, 0, 0, 0, ⟨0, 0, 0, 0, 0, 0⟩⟩) ∧
    decodeTableWord 48 0xF50203055555 = some (.frameP0 5 2 0xF5) ∧
    decodeTableWord 80 0x0503E802000107055555 = some (.moveTimeWrite 512 1000) := by decide

/-! ## The codec (95 parts 2.1 to 2.3) -/

theorem test_checksum_V3_V4 :
    Codec.checksum [0xFD, 0x09, 0xFF, 0xFF, 0xFF, 0xFF, 0xFF, 0xFF, 0xFF] = 0x00 ∧
    Codec.checksum [0xFF, 0x09, 0xFF, 0xFF, 0xFF, 0xFF, 0xFF, 0xFF, 0xFF] = 0xFE := by decide
theorem test_checksum_V2_port : look (·.codecOut) (exec (.checksum [0x05, 0x07, 0x01, 0x00, 0x02, 0xE8, 0x03]) State.reset) =
    some (.byte 0x05) := by decide
theorem test_encode_V12_port : look (·.codecOut) (exec (.encodeFrame 5 1 [0x00, 0x02, 0xE8, 0x03]) State.reset) =
    some (.frame [0x55, 0x55, 0x05, 0x07, 0x01, 0x00, 0x02, 0xE8, 0x03, 0x05]) := by decide
theorem test_encode_V15 : Codec.encode 253 255 [0xFF, 0xFF, 0xFF, 0xFF, 0xFF, 0xFF] =
    [0x55, 0x55, 0xFD, 0x09, 0xFF, 0xFF, 0xFF, 0xFF, 0xFF, 0xFF, 0xFF, 0x00] := by decide
theorem test_validate_V18_V21 :
    look (·.codecOut) (exec (.decodeValidate [0x55, 0x55, 0x05, 0x07, 0x02, 0x00, 0x02, 0xE8, 0x03, 0x04] 2 7) State.reset) =
      some (.valid [0x00, 0x02, 0xE8, 0x03]) ∧
    look (·.codecOut) (exec (.decodeValidate [0x55, 0x55, 0x05, 0x05, 0x02, 0x00, 0x02, 0xE8, 0x03, 0x04] 2 7) State.reset) =
      some .corrupt := by decide
/-- V25 (markers unchecked), V28 (errors cancel), V30, V31, V32 (shape). -/
theorem test_validate_corners :
    Codec.decodeAndValidate [0x54, 0x55, 0x05, 0x07, 0x02, 0x00, 0x02, 0xE8, 0x03, 0x04] 2 7 = some [0x00, 0x02, 0xE8, 0x03] ∧
    Codec.decodeAndValidate [0x55, 0x55, 0x05, 0x07, 0x02, 0x01, 0x01, 0xE8, 0x03, 0x04] 2 7 = some [0x01, 0x01, 0xE8, 0x03] ∧
    Codec.decodeAndValidate [0x55, 0x55, 0x05] 2 7 = none ∧
    Codec.decodeAndValidate [0x55, 0x55, 0x05, 0x07, 0x02, 0x00, 0x02, 0xE8, 0x03, 0x04, 0x00] 2 7 = none ∧
    Codec.decodeAndValidate [0x55, 0x55, 0x05, 0x02, 0xF6] 2 2 = none := by decide

/-! ## Frames on the link -/

theorem test_frames_arrive :
    look (·.rxq) (exec (.frameP0 5 2 0xF5) bound5) = some [0x55, 0x55, 0x05, 0x03, 0x02, 0xF5] ∧
    look (·.rxq) (exec (.frameP1 3 26 0x2A 0xB4) { bound5 with rxq := [0xAA] }) =
      some [0xAA, 0x55, 0x55, 0x03, 0x04, 0x1A, 0x2A, 0xB4] ∧
    look (·.rxq) (exec (.frameP2 5 28 0xF4 0x01 0xE4) bound5) = some [0x55, 0x55, 0x05, 0x05, 0x1C, 0xF4, 0x01, 0xE4] ∧
    look (·.rxq) (exec (.frameP3 5 1 1 2 3 0xED) bound5) = some [0x55, 0x55, 0x05, 0x06, 0x01, 1, 2, 3, 0xED] := by decide
theorem test_frames_arrive_long :
    look (·.rxq) (exec (.frameP4 5 1 0 2 0xE8 3 5) bound5) = some [0x55, 0x55, 0x05, 0x07, 0x01, 0x00, 0x02, 0xE8, 0x03, 0x05] ∧
    look (·.rxq) (exec (.frameP5 5 1 1 2 3 4 5 0xE2) bound5) = some [0x55, 0x55, 0x05, 0x08, 0x01, 1, 2, 3, 4, 5, 0xE2] ∧
    look (·.rxq) (exec (.frameP6 0 0 1 2 3 4 5 6 0xE1) bound5Shallow) =
      some [0x55, 0x55, 0x00, 0x09, 0x00, 1, 2, 3, 4, 5, 6, 0xE1] := by decide

/-! ## Host operations (95 parts 2.4, 2.5 and 3) -/

theorem test_bind_S1 : look (fun t => (t.status, t.opened, t.done, t.phase)) (exec (.bind 5) State.reset) =
    some (.channelSetupFailure, false, true, .idle) := by decide
theorem test_bind_S12 : look (·.addr) (exec (.bind 6) bound5) = some 5 := by decide
/-- P1, second line, with stale bytes in the queue. -/
theorem test_write_P1 : look (fun t => (t.txlog, t.rxq, t.status, t.done, t.phase))
    (exec (.writeCommand write1) { bound5 with rxq := [0xAA, 0xBB] }) =
    some ([0x55, 0x55, 0x05, 0x07, 0x01, 0x00, 0x02, 0xE8, 0x03, 0x05], [0xAA, 0xBB], .ok, true, .idle) := by decide
theorem test_write_P6_broadcast : look (·.txlog) (exec (.writeCommand ⟨true, 13, 1, 0, ⟨7, 0, 0, 0, 0, 0⟩⟩) { bound5 with addr := 1 }) =
    some [0x55, 0x55, 0xFE, 0x04, 0x0D, 0x07, 0xE9] := by decide
/-- P2, with the environment's script as the agenda. -/
theorem test_request_P2 : look (fun t => (hostResult .requestReply t, t.txlog, t.pollCnt, t.need, t.rxcnt))
    (exec (.requestReply req28) { next5 [.tick, .tick, .tick, .tick, .word .link [0x55, 0x55, 0x05], .tick,
        .word .link [0x05, 0x1C, 0xF4], .tick, .tick, .word .link [0x01, 0xE4]] with
      rxq := [0xAA, 0x55, 0x55], cfg := { Config.default with pollBound := 9 } }) =
    some (.okPayload [0xF4, 0x01], [0x55, 0x55, 0x05, 0x03, 0x1C, 0xDB], 1, 4, 8) := by decide
/-- S8: the length byte corrupted to C8. -/
theorem test_request_S8 : look (fun t => (hostResult .requestReply t, t.need, t.rxq))
    (exec (.requestReply req28) (next5 [.word .link [0x55, 0x55, 0x05, 0xC8, 0x1C, 0xF4, 0x01, 0xE4]])) =
    some (.fail .bodyTimeout, 199, [0x1C, 0xF4, 0x01, 0xE4]) := by decide
theorem test_close_S13 : look (fun t => (t.opened, t.status, t.addr)) (exec .close bound5) = some (false, .ok, 5) := by decide
/-- K1 and K3. -/
theorem test_moveTimeWrite_K1_K3 :
    look (·.txlog) (exec (.moveTimeWrite 512 1000) bound5) = some [0x55, 0x55, 0x05, 0x07, 0x01, 0x00, 0x02, 0xE8, 0x03, 0x05] ∧
    look (·.txlog) (exec (.moveTimeWrite 2000 0) bound5) = some [0x55, 0x55, 0x05, 0x07, 0x01, 0xE8, 0x03, 0x00, 0x00, 0x07] := by
  decide

/-! ## Steps -/

theorem test_tBind : look (fun t => (t.addr, t.opened, t.status)) (exec (.tBind 7) { State.reset with chanOk := true }) =
    some (7, true, .ok) := by decide
theorem test_tClose_ignored : exec .tClose State.reset = .next State.reset := rfl
theorem test_tStartReq : look (fun t => (t.phase, t.rxq, t.done, t.status, t.txlog))
    (exec (.tStartReq req28) { bound5 with rxq := [0xAA, 0x55, 0x55], done := true, status := .headerTimeout }) =
    some (.flushed, [], false, .none, []) := by decide
theorem test_tStartWr : look (fun t => (t.phase, t.txlen, t.rxq, Memory.readBlock t.txbuf 0 6))
    (exec (.tStartWr ⟨true, 13, 1, 0, ⟨7, 0, 0, 0, 0, 0⟩⟩) { bound5 with rxq := [0xAA] }) =
    some (.sent, 7, [0xAA], [0x55, 0x55, 0xFE, 0x04, 0x0D, 0x07]) := by decide
theorem test_tSend_S3 : look (fun t => (t.phase, t.txlog)) (exec .tSend { running .flushed [] with cmd := 14 }) =
    some (.sent, [0x55, 0x55, 0x05, 0x03, 0x0E, 0xE9]) := by decide
theorem test_tWrDone : look (fun t => (t.phase, t.status, t.done)) (exec .tWrDone { bound5 with phase := .sent, op := .writeCommand }) =
    some (.validated, .ok, false) := by decide
theorem test_tArm : look (fun t => (t.phase, t.need, t.pollCnt)) (exec .tArm { running .sent [] with pollCnt := 2 }) =
    some (.awaitingHeader, 4, 0) := by decide
/-- P2: the header leaves `1C F4`; `need` is the length less one. -/
theorem test_tHdr_P2 : look (fun t => (t.phase, t.need, t.rxq, t.rxcnt, Memory.readBlock t.rxbuf 0 5))
    (exec .tHdr (running .awaitingHeader [0x55, 0x55, 0x05, 0x05, 0x1C, 0xF4])) =
    some (.awaitingBody, 4, [0x1C, 0xF4], 4, [0x55, 0x55, 0x05, 0x05, 0x00]) := by decide
/-- S9: an announced length of 0 needs nothing more. -/
theorem test_tHdr_S9 : look (fun t => t.need) (exec .tHdr (running .awaitingHeader [0x55, 0x55, 0x05, 0x00])) = some 0 := by decide
theorem test_tPollHdrMiss : look (fun t => (t.phase, t.pollCnt, t.rxq)) (exec .tPollHdrMiss (running .awaitingHeader [0x55, 0x55, 0x05])) =
    some (.awaitingHeader, 1, [0x55, 0x55, 0x05]) := by decide
theorem test_tPollHdrTimeout : look (fun t => (t.phase, t.pollCnt, t.status, t.done))
    (exec .tPollHdrTimeout { running .awaitingHeader [] with pollCnt := 2 }) = some (.validated, 3, .headerTimeout, false) := by decide
/-- P5 run d: no markers, another address, accepted; and run a: a wrong checksum. -/
theorem test_tBody_P5 :
    look (fun t => (t.status, t.rplen, t.rpay, t.rxq)) (exec .tBody { running .awaitingBody [0x1C, 0xF4, 0x01, 0xE3, 0x99] with
      rxbuf := [(2, 0x06), (3, 0x05)], rxcnt := 4, need := 4 }) =
      some (.ok, 2, ⟨0xF4, 0x01, 0, 0, 0, 0⟩, [0x99]) ∧
    look (fun t => (t.status, t.phase, t.rplen)) (exec .tBody { running .awaitingBody [0x1C, 0xF4, 0x01, 0xE5] with
      rxbuf := [(0, 0x55), (1, 0x55), (2, 0x05), (3, 0x05)], rxcnt := 4, need := 4 }) =
      some (.corruptReply, .validated, 0) := by decide
theorem test_tPollBodyMiss : look (fun t => (t.phase, t.pollCnt)) (exec .tPollBodyMiss { running .awaitingBody [0x1C, 0xF4] with need := 4 }) =
    some (.awaitingBody, 1) := by decide
theorem test_tPollBodyTimeout : look (fun t => (t.phase, t.pollCnt, t.status, t.rxq))
    (exec .tPollBodyTimeout { running .awaitingBody [0x02, 0x00] with need := 6, pollCnt := 2 }) =
    some (.validated, 3, .bodyTimeout, [0x02, 0x00]) := by decide
theorem test_tRetire : look (fun t => (t.phase, t.done, t.status))
    (exec .tRetire { running .validated [] with status := .bodyTimeout }) = some (.idle, true, .bodyTimeout) := by decide
theorem test_step_not_enabled : faultOf (exec .tHdr (running .awaitingHeader [0x55])) = some .stepNotEnabled := by decide

/-! ## The machine's step -/

/-- S5: a reply present at the last permitted poll is accepted; one step is one engine step. -/
theorem test_step_last_poll : look (fun t => t.phase)
    (step { running .awaitingHeader [0x55, 0x55, 0x05, 0x04] with pollCnt := 2 }) = some .awaitingBody := by decide
/-- A host's line waits while an operation runs (R103). -/
theorem test_step_line_waits : look (fun t => (t.phase, t.agenda)) (step { running .validated [] with agenda := [.wrapper 1 [0, 0]] }) =
    some (.idle, [.wrapper 1 [0, 0]]) := by decide
theorem test_step_refuses :
    refusalOf (step (next5 [.word .host [0x00]])) = some (.undecodable .descriptorSize) ∧
    refusalOf (step (next5 [.wrapper 2 []])) = some .noCatalogueRow := by decide
theorem test_first_after_reset : look (·.status) (step (State.reset.withFetchWord 8 0x00)) = some .channelSetupFailure := by decide

/-! ## Witnesses: concrete states and operands that meet the hypotheses of each statement, at boundary values -/

/-- The state of an outcome, and the reset state on a stop: to write a witness's next state down. -/
def after (o : Host.Outcome State Fault Refusal) : State :=
  match o with
  | .next t => t
  | .fault _ => State.reset
  | .refused _ => State.reset

theorem witness_buffersOk : BuffersOk bound5 ∧ BuffersOk bound5Shallow := ⟨⟨rfl, rfl, rfl, rfl⟩, ⟨rfl, rfl, rfl, rfl⟩⟩

/-- The same session with other contents in every register and buffer. -/
def bound5Stale : State :=
  { bound5 with rxq := [1, 2, 3], rplen := 2, rpay := ⟨9, 9, 9, 9, 9, 9⟩, rxbuf := [(3, 7)], rxcnt := 4, need := 6, pollCnt := 3,
                txbuf := [(0, 0x55), (11, 0xFF)], txlog := [0xFF], done := true, status := .bodyTimeout }

theorem witness_buffersOk_stale : BuffersOk bound5Stale := ⟨rfl, rfl, rfl, rfl⟩

/-- A descriptor with `plen` = 6, sent to the broadcast address. -/
def args6 : Args := ⟨true, 255, 6, 9, ⟨1, 2, 3, 4, 5, 6⟩⟩

theorem witness_DecodeOfEncode :
    (Instr.frameP0 0 0 0xFC).wellFormed = true ∧ (Instr.frameP6 253 255 255 255 255 255 255 255 0).wellFormed = true ∧
    (Instr.bind 254).wellFormed = true ∧ (Instr.writeCommand args6).wellFormed = true ∧
    (Instr.requestReply args6).wellFormed = true ∧ (Instr.checksum [0, 3, 0]).wellFormed = true ∧
    (Instr.checksum [255, 9, 0, 1, 2, 3, 4, 5, 6]).wellFormed = true ∧ (Instr.encodeFrame 254 1 [1, 2, 3, 4, 5, 6]).wellFormed = true ∧
    (Instr.decodeValidate [] 0 0).wellFormed = true ∧ (Instr.moveTimeWrite 65535 65535).wellFormed = true ∧
    (Instr.tBind 0).wellFormed = true ∧ (Instr.tStartReq args6).wellFormed = true := by decide

theorem witness_ChecksumForms : 8 ≤ 8 ∧ [1, 2, 3, 4, 5, (6 : Byte)].length ≤ 6 ∧
    (Codec.encode 5 1 [1, 2, 3, 4, 5, 6])[5 + 6]? = some 0xDB := by decide
theorem witness_EncodeProperties : ([] : List Byte).length ≤ 6 ∧ [1, 2, 3, 4, 5, (6 : Byte)].length ≤ 6 ∧
    Codec.encode 5 1 [1, 2, 3, 4, 5, 6] = Codec.encode 5 1 [1, 2, 3, 4, 5, 6] := by decide
theorem witness_ValidationAcceptsExactly :
    Codec.decodeAndValidate [0x54, 0xD5, 0x05, 0x03, 0x02, 0xF5] 2 3 = some [] ∧
    [0x54, 0xD5, 0x05, 0x03, 0x02, (0xF5 : Byte)] = 0x54 :: 0xD5 :: (Codec.encode 5 2 []).drop 2 ∧ (3 : Byte).toNat = 0 + 3 := by decide
/-- The markers' bit and the last bit of the greatest frame; the exchange of V28. -/
theorem witness_SingleBitSensitivity :
    (Codec.encode 5 1 [1, 2, 3, 4, 5, 6])[1]? = some 0x55 ∧ (Codec.encode 5 1 [1, 2, 3, 4, 5, 6])[11]? = some 0xDB ∧
    (Codec.encode 5 1 [])[5]? = some 0xF6 ∧ 7 < 8 ∧ ([] ++ [(0 : Byte)] ++ [] ++ [2] ++ [0xE8, 3]).length ≤ 6 := by decide
theorem witness_LengthExactness : [1, 2, 3, 4, 5, (6 : Byte)].length ≤ 6 ∧ (8 : Byte).toNat ≠ 6 + 3 ∧ (0 : Byte).toNat ≠ 0 + 3 := by decide
theorem witness_CodecRowsComplete : [1, 2, 3, 4, 5, (6 : Byte)].length ≤ 6 ∧ 6 < [1, 2, 3, 4, 5, 6, (7 : Byte)].length := by decide
theorem witness_CatalogueFieldsRoundTrip : 65535 < 256 ^ 2 ∧ [2000, 65535].length = Config.moveTimeWriteRow.requestFields.length ∧
    ∀ p ∈ List.zip Config.moveTimeWriteRow.requestFields [2000, 65535], clampField p.1 p.2 < 256 ^ p.1.bytes := by decide
theorem witness_FrameArrival : bound5.cfg.rxfifoDepth = none ∧ bound5Shallow.cfg.rxfifoDepth = some 12 := by decide
/-- A queue of depth 12 with one place left, and full. -/
theorem witness_ByteArrivesInAnyPhase :
    (({ bound5Shallow with agenda := [.deliver 1], rxq := List.replicate 11 0 } : State).agenda = [.deliver 1] ∧
      (List.replicate 11 (0 : Byte)).length < 12) ∧ 12 ≤ (List.replicate 12 (0 : Byte)).length := by decide
theorem witness_ResetLeavesIdleEngine : ({ running .awaitingBody [1] with agenda := [.reset] } : State).agenda = [.reset] := rfl
theorem witness_BindResult :
    (State.reset.phase = .idle ∧ State.reset.opened = false ∧ State.reset.chanOk = false) ∧
    (({ State.reset with chanOk := true } : State).phase = .idle ∧ ({ State.reset with chanOk := true } : State).chanOk = true) ∧
    bound5.opened = true := by decide
theorem witness_CloseResult : (bound5.phase = .idle ∧ bound5.opened = true) ∧ (running .awaitingHeader []).phase ≠ .idle := by decide
theorem witness_IgnoredStarts :
    (bound5.opened = true) ∧ (State.reset.opened = false) ∧ (running .sent []).phase ≠ .idle ∧
    ({ args6 with plen := 7 } : Args).plen = 7 ∧
    (descOp ⟨0x00, 6, 0, 0, 0, 0, 0, 0, 0⟩ = .bind ∧ (next5 [.start ⟨0x00, 6, 0, 0, 0, 0, 0, 0, 0⟩]).opened = true) ∧
    (descOp ⟨0x39, 1, 0, 0, 0, 0, 0, 0, 0⟩ = .writeCommand ∧ (descArgs ⟨0x39, 1, 0, 0, 0, 0, 0, 0, 0⟩).plen = 7) := by decide
theorem witness_LegalStartsAreAccepted :
    HostLegal ⟨0x00, 254, 0, 0, 0, 0, 0, 0, 0⟩ State.reset = true ∧ HostLegal ⟨0x31, 1, 0, 1, 2, 3, 4, 5, 6⟩ bound5 = true ∧
    HostLegal ⟨0x06, 14, 4, 0, 0, 0, 0, 0, 0⟩ bound5 = true ∧ HostLegal ⟨0x03, 0, 0, 0, 0, 0, 0, 0, 0⟩ bound5 = true := by decide
/-- The hypotheses of the statements about whole calls: with events on the way, and without. -/
theorem witness_calls :
    bound5Stale.phase = .idle ∧ bound5Stale.opened = true ∧ args6.plen.toNat ≤ 6 ∧ write1.plen.toNat ≤ 6 ∧
    Event.reset ∉ bound5Stale.agenda ∧ Event.reset ∉ (next5 [.tick, .deliver 1, .word .link [2], .start ⟨0, 0, 0, 0, 0, 0, 0, 0, 0⟩]).agenda ∧
    Event.reset ∈ (next5 [.reset]).agenda ∧ bound5.cfg.wf = true ∧ bound5Shallow.cfg.wf = true := by decide
/-- WriteCommandWhole: an agenda of ticks brings no arrivals, and bytes that arrive during the write stay. -/
theorem witness_WriteCommandWhole :
    arrivals [.tick, .tick] = [] ∧ arrivals [.deliver 1, .tick, .word .link [2, 3]] = [1, 2, 3] ∧
    look (fun t => (t.rxq, t.agenda)) (exec (.writeCommand write1) { next5 [.deliver 1, .tick, .word .link [2, 3]] with rxq := [9] }) =
      some ([9, 1, 2, 3], []) := by decide
theorem witness_RequestReplyBounded : ({ Config.default with pollBound := 1 } : Config).wf = true ∧
    (List.replicate 5 [0x55, (0x55 : Byte)]).length + 1 = 4 + 2 * 1 := by decide
theorem witness_SilentLineTimesOut : ([] : List Byte).length < 4 ∧ [0x55, 0x55, (5 : Byte)].length < 4 ∧
    (next5 [.word .link [0x55, 0x55, 5]]).agenda = [.word .link [0x55, 0x55, 5]] := by decide
/-- A header alone that announces 2, and E6: 2 of the 6 bytes of a reply of length 7. -/
theorem witness_PartialBodyTimesOut :
    ([] : List Byte).length + 1 < (2 : Byte).toNat ∧ [2, (0 : Byte)].length + 1 < (7 : Byte).toNat ∧
    RoomFor (4 + [2, (0 : Byte)].length) bound5 ∧ RoomFor (4 + [2, (0 : Byte)].length) bound5Shallow :=
  ⟨by decide, by decide, fun _ h => (by cases h), fun _ h => (by cases h; decide)⟩
/-- Announced lengths 0, 5 (P2) and 255, the greatest. -/
theorem witness_RequestReplyReturnsValidation :
    ([] : List Byte).length = (0 : Byte).toNat - 1 ∧ [0x1C, 0xF4, 0x01, (0xE4 : Byte)].length = (5 : Byte).toNat - 1 ∧
    (List.replicate 254 (0 : Byte)).length = (255 : Byte).toNat - 1 ∧ RoomFor (4 + 4 + 0) bound5Shallow :=
  ⟨by decide, by decide, by simp, fun _ h => (by cases h; decide)⟩
/-- Two states that differ in everything R137 calls irrelevant, and their calls. -/
theorem witness_CallsAreIndependent :
    bound5.addr = bound5Stale.addr ∧ bound5.cfg = bound5Stale.cfg ∧ bound5.agenda = bound5Stale.agenda ∧
    exec (.requestReply req28) bound5 = .next (after (exec (.requestReply req28) bound5)) ∧
    exec (.requestReply req28) bound5Stale = .next (after (exec (.requestReply req28) bound5Stale)) := ⟨rfl, rfl, rfl, rfl, rfl⟩
theorem witness_MoveTimeWriteSends : BuffersOk bound5 ∧ bound5.phase = .idle ∧ bound5.opened = true ∧ Event.reset ∉ bound5.agenda :=
  ⟨⟨rfl, rfl, rfl, rfl⟩, by decide⟩
/-- MOVE_TIME_WRITE's row, and a read row with a reply of 6 bytes. -/
theorem witness_CatalogueRowExpands :
    [2000, 65535].length = Config.moveTimeWriteRow.requestFields.length ∧
    (encodeFields Config.moveTimeWriteRow.requestFields [2000, 65535]).length = Config.moveTimeWriteRow.requestSize ∧
    Config.moveTimeWriteRow.replySize = none ∧
    (encodeFields [] []).length = (⟨2, 0, some 6, false, [], []⟩ : Config.CatRow).requestSize ∧
    (⟨2, 0, some 6, false, [], []⟩ : Config.CatRow).replySize = some 6 := by decide
theorem witness_CatalogueWrapperRuns :
    findRow 1 bound5.cfg.catalogue = some Config.moveTimeWriteRow ∧
    expandRow Config.moveTimeWriteRow [512, 1000] = some (.writeCommand write1) ∧
    expandRow Config.moveTimeWriteRow [512] = none ∧ findRow 2 bound5.cfg.catalogue = none := by decide

/-- The read row of K4 (R181's example), in the catalogue of a session bound to 5. -/
def readRow : Config.CatRow := ⟨2, 0, some 4, false, [], [⟨2, 0, none⟩, ⟨2, 0, none⟩]⟩
def bound5Read (es : List Event) : State :=
  { bound5 with cfg := { bound5.cfg with catalogue := [Config.moveTimeWriteRow, readRow] }, agenda := .wrapper 2 [] :: es }

/-- A write wrapper, a read wrapper whose reply arrives (P4: 512 and 1000), one on a silent line, and one without a session. -/
theorem witness_CatalogueWrapperResult :
    (findRow 2 (bound5Read []).cfg.catalogue = some readRow ∧ (bound5Read []).opened = true ∧ (bound5Read []).phase = .idle) ∧
    look (fun t => (t.done, t.status, wrapperResult Config.moveTimeWriteRow t)) (step (next5 [.wrapper 1 [512, 1000]])) =
      some (true, .ok, some (.ok [])) ∧
    look (fun t => (t.done, t.status, wrapperResult readRow t))
        (step (bound5Read [.word .link [0x55, 0x55, 0x05, 0x07, 0x02, 0x00, 0x02, 0xE8, 0x03, 0x04]])) =
      some (true, .ok, some (.ok [512, 1000])) ∧
    look (fun t => (t.done, t.status, wrapperResult readRow t)) (step (bound5Read [])) =
      some (true, .headerTimeout, some (.error .headerTimeout)) ∧
    look (fun t => t.txlog) (step { next5 [.wrapper 1 [512, 1000]] with opened := false }) = some [] :=
  ⟨by decide, by rfl, by rfl, by rfl, by rfl⟩
theorem witness_StartRequestStep : (bound5.phase = .idle ∧ bound5.opened = true ∧ args6.plen.toNat ≤ 6) ∧
    ¬ (State.reset.phase = .idle ∧ State.reset.opened = true ∧ args6.plen.toNat ≤ 6) := by decide
/-- Payload sizes 0 and 6 in Flushed. -/
theorem witness_SendStep :
    (running .flushed []).phase = .flushed ∧ (running .flushed []).plen.toNat ≤ 6 ∧
    ({ running .flushed [] with plen := 6 } : State).plen.toNat ≤ 6 := by decide
theorem witness_SentSteps : (running .sent []).op = .requestReply ∧ ({ running .sent [] with op := .writeCommand } : State).op = .writeCommand := by
  decide
/-- Exactly four bytes, announcing 0 and 255. -/
theorem witness_HeaderStep : (running .awaitingHeader [0x55, 0x55, 5, 0]).rxq = 0x55 :: 0x55 :: 5 :: 0 :: [] ∧
    (running .awaitingHeader [0x55, 0x55, 5, 255]).phase = .awaitingHeader := by decide
/-- The last poll below the bound of 3, with one byte too few. -/
theorem witness_PollMissSteps : 1 + 1 < bound5.cfg.pollBound ∧ (running .awaitingHeader [1, 2, 3]).rxq.length < 4 ∧
    (running .awaitingBody [1, 2, 3]).rxq.length < (4 : Byte).toNat := by decide
theorem witness_PollTimeoutSteps : bound5.cfg.pollBound ≤ 2 + 1 ∧ (running .awaitingHeader [1, 2, 3]).rxq.length < 4 ∧
    (running .awaitingBody [1, 2, 3]).rxq.length < (4 : Byte).toNat := by decide
/-- `need` 0 on an empty queue, and 254, the greatest. -/
theorem witness_BodyStep :
    (0 : Byte).toNat ≤ (running .awaitingBody []).rxq.length ∧ (254 : Byte).toNat ≤ (List.replicate 254 (0 : Byte)).length :=
  ⟨by decide, by simp⟩
theorem witness_OutOfDomainStops :
    ({ running .flushed [] with plen := 7 } : State).phase = .flushed ∧
    255 ≤ ({ running .awaitingBody (List.replicate 255 0) with need := 255 } : State).rxq.length :=
  ⟨rfl, by simp [running]⟩
theorem witness_RetireStep : (running .validated []).phase = .validated := rfl

/-- States that meet the invariant outside Idle: one for every phase, at both sides of the poll conditions. -/
theorem witness_inv_flushed : Inv (running .flushed []) :=
  ⟨by decide, ⟨rfl, rfl, rfl, rfl⟩, trivial, by decide, by decide, ⟨rfl, rfl, by decide⟩, rfl, rfl, rfl⟩
theorem witness_inv_sent : Inv { running .sent [] with txlen := 6 } ∧ Inv { running .sent [] with txlen := 6, op := .writeCommand } :=
  ⟨⟨by decide, ⟨rfl, rfl, rfl, rfl⟩, trivial, by decide, by decide, ⟨rfl, rfl, by decide⟩, rfl, rfl, .inr ⟨rfl, rfl⟩⟩,
   ⟨by decide, ⟨rfl, rfl, rfl, rfl⟩, trivial, by decide, by decide, ⟨rfl, rfl, by decide⟩, rfl, rfl, .inl rfl⟩⟩
theorem witness_inv_awaitingHeader : Inv { running .awaitingHeader [1, 2, 3, 4] with need := 4 } ∧
    Inv { running .awaitingHeader [1, 2, 3] with need := 4, pollCnt := 1 } ∧
    Inv { running .awaitingHeader [] with need := 4, pollCnt := 2 } :=
  ⟨⟨by decide, ⟨rfl, rfl, rfl, rfl⟩, trivial, by decide, by decide, ⟨rfl, rfl, by decide⟩, rfl, rfl, rfl, rfl, by decide⟩,
   ⟨by decide, ⟨rfl, rfl, rfl, rfl⟩, trivial, by decide, by decide, ⟨rfl, rfl, by decide⟩, rfl, rfl, rfl, rfl, by decide⟩,
   ⟨by decide, ⟨rfl, rfl, rfl, rfl⟩, trivial, by decide, by decide, ⟨rfl, rfl, by decide⟩, rfl, rfl, rfl, rfl, by decide⟩⟩
theorem witness_inv_awaitingBody : Inv { running .awaitingBody [1, 2] with rxbuf := [(3, 3)], rxcnt := 4, need := 2 } ∧
    Inv { running .awaitingBody [1] with rxbuf := [(3, 3)], rxcnt := 4, need := 2, pollCnt := 1 } ∧
    Inv { running .awaitingBody [] with rxbuf := [(3, 3)], rxcnt := 4, need := 2, pollCnt := 2 } :=
  ⟨⟨by decide, ⟨rfl, rfl, rfl, rfl⟩, trivial, by decide, by decide, ⟨rfl, rfl, by decide⟩, rfl, rfl, rfl, by decide, by decide⟩,
   ⟨by decide, ⟨rfl, rfl, rfl, rfl⟩, trivial, by decide, by decide, ⟨rfl, rfl, by decide⟩, rfl, rfl, rfl, by decide, by decide⟩,
   ⟨by decide, ⟨rfl, rfl, rfl, rfl⟩, trivial, by decide, by decide, ⟨rfl, rfl, by decide⟩, rfl, rfl, rfl, by decide, by decide⟩⟩
theorem witness_inv_validated : Inv { running .validated [] with status := .corruptReply } :=
  ⟨by decide, ⟨rfl, rfl, rfl, rfl⟩, trivial, by decide, by decide, ⟨rfl, rfl, by decide⟩, by decide, by decide, .inr rfl⟩
/-- ExactlyOneStepEnabled, StepKeepsInvariant, NoFaultFromInvariant: a state of the invariant outside Idle, and its step. -/
theorem witness_StepKeepsInvariant :
    (running .flushed []).phase ≠ .idle ∧ step (running .flushed []) = .next (after (step (running .flushed []))) := ⟨by decide, rfl⟩
/-- NoPayloadBesideFailure: a finished call that failed, and one that brought six bytes. -/
theorem witness_NoPayloadBesideFailure :
    Inv { bound5 with status := .bodyTimeout, done := true } ∧
    Inv { bound5 with status := .ok, done := true, rplen := 6, rpay := ⟨1, 2, 3, 4, 5, 6⟩ } ∧
    hostResult .requestReply { bound5 with status := .ok, done := true, rplen := 6, rpay := ⟨1, 2, 3, 4, 5, 6⟩ } = .okPayload [1, 2, 3, 4, 5, 6] :=
  ⟨⟨by decide, ⟨rfl, rfl, rfl, rfl⟩, trivial, by decide, by decide, fun _ => by decide, fun _ => rfl⟩,
   ⟨by decide, ⟨rfl, rfl, rfl, rfl⟩, trivial, by decide, by decide, fun _ => by decide, fun _ => rfl⟩, by decide⟩
/-- PhaseTransitions: a turn, an accepted start, an arriving byte, and a host's line. -/
theorem witness_PhaseTransitions :
    engineTurn (running .validated []) = .next (after (engineTurn (running .validated []))) ∧
    step (next5 [.start ⟨0x02, 28, 5, 0, 0, 0, 0, 0, 0⟩]) = .next (after (step (next5 [.start ⟨0x02, 28, 5, 0, 0, 0, 0, 0, 0⟩]))) ∧
    step (next5 [.deliver 1]) = .next (after (step (next5 [.deliver 1]))) ∧ (Event.deliver 1).waitsForIdle = false ∧
    step (next5 [.wrapper 1 [0, 0]]) = .next (after (step (next5 [.wrapper 1 [0, 0]]))) ∧ (Event.wrapper 1 [0, 0]).waitsForIdle = true :=
  ⟨rfl, rfl, rfl, rfl, rfl, rfl⟩
theorem witness_StepRunsDecodedInstruction :
    decode (.port .host) [0x03, 0, 0, 0, 0, 0, 0, 0, 0] = .ok .close ∧ decode (.port .link) [0x55, 0x55, 5, 3, 2, 0xF5] = .ok (.frameP0 5 2 0xF5) ∧
    decode (.seq (.start ⟨0x03, 0, 0, 0, 0, 0, 0, 0, 0⟩)) [0] = .ok .tClose ∧ selectCond (running .flushed []) = some .always ∧
    decode (.seq .always) (phaseWord (running .flushed [])) = .ok .tSend ∧ decode (.port .link) [1, 2] = .error .frameSize := by decide
theorem witness_PlacedWordRuns : decodeTableWord 8 0x03 = some .close ∧ tableSource 8 0x03 = .host ∧
    decodeTableWord 48 0xFC0003005555 = some (.frameP0 0 0 0xFC) ∧ tableSource 48 0xFC0003005555 = .link := by decide
/-- BIND 5 as a start pulse and as a line, on an open channel. -/
theorem witness_AddrWrittenOnlyByBind :
    look (·.addr) (step { State.reset with chanOk := true, agenda := [.start ⟨0, 5, 0, 0, 0, 0, 0, 0, 0⟩] }) = some 5 ∧
    look (·.addr) (step { State.reset with chanOk := true, agenda := [.word .host [0, 5, 0, 0, 0, 0, 0, 0, 0]] }) = some 5 ∧
    State.reset.addr ≠ 5 := by decide
theorem witness_TransmitLogGrowsByWholeFrames : BuffersOk (running .flushed []) ∧ Event.reset ∉ (running .flushed []).agenda ∧
    look (·.txlog) (step (running .flushed [])) = some [0x55, 0x55, 0x05, 0x03, 0x1C, 0xDB] :=
  ⟨⟨rfl, rfl, rfl, rfl⟩, by decide, by decide⟩

end Sys2Proof.Tests
end

