-- ==== Sys2Proof/Proofs/Dispatch.lean ====
section
/-! Which move `step` makes, and that the word standing where the move is read is decoded and executed (00_scope R13, 10_state R25,
30_encoding R103). -/

namespace Sys2Proof.Machine

open Sys2Proof

/-! ## Who moves next -/

theorem busy_eq_false_iff {s : State} : busy s = false ↔ s.phase = .idle := by simp [busy]

theorem busy_eq_true_iff {s : State} : busy s = true ↔ s.phase ≠ .idle := by simp [busy]

theorem waitsForIdle_word_eq_false_iff {p : Source} {bs : List Byte} :
    (Event.word p bs).waitsForIdle = false ↔ p = .link := by
  cases p <;> simp [Event.waitsForIdle]

theorem step_of_agenda_nil {s : State} (ha : s.agenda = []) : step s = engineTurn s := by
  simp [step, nextMove, ha]

/-- The head of the agenda moves in Idle, and in every phase if it does not wait (R103). -/
theorem step_of_agenda_head {s : State} {e : Event} {rest : List Event} (ha : s.agenda = e :: rest)
    (h : s.phase = .idle ∨ e.waitsForIdle = false) : step s = moveOf e { s with agenda := rest } := by
  have hgo : (busy s && e.waitsForIdle) = false := by
    rw [Bool.and_eq_false_iff, busy_eq_false_iff]; exact h
  simp [step, nextMove, ha, hgo]

/-- A waiting head leaves the turn to the running engine (R103). -/
theorem step_of_agenda_waiting {s : State} {e : Event} {rest : List Event} (ha : s.agenda = e :: rest)
    (hw : e.waitsForIdle = true) (hp : s.phase ≠ .idle) : step s = engineTurn s := by
  simp [step, nextMove, ha, hw, busy_eq_true_iff.mpr hp]

/-! ## What a move runs -/

theorem runWord_of_decode_ok {slot : Slot} {bs : List Byte} {i : Instr} (h : decode slot bs = .ok i) (s : State) :
    runWord slot bs s = exec i s := by
  simp [runWord, h]

theorem moveOf_word_of_decode_ok {p : Source} {bs : List Byte} {i : Instr} (h : decode (.port p) bs = .ok i)
    (s : State) : moveOf (.word p bs) s = exec i s := by
  cases p with
  | link => simp [moveOf, runLink, h]
  | _ => exact runWord_of_decode_ok h s

theorem moveOf_start_of_decode_ok {w : DescWord} {i : Instr} (h : decode (.seq (.start w)) [0] = .ok i) (s : State) :
    moveOf (.start w) s = exec i s :=
  runWord_of_decode_ok h s

theorem engineTurn_of_decode_ok {s : State} {c : Cond} {i : Instr} (hc : selectCond s = some c)
    (h : decode (.seq c) (phaseWord s) = .ok i) : engineTurn s = exec i s := by
  simp only [engineTurn, hc]
  exact runWord_of_decode_ok h s

/-! ## The engine's turn does not read the agenda -/

@[simp] theorem selectCond_with_agenda (s : State) (rest : List Event) :
    selectCond { s with agenda := rest } = selectCond s := rfl

@[simp] theorem phaseWord_with_agenda (s : State) (rest : List Event) :
    phaseWord { s with agenda := rest } = phaseWord s := rfl

theorem phase_ne_idle_of_selectCond {s : State} {c : Cond} (hc : selectCond s = some c) : s.phase ≠ .idle := by
  intro hp
  simp [selectCond, hp] at hc

/-! ## A step runs the decoded instruction -/

theorem step_runs_port_word {s : State} {rest : List Event} {i : Instr} {p : Source} {bs : List Byte}
    (ha : s.agenda = .word p bs :: rest) (hd : decode (.port p) bs = .ok i) (hp : s.phase = .idle ∨ p = .link) :
    step s = exec i { s with agenda := rest } := by
  rw [step_of_agenda_head ha (hp.imp_right waitsForIdle_word_eq_false_iff.mpr)]
  exact moveOf_word_of_decode_ok hd _

theorem step_runs_start {s : State} {rest : List Event} {i : Instr} {w : DescWord} (ha : s.agenda = .start w :: rest)
    (hd : decode (.seq (.start w)) [0] = .ok i) : step s = exec i { s with agenda := rest } := by
  rw [step_of_agenda_head ha (.inr rfl)]
  exact moveOf_start_of_decode_ok hd _

theorem step_runs_selected_on_tick {s : State} {rest : List Event} {i : Instr} {c : Cond} (ha : s.agenda = .tick :: rest)
    (hc : selectCond s = some c) (hd : decode (.seq c) (phaseWord s) = .ok i) :
    step s = exec i { s with agenda := rest } := by
  rw [step_of_agenda_head ha (.inr rfl)]
  exact engineTurn_of_decode_ok (by simpa using hc) (by simpa using hd)

theorem step_runs_selected_unprompted {s : State} {rest : List Event} {i : Instr} {c : Cond}
    (ha : s.agenda = [] ∨ ∃ e, s.agenda = e :: rest ∧ e.waitsForIdle = true) (hc : selectCond s = some c)
    (hd : decode (.seq c) (phaseWord s) = .ok i) : step s = exec i s := by
  have hturn : step s = engineTurn s := by
    obtain hnil | ⟨e, hcons, hw⟩ := ha
    · exact step_of_agenda_nil hnil
    · exact step_of_agenda_waiting hcons hw (phase_ne_idle_of_selectCond hc)
  rw [hturn, engineTurn_of_decode_ok hc hd]

/-- Bytes on the link arrive, in every phase and whatever they decode to (R56, R60). -/
theorem step_link_word {s : State} {rest : List Event} {bs : List Byte} (ha : s.agenda = .word .link bs :: rest) :
    step s = .next (deliverAll bs { s with agenda := rest }) := by
  rw [step_of_agenda_head ha (.inr rfl)]
  exact runLink_eq bs _

/-- Settles O47: one lemma for each slot `step` reads. -/
theorem stepRunsDecodedInstruction : Obligations.StepRunsDecodedInstruction := by
  intro s rest i
  exact ⟨fun _ _ => step_runs_port_word, fun _ => step_runs_start, fun _ => step_runs_selected_on_tick,
    fun _ => step_runs_selected_unprompted, fun _ _ ha _ => step_link_word ha⟩

end Sys2Proof.Machine
end

