-- ==== Sys2Proof/Proofs/StepCases.lean ====
section
/-! Everything one step can do (00_scope R13, 10_state R25, 30_encoding R103): one inversion lemma for each operation the host or the
outside world can cause, and from them the cases of `step`. -/

namespace Sys2Proof.Machine

open Sys2Proof

/-! ## What T_SEND, T_BODY and BIND leave unchanged -/

section Fields
variable (s : State)

@[simp] theorem afterSend_phase : (afterSend s).phase = .sent := rfl
@[simp] theorem afterSend_cfg : (afterSend s).cfg = s.cfg := rfl
@[simp] theorem afterSend_agenda : (afterSend s).agenda = s.agenda := rfl

@[simp] theorem bindSession_phase (arg : Byte) : (bindSession arg s).phase = s.phase := by
  unfold bindSession; split <;> rfl
@[simp] theorem bindSession_cfg (arg : Byte) : (bindSession arg s).cfg = s.cfg := by
  unfold bindSession; split <;> rfl

/-- The outcome of T_BODY is `Ok` or CorruptReply, and it touches only the result registers and the phase (R160). -/
theorem bodyOutcome_frame (r : Option (List Byte)) : ∃ st n p, (st = .ok ∨ st = .corruptReply) ∧
    bodyOutcome r s = { s with status := st, rplen := n, rpay := p, phase := .validated } := by
  cases r with
  | some pl => exact ⟨.ok, _, _, .inl rfl, rfl⟩
  | none => exact ⟨.corruptReply, s.rplen, s.rpay, .inr rfl, rfl⟩

end Fields

/-! ## Accepted and ignored starts -/

theorem acceptsSend_iff {d : Args} {s : State} :
    acceptsSend d s = true ↔ s.phase = .idle ∧ s.opened = true ∧ d.plen.toNat ≤ 6 := by
  simp [acceptsSend, and_assoc]

theorem acceptsBind_iff {s : State} : acceptsBind s = true ↔ s.phase = .idle ∧ s.opened = false := by
  simp [acceptsBind]

theorem acceptsClose_iff {s : State} : acceptsClose s = true ↔ s.phase = .idle ∧ s.opened = true := by
  simp [acceptsClose]

/-- An accepted start of a send (R150, R151): the operation it begins and the state that one begins in. -/
inductive Started (d : Args) (s : State) : OpCode → State → Prop where
  | request (hacc : acceptsSend d s = true) : Started d s .requestReply (startRequest d s)
  | write (hacc : acceptsSend d s = true) : Started d s .writeCommand (afterSend (latch .writeCommand d s))

theorem Started.accepts {d : Args} {s t : State} {o : OpCode} (h : Started d s o t) : acceptsSend d s = true := by
  cases h <;> assumption

theorem startWrite_eq {d : Args} {s : State} (hacc : acceptsSend d s = true) :
    startWrite d s = .next (afterSend (latch .writeCommand d s)) := by
  obtain ⟨-, -, hn⟩ := acceptsSend_iff.mp hacc
  exact sendAndGo_eq hn

theorem execTBind_cases {arg : Byte} {s t : State} (h : execTBind arg s = .next t) :
    t = s ∨ acceptsBind s = true ∧ t = bindSession arg s := by
  unfold execTBind at h
  split at h
  case isTrue hacc => cases h; exact .inr ⟨hacc, rfl⟩
  case isFalse => cases h; exact .inl rfl

theorem execTClose_cases {s t : State} (h : execTClose s = .next t) :
    t = s ∨ acceptsClose s = true ∧ t = closeSession s := by
  unfold execTClose at h
  split at h
  case isTrue hacc => cases h; exact .inr ⟨hacc, rfl⟩
  case isFalse => cases h; exact .inl rfl

theorem execTStartReq_cases {d : Args} {s t : State} (h : execTStartReq d s = .next t) :
    t = s ∨ Started d s .requestReply t := by
  unfold execTStartReq at h
  split at h
  case isTrue hacc => cases h; exact .inr (.request hacc)
  case isFalse => cases h; exact .inl rfl

theorem execTStartWr_cases {d : Args} {s t : State} (h : execTStartWr d s = .next t) :
    t = s ∨ Started d s .writeCommand t := by
  unfold execTStartWr at h
  split at h
  case isTrue hacc => rw [startWrite_eq hacc] at h; cases h; exact .inr (.write hacc)
  case isFalse => cases h; exact .inl rfl

/-! ## Blocking calls -/

/-- A blocking call that was accepted (R131, R132): its start, and the run to the end that follows. -/
def Called (d : Args) (s t : State) : Prop := ∃ o u, Started d s o u ∧ runToIdle (callFuel s) u = .next t

theorem writeCall_cases {d : Args} {s t : State} (h : writeCall d s = .next t) : t = s ∨ Called d s t := by
  unfold writeCall at h
  split at h
  case isTrue hacc => rw [startWrite_eq hacc] at h; exact .inr ⟨_, _, .write hacc, h⟩
  case isFalse => cases h; exact .inl rfl

theorem execRequestReply_cases {d : Args} {s t : State} (h : execRequestReply d s = .next t) : t = s ∨ Called d s t := by
  unfold execRequestReply at h
  split at h
  case isTrue hacc => exact .inr ⟨_, _, .request hacc, h⟩
  case isFalse => cases h; exact .inl rfl

theorem runToIdle_succ_cases {fuel : Nat} {s t : State} (h : runToIdle (fuel + 1) s = .next t) :
    s.phase = .idle ∧ t = s ∨ s.phase ≠ .idle ∧ ∃ u, busyStep s = .next u ∧ runToIdle fuel u = .next t := by
  unfold runToIdle at h
  split at h
  case h_1 hp => cases h; exact .inl ⟨hp, rfl⟩
  case h_2 hp =>
    split at h
    case h_1 u hu => exact .inr ⟨hp, u, hu, h⟩
    case h_2 => cases h
    case h_3 => cases h

/-- A run with fuel for all its moves ends in Idle (R164). -/
theorem runToIdle_phase {fuel : Nat} {s t : State} (hle : turnsLeft s + s.agenda.length ≤ fuel)
    (h : runToIdle fuel s = .next t) : t.phase = .idle := by
  induction fuel generalizing s with
  | zero =>
    obtain rfl : s = t := by injection h
    cases hp : s.phase <;> simp [turnsLeft, hp] at hle ⊢
  | succ fuel ih =>
    obtain ⟨hp, rfl⟩ | ⟨hp, u, hu, hr⟩ := runToIdle_succ_cases h
    · exact hp
    · obtain ⟨hlt, -⟩ := move_decreases (move_of_busyStep hu) hp
      exact ih (by omega) hr

/-- `callFuel` covers the moves of an accepted call (R164). -/
theorem Started.turnsLeft_le {d : Args} {s t : State} {o : OpCode} (h : Started d s o t) :
    turnsLeft t + t.agenda.length ≤ callFuel s := by
  cases h <;> simp [turnsLeft, callFuel] <;> omega

theorem Called.phase {d : Args} {s t : State} (h : Called d s t) : t.phase = .idle := by
  obtain ⟨o, u, hstart, hrun⟩ := h
  exact runToIdle_phase hstart.turnsLeft_le hrun

/-- What an accepted start establishes and every move keeps holds at the end of the call. -/
theorem Called.keeps {d : Args} {s t : State} {P : State → Prop} (hstart : ∀ o u, Started d s o u → P u)
    (hmove : ∀ u v, P u → Move u v → P v) (h : Called d s t) : P t := by
  obtain ⟨o, u, hs, hrun⟩ := h
  exact runToIdle_keeps (fun u v hu _ => hmove u v hu) _ _ _ (hstart o u hs) hrun

/-! ## Events -/

/-- The event carries a BIND of this address: as a start pulse, or as a host's line (R101, R130). -/
def Event.Binds (e : Event) (arg : Byte) : Prop :=
  (∃ w : DescWord, e = .start w ∧ descOp w = .bind ∧ w.byte1 = arg) ∨
  (∃ bs, e = .word .host bs ∧ decode (.port .host) bs = .ok (.bind arg))

/-- What an event can do once it is taken from the agenda. -/
inductive Effect (s : State) : Event → State → Prop where
  | tick {t : State} (h : Turn s t) : Effect s .tick t
  | deliver (b : Byte) : Effect s (.deliver b) (deliver b s)
  | link (bs : List Byte) : Effect s (.word .link bs) (deliverAll bs s)
  | chanOk (v : Bool) : Effect s (.chanOk v) { s with chanOk := v }
  | reset : Effect s .reset (applyReset s)
  | ignored (e : Event) : Effect s e s
  | bind {e : Event} {arg : Byte} (hb : e.Binds arg) (hacc : acceptsBind s = true) : Effect s e (bindSession arg s)
  | close (e : Event) (hacc : acceptsClose s = true) : Effect s e (closeSession s)
  | start {w : DescWord} {t : State} (h : Started (descArgs w) s (descOp w) t) : Effect s (.start w) t
  | call {e : Event} {d : Args} {t : State} (hw : e.waitsForIdle = true) (h : Called d s t) : Effect s e t
  | codec (e : Event) (o : CodecOut) : Effect s e (setCodecOut o s)

theorem effect_of_start {w : DescWord} {s t : State} (h : moveOf (.start w) s = .next t) : Effect s (.start w) t := by
  have hexec : exec (decodeStart w) s = .next t := h
  cases ho : descOp w with
  | bind =>
    rw [decodeStart, ho] at hexec
    obtain rfl | ⟨hacc, rfl⟩ := execTBind_cases hexec
    · exact .ignored _
    · exact .bind (.inl ⟨w, rfl, ho, rfl⟩) hacc
  | close =>
    rw [decodeStart, ho] at hexec
    obtain rfl | ⟨hacc, rfl⟩ := execTClose_cases hexec
    · exact .ignored _
    · exact .close _ hacc
  | requestReply =>
    rw [decodeStart, ho] at hexec
    obtain rfl | hs := execTStartReq_cases hexec
    · exact .ignored _
    · exact .start (ho ▸ hs)
  | writeCommand =>
    rw [decodeStart, ho] at hexec
    obtain rfl | hs := execTStartWr_cases hexec
    · exact .ignored _
    · exact .start (ho ▸ hs)

/-! ### The host's lines -/

theorem effect_of_requestReply {e : Event} {d : Args} {s t : State} (hw : e.waitsForIdle = true)
    (h : execRequestReply d s = .next t) : Effect s e t := by
  obtain rfl | hc := execRequestReply_cases h
  · exact .ignored _
  · exact .call hw hc

theorem effect_of_writeCall {e : Event} {d : Args} {s t : State} (hw : e.waitsForIdle = true)
    (h : writeCall d s = .next t) : Effect s e t := by
  obtain rfl | hc := writeCall_cases h
  · exact .ignored _
  · exact .call hw hc

theorem runWord_next {slot : Slot} {bs : List Byte} {s t : State} (h : runWord slot bs s = .next t) :
    ∃ i, decode slot bs = .ok i ∧ exec i s = .next t := by
  cases hd : decode slot bs with
  | ok i => exact ⟨i, rfl, by rwa [runWord_of_decode_ok hd] at h⟩
  | error e => simp [runWord, hd] at h

theorem decode_host_ok {bs : List Byte} {i : Instr} (h : decode (.port .host) bs = .ok i) : ∃ w, i = decodeDesc w := by
  simp only [decode] at h
  split at h
  case h_1 w _ => cases h; exact ⟨w, rfl⟩
  case h_2 => cases h

theorem effect_of_hostLine {bs : List Byte} {s t : State} (h : moveOf (.word .host bs) s = .next t) :
    Effect s (.word .host bs) t := by
  obtain ⟨i, hd, hexec⟩ := runWord_next h
  obtain ⟨w, rfl⟩ := decode_host_ok hd
  cases ho : descOp w with
  | bind =>
    rw [decodeDesc, ho] at hexec hd
    obtain rfl | ⟨hacc, rfl⟩ := execTBind_cases hexec
    · exact .ignored _
    · exact .bind (.inr ⟨bs, rfl, hd⟩) hacc
  | close =>
    rw [decodeDesc, ho] at hexec
    obtain rfl | ⟨hacc, rfl⟩ := execTClose_cases hexec
    · exact .ignored _
    · exact .close _ hacc
  | requestReply =>
    rw [decodeDesc, ho] at hexec
    exact effect_of_requestReply rfl hexec
  | writeCommand =>
    rw [decodeDesc, ho] at hexec
    exact effect_of_writeCall rfl hexec

theorem decodeCatalogue_ok {bs : List Byte} {i : Instr} (h : decodeCatalogue bs = .ok i) :
    ∃ pos time, i = .moveTimeWrite pos time := by
  unfold decodeCatalogue at h
  repeat' split at h
  all_goals cases h
  exact ⟨_, _, rfl⟩

theorem effect_of_catalogueLine {bs : List Byte} {s t : State} (h : moveOf (.word .catalogue bs) s = .next t) :
    Effect s (.word .catalogue bs) t := by
  obtain ⟨i, hd, hexec⟩ := runWord_next h
  obtain ⟨pos, time, rfl⟩ := decodeCatalogue_ok hd
  exact effect_of_writeCall rfl hexec

theorem expandRow_some {row : Config.CatRow} {values : List Nat} {i : Instr} (h : expandRow row values = some i) :
    ∃ d, i = .writeCommand d ∨ i = .requestReply d := by
  simp only [expandRow] at h
  repeat' split at h
  all_goals cases h
  · exact ⟨_, .inl rfl⟩
  · exact ⟨_, .inr rfl⟩

theorem runWrapper_next {cmd : Byte} {values : List Nat} {s t : State} (h : runWrapper cmd values s = .next t) :
    ∃ row i, expandRow row values = some i ∧ exec i s = .next t := by
  unfold runWrapper at h
  split at h
  case h_1 => cases h
  case h_2 row _ =>
    split at h
    case h_1 => cases h
    case h_2 i hi => exact ⟨row, i, hi, h⟩

theorem effect_of_wrapper {cmd : Byte} {values : List Nat} {s t : State} (h : moveOf (.wrapper cmd values) s = .next t) :
    Effect s (.wrapper cmd values) t := by
  obtain ⟨row, i, hi, hexec⟩ := runWrapper_next h
  obtain ⟨d, rfl | rfl⟩ := expandRow_some hi
  · exact effect_of_writeCall rfl hexec
  · exact effect_of_requestReply rfl hexec

/-! ### The codec's words -/

theorem decode_checksumFn_ok {bs : List Byte} {i : Instr} (h : decode (.port .checksumFn) bs = .ok i) :
    ∃ covered, i = .checksum covered := by
  cases hc : coveredOfFrame bs with
  | ok covered => simp only [decode, hc] at h; cases h; exact ⟨covered, rfl⟩
  | error e => simp only [decode, hc] at h; cases h

theorem decode_encodeFn_ok {bs : List Byte} {i : Instr} (h : decode (.port .encodeFn) bs = .ok i) :
    ∃ a c pl, i = .encodeFrame a c pl := by
  cases hc : coveredOfFrame bs with
  | error e => simp only [decode, hc] at h; cases h
  | ok covered =>
    have hcov : encodeOfCovered covered = .ok i := by simp only [decode, hc] at h; exact h
    unfold encodeOfCovered at hcov
    split at hcov
    case h_1 a _ c pl => cases hcov; exact ⟨a, c, pl, rfl⟩
    case h_2 => cases hcov

theorem execEncodeFrame_next {a c : Byte} {pl : List Byte} {s t : State} (h : execEncodeFrame a c pl s = .next t) :
    ∃ o, t = setCodecOut o s := by
  unfold execEncodeFrame at h
  split at h
  case isTrue => cases h; exact ⟨_, rfl⟩
  case isFalse => cases h

theorem execDecodeValidate_next {raw : List Byte} {c l : Byte} {s t : State} (h : execDecodeValidate raw c l s = .next t) :
    ∃ o, t = setCodecOut o s := by
  unfold execDecodeValidate at h
  split at h
  all_goals cases h; exact ⟨_, rfl⟩

theorem effect_of_checksumWord {bs : List Byte} {s t : State} (h : moveOf (.word .checksumFn bs) s = .next t) :
    Effect s (.word .checksumFn bs) t := by
  obtain ⟨i, hd, hexec⟩ := runWord_next h
  obtain ⟨covered, rfl⟩ := decode_checksumFn_ok hd
  cases hexec
  exact .codec _ _

theorem effect_of_encodeWord {bs : List Byte} {s t : State} (h : moveOf (.word .encodeFn bs) s = .next t) :
    Effect s (.word .encodeFn bs) t := by
  obtain ⟨i, hd, hexec⟩ := runWord_next h
  obtain ⟨a, c, pl, rfl⟩ := decode_encodeFn_ok hd
  obtain ⟨o, rfl⟩ := execEncodeFrame_next hexec
  exact .codec _ o

theorem effect_of_validateWord {c l : Byte} {bs : List Byte} {s t : State}
    (h : moveOf (.word (.validateFn c l) bs) s = .next t) : Effect s (.word (.validateFn c l) bs) t := by
  obtain ⟨o, rfl⟩ := execDecodeValidate_next (raw := bs) (c := c) (l := l) h
  exact .codec _ o

/-! ## The cases of a step -/

theorem turn_of_engineTurn {s t : State} (h : engineTurn s = .next t) : Turn s t :=
  turn_of_engineStep (engineTurn_eq_engineStep s ▸ h)

theorem effect_of_moveOf {e : Event} {s t : State} (h : moveOf e s = .next t) : Effect s e t := by
  cases e with
  | tick => exact .tick (turn_of_engineTurn h)
  | deliver b => cases h; exact .deliver b
  | chanOk v => cases h; exact .chanOk v
  | reset => cases h; exact .reset
  | start w => exact effect_of_start h
  | wrapper cmd values => exact effect_of_wrapper h
  | word p bs =>
    cases p with
    | link =>
      have hlink : runLink bs s = .next t := h
      rw [runLink_eq] at hlink
      cases hlink
      exact .link bs
    | host => exact effect_of_hostLine h
    | catalogue => exact effect_of_catalogueLine h
    | checksumFn => exact effect_of_checksumWord h
    | encodeFn => exact effect_of_encodeWord h
    | validateFn c l => exact effect_of_validateWord h

theorem effect_of_step {s t : State} {e : Event} {rest : List Event} (ha : s.agenda = e :: rest)
    (hgo : s.phase = .idle ∨ e.waitsForIdle = false) (h : step s = .next t) : Effect { s with agenda := rest } e t :=
  effect_of_moveOf (by rwa [step_of_agenda_head ha hgo] at h)

/-- A step is a turn of the engine, or takes the head of the agenda and has its effect. -/
theorem step_cases {s t : State} (h : step s = .next t) :
    Turn s t ∨ ∃ e rest, s.agenda = e :: rest ∧ Effect { s with agenda := rest } e t := by
  cases ha : s.agenda with
  | nil => exact .inl (turn_of_engineTurn (by rwa [step_of_agenda_nil ha] at h))
  | cons e rest =>
    by_cases hgo : s.phase = .idle ∨ e.waitsForIdle = false
    · exact .inr ⟨e, rest, rfl, effect_of_step ha hgo h⟩
    · obtain ⟨hp, hw⟩ := not_or.mp hgo
      exact .inl (turn_of_engineTurn (by rwa [step_of_agenda_waiting ha (Bool.eq_true_of_not_eq_false hw) hp] at h))

end Sys2Proof.Machine
end

