-- ==== Sys2Proof/Proofs/Invariant.lean ====
section
/-! The invariant of 10_state R20 and R24 to R33: it holds after reset, every step keeps it, and no payload is read beside a failure. -/

namespace Sys2Proof.Machine

open Sys2Proof Sys2Proof.Safety

/-! ## What the conjuncts of the invariant rest on -/

theorem queueOk_iff {s : State} : QueueOk s ↔ ∀ d, s.cfg.rxfifoDepth = some d → s.rxq.length ≤ d := by
  unfold QueueOk
  cases s.cfg.rxfifoDepth <;> simp

/-- A queue that does not grow stays within its depth. -/
theorem queueOk_of_length_le {s t : State} (hcfg : t.cfg = s.cfg) (hle : t.rxq.length ≤ s.rxq.length) (h : QueueOk s) :
    QueueOk t :=
  queueOk_iff.mpr fun d hd => hle.trans (queueOk_iff.mp h d (hcfg ▸ hd))

theorem one_le_pollBound {c : Config} (h : c.wf = true) : 1 ≤ c.pollBound := by
  simp only [Config.wf, Bool.and_eq_true, decide_eq_true_eq] at h
  obtain ⟨hbound, -⟩ := h
  exact hbound

/-- What both waiting phases promise (R24 to R32): an open request without a result, polled less often than the bound. -/
theorem waiting_promises {s : State} (h : PhaseOk s) (hp : s.phase = .awaitingHeader ∨ s.phase = .awaitingBody) :
    Running s ∧ s.status = .none ∧ s.op = .requestReply ∧ s.pollCnt < s.cfg.pollBound := by
  obtain hp | hp := hp
  · simp only [PhaseOk, hp] at h
    obtain ⟨hrun, hst, hop, -, -, hlt⟩ := h
    exact ⟨hrun, hst, hop, hlt⟩
  · simp only [PhaseOk, hp] at h
    obtain ⟨hrun, hst, hop, -, -, hlt⟩ := h
    exact ⟨hrun, hst, hop, hlt⟩

theorem pollCnt_lt_of_waiting {s : State} (h : PhaseOk s) (hp : s.phase = .awaitingHeader ∨ s.phase = .awaitingBody) :
    s.pollCnt < s.cfg.pollBound := by
  obtain ⟨-, -, -, hlt⟩ := waiting_promises h hp
  exact hlt

/-- A missed poll below the bound leaves the promises of its phase (R158, R161). -/
theorem countMiss_phaseOk {s : State} (h : PhaseOk s) (hp : s.phase = .awaitingHeader ∨ s.phase = .awaitingBody)
    (hc : s.pollCnt + 1 < s.cfg.pollBound) : PhaseOk (countMiss s) := by
  obtain hp | hp := hp
  · simp only [PhaseOk, countMiss_phase, hp] at h ⊢
    obtain ⟨hrun, hst, hop, hcnt, hneed, -⟩ := h
    exact ⟨hrun, hst, hop, hcnt, hneed, hc⟩
  · simp only [PhaseOk, countMiss_phase, hp] at h ⊢
    obtain ⟨hrun, hst, hop, hcnt, hneed, -⟩ := h
    exact ⟨hrun, hst, hop, hcnt, hneed, hc⟩

/-- A timeout raised while waiting meets the promises of Validated (R159, R162, R196). -/
theorem timeout_phaseOk {s : State} {f : Status} (h : PhaseOk s)
    (hp : s.phase = .awaitingHeader ∨ s.phase = .awaitingBody) (hf : f = .headerTimeout ∨ f = .bodyTimeout) :
    PhaseOk (raise f (countMiss s)) := by
  obtain ⟨hrun, -, hop, -⟩ := waiting_promises h hp
  obtain rfl | rfl := hf <;> exact ⟨hrun, by simp, by simp, .inr hop⟩

/-- What T_BODY publishes has at most 6 bytes (R33, R160). -/
theorem bodyOutcome_rplen_le {s t : State} (h : t.rplen.toNat ≤ 6) : (bodyOutcome (bodyVerdict s) t).rplen.toNat ≤ 6 := by
  cases hv : bodyVerdict s with
  | none => exact h
  | some pl =>
    have hpl : pl.length ≤ 6 := decodeAndValidate_length hv
    simp only [bodyOutcome, BitVec.toNat_ofNat]
    omega

/-! ## A turn of the engine -/

theorem turn_cfg {s t : State} (h : Turn s t) : t.cfg = s.cfg := by
  cases h with
  | body => exact bodyOutcome_cfg _ _
  | _ => rfl

theorem afterSend_buffersOk {s : State} (h : BuffersOk s) (hn : s.plen.toNat ≤ 6) : BuffersOk (afterSend s) := by
  obtain ⟨htwf, htin, hrwf, hrin⟩ := h
  have hlen := encode_payload_length (sendAddr s) s.cmd s.pay hn
  exact ⟨Memory.writeBlock_wf htwf 0 _, Memory.writeBlock_within htin (by simp only [Config.frameMax]; omega), hrwf, hrin⟩

theorem turn_buffersOk {s t : State} (h : Turn s t) (hb : BuffersOk s) : BuffersOk t := by
  have ⟨htwf, htin, hrwf, hrin⟩ := hb
  cases h with
  | send _ hn => exact afterSend_buffersOk hb hn
  | header =>
    refine ⟨htwf, htin, Memory.writeBlock_wf hrwf 0 _, Memory.writeBlock_within hrin ?_⟩
    simp only [List.length_take, Config.rxbufCap]; omega
  | body _ _ hn =>
    obtain ⟨st, n, p, -, hout⟩ := bodyOutcome_frame (afterBodyRead s) (bodyVerdict s)
    rw [hout]
    refine ⟨htwf, htin, Memory.writeBlock_wf hrwf 4 _, Memory.writeBlock_within hrin ?_⟩
    simp only [List.length_take, Config.rxbufCap]; omega
  | _ => exact hb

/-- Of the engine's steps only the reads touch the queue, and they shorten it (R53). -/
theorem turn_rxq_length_le {s t : State} (h : Turn s t) : t.rxq.length ≤ s.rxq.length := by
  cases h with
  | header => simp [afterHeader]
  | body =>
    obtain ⟨st, n, p, -, hout⟩ := bodyOutcome_frame (afterBodyRead s) (bodyVerdict s)
    rw [hout]; exact (List.drop_sublist _ _).length_le
  | _ => exact le_rfl

theorem turn_rplen_le {s t : State} (h : Turn s t) (hr : s.rplen.toNat ≤ 6) : t.rplen.toNat ≤ 6 := by
  cases h with
  | body => exact bodyOutcome_rplen_le hr
  | _ => exact hr

theorem turn_pollCnt_le {s t : State} (h : Turn s t) (hc : s.pollCnt ≤ s.cfg.pollBound) (hph : PhaseOk s) :
    t.pollCnt ≤ s.cfg.pollBound := by
  cases h with
  | arm => exact Nat.zero_le _
  | header => exact Nat.zero_le _
  | headerMiss hp => exact pollCnt_lt_of_waiting hph (.inl hp)
  | headerTimeout hp => exact pollCnt_lt_of_waiting hph (.inl hp)
  | body =>
    obtain ⟨st, n, p, -, hout⟩ := bodyOutcome_frame (afterBodyRead s) (bodyVerdict s)
    rw [hout]; exact hc
  | bodyMiss hp => exact pollCnt_lt_of_waiting hph (.inr hp)
  | bodyTimeout hp => exact pollCnt_lt_of_waiting hph (.inr hp)
  | _ => exact hc

/-- The promises of each phase lead to those of the next (R25 to R32). -/
theorem turn_phaseOk {s t : State} (h : Turn s t) (hcfg : s.cfg.wf = true) (hph : PhaseOk s) : PhaseOk t := by
  have hbound := one_le_pollBound hcfg
  cases h with
  | idle => exact hph
  | send hp hn =>
    simp only [PhaseOk, hp] at hph
    obtain ⟨hrun, hst, hop, hcnt⟩ := hph
    exact ⟨hrun, hst, txlen_toNat hn, .inr ⟨hop, hcnt⟩⟩
  | writeDone hp ho =>
    simp only [PhaseOk, hp] at hph
    obtain ⟨hrun, -, -, -⟩ := hph
    exact ⟨hrun, by simp, by simp, .inl ⟨ho, rfl⟩⟩
  | arm hp ho =>
    simp only [PhaseOk, hp, ho] at hph
    obtain ⟨hrun, hst, -, hop⟩ := hph
    exact ⟨hrun, hst, ho, by simpa using hop, rfl, hbound⟩
  | header hp =>
    obtain ⟨hrun, hst, hop, -⟩ := waiting_promises hph (.inl hp)
    exact ⟨hrun, hst, hop, rfl, rfl, hbound⟩
  | headerMiss hp _ hc => exact countMiss_phaseOk hph (.inl hp) hc
  | headerTimeout hp => exact timeout_phaseOk hph (.inl hp) (.inl rfl)
  | body hp =>
    obtain ⟨hrun, -, hop, -⟩ := waiting_promises hph (.inr hp)
    obtain ⟨st, n, p, hst, hout⟩ := bodyOutcome_frame (afterBodyRead s) (bodyVerdict s)
    rw [hout]
    obtain rfl | rfl := hst <;> exact ⟨hrun, by simp, by simp, .inr hop⟩
  | bodyMiss hp _ hc => exact countMiss_phaseOk hph (.inr hp) hc
  | bodyTimeout hp => exact timeout_phaseOk hph (.inr hp) (.inr rfl)
  | retire hp =>
    simp only [PhaseOk, hp] at hph
    obtain ⟨-, hst, -, -⟩ := hph
    exact iff_of_true rfl hst

theorem turn_inv {s t : State} (h : Turn s t) (hs : Inv s) : Inv t := by
  obtain ⟨hcfg, hbuf, hq, hrplen, hcnt, hph⟩ := hs
  have hc := turn_cfg h
  exact ⟨hc ▸ hcfg, turn_buffersOk h hbuf, queueOk_of_length_le hc (turn_rxq_length_le h) hq, turn_rplen_le h hrplen,
    hc ▸ turn_pollCnt_le h hcnt hph, turn_phaseOk h hcfg hph⟩

/-! ## The outside world -/

/-- The invariant speaks neither of the agenda nor of the input `chan_ok`. -/
theorem inv_with_inputs {s : State} (v : Bool) (rest : List Event) :
    Inv { s with chanOk := v, agenda := rest } ↔ Inv s := Iff.rfl

theorem inv_with_agenda {s : State} (rest : List Event) : Inv { s with agenda := rest } ↔ Inv s := Iff.rfl

theorem inv_with_codecOut {s : State} (o : CodecOut) : Inv (setCodecOut o s) ↔ Inv s := Iff.rfl

/-- Whatever arrives, the queue stays within its depth (R55, R56). -/
theorem inv_arrivals {s : State} (bs : List Byte) (h : Inv s) :
    Inv { s with rxq := rxAppendAll s.cfg.rxfifoDepth s.rxq bs } := by
  obtain ⟨hcfg, hbuf, hq, hrplen, hcnt, hph⟩ := h
  refine ⟨hcfg, hbuf, queueOk_iff.mpr fun d hd => ?_, hrplen, hcnt, hph⟩
  have hlen := queueOk_iff.mp hq d hd
  have hd' : s.cfg.rxfifoDepth = some d := hd
  simpa only [hd'] using rxAppendAll_length_le hlen bs

/-- Reset sets the engine's part of the invariant anew, and what the queue then holds fits its depth (R220, R221). -/
theorem inv_applyReset {s : State} (h : Inv s) : Inv (applyReset s) := by
  obtain ⟨hcfg, -⟩ := h
  refine ⟨hcfg, ⟨rfl, rfl, rfl, rfl⟩, queueOk_iff.mpr fun d hd => ?_, Nat.zero_le _, Nat.zero_le _,
    iff_of_false (by simp) (by simp)⟩
  have hd' : s.cfg.rxfifoDepth = some d := hd
  simpa only [applyReset_rxq, hd'] using clipToDepth_length_le d _

/-! ## Starts and calls -/

theorem bindSession_inv {s : State} {arg : Byte} (hacc : acceptsBind s = true) (h : Inv s) : Inv (bindSession arg s) := by
  obtain ⟨hp, -⟩ := acceptsBind_iff.mp hacc
  obtain ⟨hcfg, hbuf, hq, hrplen, hcnt, -⟩ := h
  unfold bindSession
  split
  all_goals
    refine ⟨hcfg, hbuf, hq, hrplen, hcnt, ?_⟩
    simp [PhaseOk, hp]

theorem closeSession_inv {s : State} (hacc : acceptsClose s = true) (h : Inv s) : Inv (closeSession s) := by
  obtain ⟨hp, -⟩ := acceptsClose_iff.mp hacc
  obtain ⟨hcfg, hbuf, hq, hrplen, hcnt, -⟩ := h
  exact ⟨hcfg, hbuf, hq, hrplen, hcnt, by simp [PhaseOk, hp]⟩

/-- An accepted start leads into a phase whose promises hold (R150, R151). -/
theorem Started.inv {d : Args} {s t : State} {o : OpCode} (h : Started d s o t) (hs : Inv s) : Inv t := by
  obtain ⟨-, hopen, hplen⟩ := acceptsSend_iff.mp h.accepts
  obtain ⟨hcfg, hbuf, hq, hrplen, hcnt, -⟩ := hs
  have hrun : Running (latch o d s) := ⟨hopen, rfl, hplen⟩
  cases h with
  | request => exact ⟨hcfg, hbuf, queueOk_of_length_le (s := s) rfl (Nat.zero_le _) hq, hrplen, hcnt, hrun, rfl, rfl, rfl⟩
  | write =>
    have hbuf' : BuffersOk (afterSend (latch .writeCommand d s)) := afterSend_buffersOk (s := latch .writeCommand d s) hbuf hplen
    exact ⟨hcfg, hbuf', hq, hrplen, hcnt, hrun, rfl, txlen_toNat hplen, .inl rfl⟩

theorem move_inv {s t : State} (h : Move s t) (hs : Inv s) : Inv t := by
  cases h with
  | turn h => exact turn_inv h hs
  | tick _ h => exact turn_inv h ((inv_with_agenda _).mpr hs)
  | bytes bs => exact inv_arrivals bs ((inv_with_agenda _).mpr hs)
  | chanOk v => exact (inv_with_inputs v _).mpr hs
  | reset => exact inv_applyReset hs

theorem Called.inv {d : Args} {s t : State} (h : Called d s t) (hs : Inv s) : Inv t :=
  h.keeps (fun _ _ hstart => hstart.inv hs) (fun _ _ hu hmove => move_inv hmove hu)

theorem effect_inv {s t : State} {e : Event} (h : Effect s e t) (hs : Inv s) : Inv t := by
  cases h with
  | tick h => exact turn_inv h hs
  | deliver b => exact inv_arrivals [b] hs
  | link bs => rw [deliverAll_eq]; exact inv_arrivals bs hs
  | chanOk v => exact (inv_with_inputs v s.agenda).mpr hs
  | reset => exact inv_applyReset hs
  | ignored => exact hs
  | bind _ hacc => exact bindSession_inv hacc hs
  | close _ hacc => exact closeSession_inv hacc hs
  | start h => exact h.inv hs
  | call _ h => exact h.inv hs
  | codec _ o => exact (inv_with_codecOut o).mpr hs

/-- Settles O45: a turn of the engine keeps the invariant, and so does every effect of the agenda's head. -/
theorem stepKeepsInvariant : Obligations.StepKeepsInvariant := by
  intro s t hs hstep
  obtain hturn | ⟨e, rest, -, heff⟩ := step_cases hstep
  · exact turn_inv hturn hs
  · exact effect_inv heff ((inv_with_agenda rest).mpr hs)

/-- Settles O44: after reset the buffers and the queue are empty, the counters 0, and in Idle neither a result nor `done` stands. -/
theorem resetMeetsInvariant : Obligations.ResetMeetsInvariant :=
  ⟨by decide, ⟨rfl, rfl, rfl, rfl⟩, trivial, Nat.zero_le _, Nat.zero_le _, iff_of_false (by simp [State.reset]) (by simp [State.reset])⟩

/-! ## What the host reads -/

/-- `done` stands only in Idle (R32). -/
theorem idle_of_done {s : State} (h : PhaseOk s) (hd : s.done = true) : s.phase = .idle := by
  have hnot : ¬ Running s := fun ⟨_, hdone, _⟩ => by simp [hd] at hdone
  cases hp : s.phase with
  | idle => rfl
  | _ =>
    simp only [PhaseOk, hp] at h
    obtain ⟨hrun, -⟩ := h
    exact absurd hrun hnot

theorem hostResult_failure {o : OpCode} {s : State} (hf : s.status.isFailure = true) (hd : s.done = true)
    (hp : s.phase = .idle) : hostResult o s = .fail s.status := by
  cases hst : s.status with
  | none => simp [hst, Status.isFailure] at hf
  | ok => simp [hst, Status.isFailure] at hf
  | _ => simp [hostResult, hd, hp, hst]

theorem hostResult_okPayload {o : OpCode} {s : State} {bs : List Byte} (h : hostResult o s = .okPayload bs) :
    o = .requestReply ∧ s.status = .ok ∧ s.done = true ∧ s.phase = .idle ∧
      bs = (Codec.sixToList s.rpay).take s.rplen.toNat := by
  unfold hostResult at h
  split at h
  case isFalse => cases h
  case isTrue hread =>
    split at h
    case h_2 hst =>
      obtain ⟨hd, hp⟩ := hread
      split at h
      case isTrue ho => cases h; exact ⟨ho, hst, hd, hp, rfl⟩
      case isFalse => cases h
    all_goals cases h

/-- Settles O52: `done` stands only in Idle, where a failure is read as such; a payload is cut from `rpay` at `rplen`. -/
theorem noPayloadBesideFailure : Obligations.NoPayloadBesideFailure := by
  intro o s hs
  obtain ⟨-, -, -, hrplen, -, hph⟩ := hs
  refine ⟨fun hf hd => hostResult_failure hf hd (idle_of_done hph hd), fun bs hbs => ?_⟩
  obtain ⟨ho, hst, hd, hp, rfl⟩ := hostResult_okPayload hbs
  have hlen := sixToList_take_length (p := s.rpay) hrplen
  exact ⟨ho, hst, hd, hp, hlen, hlen.trans_le hrplen⟩

end Sys2Proof.Machine
end

