-- ==== Sys2Proof/Proofs/StepFrames.lean ====
section
/-! What a step leaves unchanged, and how it changes the phase: the parameters (10_state R36), `addr` (R22), and the table of R25. -/

namespace Sys2Proof.Machine

open Sys2Proof Sys2Proof.Safety

/-! ## The parameters -/

theorem Started.cfg {d : Args} {s t : State} {o : OpCode} (h : Started d s o t) : t.cfg = s.cfg := by
  cases h <;> rfl

theorem move_cfg {s t : State} (h : Move s t) : t.cfg = s.cfg := by
  cases h with
  | turn h => exact turn_cfg h
  | tick _ h => exact (turn_cfg h :)
  | _ => rfl

theorem Called.cfg {d : Args} {s t : State} (h : Called d s t) : t.cfg = s.cfg :=
  h.keeps (P := fun u => u.cfg = s.cfg) (fun _ _ hstart => hstart.cfg) (fun _ _ hu hmove => (move_cfg hmove).trans hu)

theorem effect_cfg {s t : State} {e : Event} (h : Effect s e t) : t.cfg = s.cfg := by
  cases h with
  | tick h => exact turn_cfg h
  | link bs => rw [deliverAll_eq]
  | bind => exact bindSession_cfg _ _
  | start h => exact h.cfg
  | call _ h => exact h.cfg
  | _ => rfl

/-- Settles O51: neither a turn nor any effect of the agenda's head writes the parameters. -/
theorem parametersNeverChange : Obligations.ParametersNeverChange := by
  intro s t hstep
  obtain hturn | ⟨e, rest, -, heff⟩ := step_cases hstep
  · exact turn_cfg hturn
  · exact (effect_cfg heff :)

/-! ## The bound address -/

theorem turn_addr {s t : State} (h : Turn s t) : t.addr = s.addr := by
  cases h with
  | body =>
    obtain ⟨st, n, p, -, hout⟩ := bodyOutcome_frame (afterBodyRead s) (bodyVerdict s)
    rw [hout]; rfl
  | _ => rfl

theorem Started.addr {d : Args} {s t : State} {o : OpCode} (h : Started d s o t) : t.addr = s.addr := by
  cases h <;> rfl

theorem Started.agenda {d : Args} {s t : State} {o : OpCode} (h : Started d s o t) : t.agenda = s.agenda := by
  cases h <;> rfl

theorem turn_agenda {s t : State} (h : Turn s t) : t.agenda = s.agenda := by
  cases h with
  | body => exact bodyOutcome_agenda _ _
  | _ => rfl

/-- A move uses up the agenda from its head. -/
theorem move_agenda_suffix {s t : State} (h : Move s t) : t.agenda <:+ s.agenda := by
  cases h with
  | turn h => rw [turn_agenda h]
  | tick ha h => rw [turn_agenda h, ha]; exact List.suffix_cons _ _
  | bytes _ ha => rw [ha]; exact List.suffix_cons _ _
  | chanOk _ ha => rw [ha]; exact List.suffix_cons _ _
  | reset ha => rw [ha]; exact List.suffix_cons _ _

theorem move_addr {s t : State} (h : Move s t) (hr : Event.reset ∉ s.agenda) : t.addr = s.addr := by
  cases h with
  | turn h => exact turn_addr h
  | tick _ h => exact (turn_addr h :)
  | bytes => rfl
  | chanOk => rfl
  | reset ha => simp [ha] at hr

/-- With no reset in the agenda a blocking call leaves the address: no move on its way brings one in. -/
theorem Called.addr {d : Args} {s t : State} (h : Called d s t) (hr : Event.reset ∉ s.agenda) : t.addr = s.addr := by
  obtain ⟨haddr, -⟩ : t.addr = s.addr ∧ Event.reset ∉ t.agenda :=
    h.keeps (P := fun u => u.addr = s.addr ∧ Event.reset ∉ u.agenda)
      (fun _ _ hstart => ⟨hstart.addr, hstart.agenda ▸ hr⟩)
      (fun _ _ ⟨haddr, hu⟩ hmove =>
        ⟨(move_addr hmove hu).trans haddr, fun hmem => hu ((move_agenda_suffix hmove).subset hmem)⟩)
  exact haddr

theorem bindSession_addr_ne {s : State} {arg : Byte} (h : (bindSession arg s).addr ≠ s.addr) :
    s.chanOk = true ∧ (bindSession arg s).opened = true ∧ (bindSession arg s).addr = arg := by
  by_cases hok : s.chanOk = true
  · simp [bindSession, hok]
  · simp [bindSession, hok] at h

/-- An effect that is no reset changes the address only as an accepted BIND (R22). -/
theorem effect_addr_ne {s t : State} {e : Event} (h : Effect s e t) (he : e ≠ .reset) (hr : Event.reset ∉ s.agenda)
    (hne : t.addr ≠ s.addr) :
    s.phase = .idle ∧ s.opened = false ∧ s.chanOk = true ∧ t.opened = true ∧ e.Binds t.addr := by
  cases h with
  | bind hb hacc =>
    obtain ⟨hp, hclosed⟩ := acceptsBind_iff.mp hacc
    obtain ⟨hok, hopen, haddr⟩ := bindSession_addr_ne hne
    exact ⟨hp, hclosed, hok, hopen, haddr.symm ▸ hb⟩
  | tick h => exact absurd (turn_addr h) hne
  | link bs => rw [deliverAll_eq] at hne; exact absurd rfl hne
  | reset => exact absurd rfl he
  | start h => exact absurd h.addr hne
  | call _ h => exact absurd (h.addr hr) hne
  | _ => exact absurd rfl hne

/-- Settles O49: of all effects of the agenda's head only an accepted BIND's changes `addr`. -/
theorem addrWrittenOnlyByBind : Obligations.AddrWrittenOnlyByBind := by
  intro s t hstep hr hne
  obtain hturn | ⟨e, rest, ha, heff⟩ := step_cases hstep
  · exact absurd (turn_addr hturn) hne
  · obtain ⟨he, hrest⟩ : e ≠ .reset ∧ Event.reset ∉ rest := by
      rw [ha, List.mem_cons, not_or] at hr
      obtain ⟨he, hrest⟩ := hr
      exact ⟨Ne.symm he, hrest⟩
    obtain ⟨hp, hclosed, hok, hopen, hbinds⟩ := effect_addr_ne heff he hrest hne
    refine ⟨hp, hclosed, hok, hopen, rest, ?_⟩
    rw [ha]
    obtain ⟨w, rfl, ho, harg⟩ | ⟨bs, rfl, hd⟩ := hbinds
    · exact .inl ⟨w, rfl, ho, harg⟩
    · exact .inr ⟨bs, rfl, hd⟩

/-! ## The phase -/

/-- The effect of a start pulse on the phase (R25, R150, R151). -/
theorem effect_start_phase {s t : State} {w : DescWord} (h : Effect s (.start w) t) :
    t.phase = s.phase ∨
    (s.phase = .idle ∧ descOp w = .writeCommand ∧ t.phase = .sent) ∨
    (s.phase = .idle ∧ descOp w = .requestReply ∧ t.phase = .flushed) := by
  cases h with
  | start h =>
    obtain ⟨hp, -, -⟩ := acceptsSend_iff.mp h.accepts
    generalize ho : descOp w = o at h
    cases h with
    | request => exact .inr (.inr ⟨hp, rfl, rfl⟩)
    | write => exact .inr (.inl ⟨hp, rfl, rfl⟩)
  | bind => exact .inl (bindSession_phase _ _)
  | call hw => cases hw
  | _ => exact .inl rfl

/-- What arrives, `chan_ok` and an ignored event leave the phase. -/
theorem effect_event_phase {s t : State} {e : Event} (h : Effect s e t) (hw : e.waitsForIdle = false) (htick : e ≠ .tick)
    (hreset : e ≠ .reset) (hstart : ∀ w, e ≠ .start w) : t.phase = s.phase := by
  cases h with
  | tick => exact absurd rfl htick
  | link bs => rw [deliverAll_eq]
  | reset => exact absurd rfl hreset
  | bind => exact bindSession_phase _ _
  | start => exact absurd rfl (hstart _)
  | call hw' => simp [hw] at hw'
  | _ => rfl

/-- A host's line taken in Idle ends there: a call runs until it is back (R103, R134). -/
theorem effect_line_phase {s t : State} {e : Event} (h : Effect s e t) (hw : e.waitsForIdle = true) (hp : s.phase = .idle) :
    t.phase = .idle := by
  cases h with
  | bind => rw [bindSession_phase, hp]
  | call _ h => exact h.phase
  | ignored => exact hp
  | close => exact hp
  | codec => exact hp
  | _ => cases hw

/-- The transitions of the engine, row by row of R25. -/
theorem turn_phase {s t : State} (h : Turn s t) :
    (s.phase = .idle ∧ t = s) ∨
    (s.phase = .flushed ∧ t.phase = .sent) ∨
    (s.phase = .sent ∧ s.op = .writeCommand ∧ t.phase = .validated) ∨
    (s.phase = .sent ∧ s.op = .requestReply ∧ t.phase = .awaitingHeader) ∨
    (s.phase = .awaitingHeader ∧ s.rxq.length < 4 ∧ s.pollCnt + 1 < s.cfg.pollBound ∧ t.phase = .awaitingHeader) ∨
    (s.phase = .awaitingHeader ∧ s.rxq.length < 4 ∧ s.cfg.pollBound ≤ s.pollCnt + 1 ∧ t.phase = .validated) ∨
    (s.phase = .awaitingHeader ∧ 4 ≤ s.rxq.length ∧ t.phase = .awaitingBody) ∨
    (s.phase = .awaitingBody ∧ s.rxq.length < s.need.toNat ∧ s.pollCnt + 1 < s.cfg.pollBound ∧ t.phase = .awaitingBody) ∨
    (s.phase = .awaitingBody ∧ s.rxq.length < s.need.toNat ∧ s.cfg.pollBound ≤ s.pollCnt + 1 ∧ t.phase = .validated) ∨
    (s.phase = .awaitingBody ∧ s.need.toNat ≤ s.rxq.length ∧ t.phase = .validated) ∨
    (s.phase = .validated ∧ t.phase = .idle) := by
  cases h with
  | idle hp => simp [hp]
  | send hp => simp [hp]
  | writeDone hp ho => simp [hp, ho]
  | arm hp ho => simp [hp, ho]
  | header hp hl => simp [hp, hl, afterHeader]
  | headerMiss hp hl hc => simp [hp, hl, hc]
  | headerTimeout hp hl hc => simp [hp, hl, hc]
  | body hp hl => simp [hp, hl]
  | bodyMiss hp hl hc => simp [hp, hl, hc]
  | bodyTimeout hp hl hc => simp [hp, hl, hc]
  | retire hp => simp [hp]

/-- Settles O43: the engine's rows from its turns, the others from the effects of the agenda's head. -/
theorem phaseTransitions : Obligations.PhaseTransitions := by
  refine ⟨fun s t hturn => turn_phase (turn_of_engineTurn hturn), fun s t w rest ha hstep => ?_,
    fun s t e rest ha hstep hw htick hreset hstart => ?_, fun s t e rest ha hstep hw hp => ?_⟩
  · have heff := effect_of_step ha (.inr rfl) hstep
    exact (effect_start_phase heff :)
  · have heff := effect_of_step ha (.inr hw) hstep
    exact (effect_event_phase heff hw htick hreset hstart :)
  · have heff := effect_of_step ha (.inl hp) hstep
    exact effect_line_phase heff hw hp

end Sys2Proof.Machine
end

