-- ==== Sys2Proof/Proofs/Arrivals.lean ====
section
/-! What arrives on the link: one byte at any time, and a frame row's bytes in ascending offset (20_memory R55, R56, R58, R60). -/

namespace Sys2Proof.Machine

open Sys2Proof

/-! ## One byte -/

theorem rxAppend_of_room {depth : Option Nat} {q : List Byte} (h : ∀ d, depth = some d → q.length < d) (b : Byte) :
    rxAppend depth q b = q ++ [b] := by
  cases depth with
  | none => rfl
  | some d => exact if_pos (h d rfl)

theorem rxAppend_of_full {d : Nat} {q : List Byte} (h : d ≤ q.length) (b : Byte) : rxAppend (some d) q b = q :=
  if_neg (Nat.not_lt.mpr h)

/-- A delivery at the head of the agenda touches nothing but the agenda and the queue, in every phase (R56). -/
theorem step_deliver {s : State} {b : Byte} {rest : List Event} (ha : s.agenda = .deliver b :: rest) :
    step s = .next { s with agenda := rest, rxq := rxAppend s.cfg.rxfifoDepth s.rxq b } :=
  step_of_agenda_head ha (.inr rfl)

/-- Settles O13: the delivery's queue is the old one and the byte where there is room, and the old one where there is none. -/
theorem byteArrivesInAnyPhase : Obligations.ByteArrivesInAnyPhase := by
  intro s b rest ha
  refine ⟨fun hroom => ?_, fun d hd hfull => ?_⟩
  · rw [step_deliver ha, rxAppend_of_room hroom]
  · rw [step_deliver ha, hd, rxAppend_of_full hfull]

/-! ## A frame -/

/-- A frame's arrival in terms of the bytes of a sequence that the queue keeps. -/
theorem frameArrives_eq {s : State} {keep : List Byte → List Byte}
    (hkeep : ∀ bs, rxAppendAll s.cfg.rxfifoDepth s.rxq bs = s.rxq ++ keep bs) (a c : Byte) (pl : List Byte) (k : Byte) :
    frameArrives a c pl k s = .next { s with rxq := s.rxq ++ keep (frameBytes a c pl k) } := by
  rw [frameArrives, deliverAll_eq, hkeep]

/-- Settles O12: each row is the arrival of its `frameBytes`, of which the queue keeps those that fit. -/
theorem frameArrival : Obligations.FrameArrival := by
  intro s a c d0 d1 d2 d3 d4 d5 k keep hdef
  have hkeep : ∀ bs, rxAppendAll s.cfg.rxfifoDepth s.rxq bs = s.rxq ++ keep bs := by
    intro bs
    subst hdef
    cases s.cfg.rxfifoDepth with
    | none => exact rxAppendAll_none _ _
    | some d => exact rxAppendAll_some _ _ _
  exact ⟨frameArrives_eq hkeep a c [] k, frameArrives_eq hkeep a c [d0] k, frameArrives_eq hkeep a c [d0, d1] k,
    frameArrives_eq hkeep a c [d0, d1, d2] k, frameArrives_eq hkeep a c [d0, d1, d2, d3] k,
    frameArrives_eq hkeep a c [d0, d1, d2, d3, d4] k, frameArrives_eq hkeep a c [d0, d1, d2, d3, d4, d5] k⟩

end Sys2Proof.Machine
end

