-- ==== Sys2Proof/Proofs/NoFault.lean ====
section
/-! From a state that meets the invariant no step faults (20_memory R53, 42_sequencer_steps R165, 10_state R30, 30_encoding R96): turns,
starts and calls answer a next state, and a word at a port does or is refused by name. -/

namespace Sys2Proof.Machine

open Sys2Proof Sys2Proof.Safety

/-- The outcome is a next state or a refusal. -/
def Faultless (o : Host.Outcome State Fault Refusal) : Prop := ∀ f, o ≠ .fault f

theorem faultless_of_continues {o : Host.Outcome State Fault Refusal} (h : Continues o) : Faultless o := by
  obtain ⟨t, rfl⟩ := h
  exact fun _ => nofun

theorem faultless_refused (r : Refusal) : Faultless (.refused r) := fun _ => nofun

theorem continues_next (t : State) : Continues (.next t) := ⟨t, rfl⟩

/-! ## The engine's turn -/

/-- `need` never reaches 255, the one value whose body has no place in `rxbuf` (R30, R157). -/
theorem bodyNeed_le (l : Byte) : (Codec.bodyNeed l).toNat ≤ 254 := by
  have hl := l.isLt
  rw [bodyNeed_toNat]
  omega

theorem plen_le_of_flushed {s : State} (h : PhaseOk s) (hp : s.phase = .flushed) : s.plen.toNat ≤ 6 := by
  simp only [PhaseOk, hp] at h
  obtain ⟨⟨-, -, hplen⟩, -⟩ := h
  exact hplen

theorem need_le_of_awaitingBody {s : State} (h : PhaseOk s) (hp : s.phase = .awaitingBody) : s.need.toNat ≤ 254 := by
  simp only [PhaseOk, hp] at h
  obtain ⟨-, -, -, -, hneed, -⟩ := h
  exact hneed ▸ bodyNeed_le _

theorem op_of_sent {s : State} (h : PhaseOk s) (hp : s.phase = .sent) : s.op = .writeCommand ∨ s.op = .requestReply := by
  simp only [PhaseOk, hp] at h
  obtain ⟨-, -, -, hop⟩ := h
  exact hop.imp_right And.left

theorem engineTurn_continues {s : State} (h : PhaseOk s) : Continues (engineTurn s) := by
  obtain ⟨t, ht⟩ := turn_total (plen_le_of_flushed h) (need_le_of_awaitingBody h) (op_of_sent h)
  exact ⟨t, (engineTurn_eq_engineStep s).trans (engineStep_of_turn ht)⟩

/-! ## Calls -/

/-- Every move of a running call is possible, and the next one finds the invariant again (R165). -/
theorem busyStep_next_inv {s : State} (hs : Inv s) : ∃ t, busyStep s = .next t ∧ Inv t := by
  have ⟨_, _, _, _, _, hph⟩ := hs
  obtain ⟨t, ht, hmove⟩ := move_total (plen_le_of_flushed hph) (need_le_of_awaitingBody hph) (op_of_sent hph)
  exact ⟨t, ht, move_inv hmove hs⟩

theorem Started.call_continues {d : Args} {s u : State} {o : OpCode} (h : Started d s o u) (hs : Inv s) :
    Continues (runToIdle (callFuel s) u) := by
  obtain ⟨t, ht, -⟩ :=
    runToIdle_reaches (P := Inv) (fun _ hv _ => busyStep_next_inv hv) (callFuel s) u (h.inv hs) h.turnsLeft_le
  exact ⟨t, ht⟩

theorem writeCall_continues {s : State} (hs : Inv s) (d : Args) : Continues (writeCall d s) := by
  unfold writeCall
  split
  case isTrue hacc => rw [startWrite_eq hacc]; exact (Started.write hacc).call_continues hs
  case isFalse => exact continues_next s

theorem execRequestReply_continues {s : State} (hs : Inv s) (d : Args) : Continues (execRequestReply d s) := by
  unfold execRequestReply
  split
  case isTrue hacc => exact (Started.request hacc).call_continues hs
  case isFalse => exact continues_next s

/-! ## Starts: a precondition that fails is no fault (R135) -/

theorem execTBind_continues (arg : Byte) (s : State) : Continues (execTBind arg s) := by
  unfold execTBind
  split <;> exact continues_next _

theorem execTClose_continues (s : State) : Continues (execTClose s) := by
  unfold execTClose
  split <;> exact continues_next _

theorem execTStartReq_continues (d : Args) (s : State) : Continues (execTStartReq d s) := by
  unfold execTStartReq
  split <;> exact continues_next _

theorem execTStartWr_continues (d : Args) (s : State) : Continues (execTStartWr d s) := by
  unfold execTStartWr
  split
  case isTrue hacc => rw [startWrite_eq hacc]; exact continues_next _
  case isFalse => exact continues_next s

theorem exec_decodeStart_continues (w : DescWord) (s : State) : Continues (exec (decodeStart w) s) := by
  unfold decodeStart
  cases descOp w with
  | bind => exact execTBind_continues _ s
  | writeCommand => exact execTStartWr_continues _ s
  | requestReply => exact execTStartReq_continues _ s
  | close => exact execTClose_continues s

/-! ## Words at a port -/

theorem exec_decodeDesc_continues {s : State} (hs : Inv s) (w : DescWord) : Continues (exec (decodeDesc w) s) := by
  unfold decodeDesc
  cases descOp w with
  | bind => exact execTBind_continues _ s
  | writeCommand => exact writeCall_continues hs _
  | requestReply => exact execRequestReply_continues hs _
  | close => exact execTClose_continues s

/-- The length byte keeps the covered bytes of a frame word within `LEN_MAX` (R84). -/
theorem coveredOfFrame_length_le {bs covered : List Byte} (h : coveredOfFrame bs = .ok covered) : covered.length ≤ 9 := by
  unfold coveredOfFrame at h
  repeat' split at h
  all_goals cases h
  rename_i hlen
  simp only [Config.lenMin, Config.lenMax, Config.lenOverhead] at hlen
  simp only [List.length_cons, List.length_take, Config.lenOverhead]
  omega

/-- An ENCODE read from a frame word has a payload inside the function's domain (R96, R113). -/
theorem decode_encodeFn_payload_le {bs pl : List Byte} {a c : Byte}
    (h : decode (.port .encodeFn) bs = .ok (.encodeFrame a c pl)) : pl.length ≤ 6 := by
  cases hc : coveredOfFrame bs with
  | error e => simp only [decode, hc] at h; cases h
  | ok covered =>
    have hcov : encodeOfCovered covered = .ok (.encodeFrame a c pl) := by simp only [decode, hc] at h; exact h
    have hlen := coveredOfFrame_length_le hc
    unfold encodeOfCovered at hcov
    split at hcov
    case h_1 => cases hcov; simp only [List.length_cons] at hlen; omega
    case h_2 => cases hcov

theorem execEncodeFrame_continues {pl : List Byte} (h : pl.length ≤ 6) (a c : Byte) (s : State) :
    Continues (execEncodeFrame a c pl s) := by
  rw [execEncodeFrame, if_pos h]
  exact continues_next _

theorem execDecodeValidate_continues (raw : List Byte) (c l : Byte) (s : State) : Continues (execDecodeValidate raw c l s) := by
  unfold execDecodeValidate
  split <;> exact continues_next _

/-- Every word that stands at a port runs without a fault. -/
theorem exec_port_word_continues {s : State} (hs : Inv s) {p : Source} {bs : List Byte} {i : Instr}
    (hd : decode (.port p) bs = .ok i) : Continues (exec i s) := by
  cases p with
  | link => rw [decodeFrame_exec hd]; exact continues_next _
  | host => obtain ⟨w, rfl⟩ := decode_host_ok hd; exact exec_decodeDesc_continues hs w
  | catalogue => obtain ⟨pos, time, rfl⟩ := decodeCatalogue_ok hd; exact writeCall_continues hs _
  | checksumFn => obtain ⟨covered, rfl⟩ := decode_checksumFn_ok hd; exact continues_next _
  | encodeFn =>
    obtain ⟨a, c, pl, rfl⟩ := decode_encodeFn_ok hd
    exact execEncodeFrame_continues (decode_encodeFn_payload_le hd) a c s
  | validateFn c l => cases hd; exact execDecodeValidate_continues bs c l s

theorem runWord_port_faultless {s : State} (hs : Inv s) (p : Source) (bs : List Byte) : Faultless (runWord (.port p) bs s) := by
  unfold runWord
  split
  case h_1 hd => exact faultless_of_continues (exec_port_word_continues hs hd)
  case h_2 e _ => exact faultless_refused _

theorem runWrapper_faultless {s : State} (hs : Inv s) (cmd : Byte) (values : List Nat) : Faultless (runWrapper cmd values s) := by
  unfold runWrapper
  split
  case h_1 => exact faultless_refused _
  case h_2 =>
    split
    case h_1 => exact faultless_refused _
    case h_2 hi =>
      obtain ⟨d, rfl | rfl⟩ := expandRow_some hi
      · exact faultless_of_continues (writeCall_continues hs d)
      · exact faultless_of_continues (execRequestReply_continues hs d)

/-! ## A step -/

theorem moveOf_faultless {s : State} (hs : Inv s) (e : Event) : Faultless (moveOf e s) := by
  have ⟨_, _, _, _, _, hph⟩ := hs
  cases e with
  | tick => exact faultless_of_continues (engineTurn_continues hph)
  | deliver b => exact faultless_of_continues (continues_next _)
  | chanOk v => exact faultless_of_continues (continues_next _)
  | reset => exact faultless_of_continues (continues_next _)
  | start w => exact faultless_of_continues (exec_decodeStart_continues w s)
  | wrapper cmd values => exact runWrapper_faultless hs cmd values
  | word p bs =>
    cases p with
    | link => exact faultless_of_continues ⟨_, runLink_eq bs s⟩
    | validateFn c l => exact runWord_port_faultless hs (.validateFn c l) bs
    | _ => exact runWord_port_faultless hs _ bs

theorem step_faultless {s : State} (hs : Inv s) : Faultless (step s) := by
  have ⟨_, _, _, _, _, hph⟩ := hs
  have hturn : Faultless (engineTurn s) := faultless_of_continues (engineTurn_continues hph)
  cases ha : s.agenda with
  | nil => rwa [step_of_agenda_nil ha]
  | cons e rest =>
    by_cases hgo : s.phase = .idle ∨ e.waitsForIdle = false
    · rw [step_of_agenda_head ha hgo]
      exact moveOf_faultless ((inv_with_agenda rest).mpr hs) e
    · obtain ⟨hp, hw⟩ := not_or.mp hgo
      rwa [step_of_agenda_waiting ha (Bool.eq_true_of_not_eq_false hw) hp]

/-- Settles O46: the invariant makes every turn possible, and calls keep it up to their end. -/
theorem noFaultFromInvariant : Obligations.NoFaultFromInvariant :=
  fun _ f hs => step_faultless hs f

end Sys2Proof.Machine
end

