-- ==== Sys2Proof/Proofs/TransmitLog.lean ====
section
/-! The transmit log only grows, by whole frames (20_memory R51, 60_exceptions R201): an operation transmits once, when its phase
becomes Sent. -/

namespace Sys2Proof.Machine

open Sys2Proof Sys2Proof.Safety

/-- The state's transmit log is the given one followed by one whole frame (R80, R82). -/
def OneFrameAfter (log : List Byte) (t : State) : Prop :=
  ∃ (a c : Byte) (pl : List Byte), pl.length ≤ 6 ∧ t.txlog = log ++ Codec.encode a c pl

theorem afterSend_oneFrame {s : State} (hb : BuffersOk s) (hn : s.plen.toNat ≤ 6) : OneFrameAfter s.txlog (afterSend s) := by
  obtain ⟨htwf, -⟩ := hb
  have hlen := payloadOf_length (p := s.pay) hn
  refine ⟨sendAddr s, s.cmd, payloadOf s.pay s.plen, hlen.trans_le hn, sendFrame_txlog_eq htwf ?_⟩
  rw [txlen_toNat hn, encode_payload_length _ _ _ hn]

/-! ## Turns -/

/-- The turn in Flushed is T_SEND: it transmits one frame and leaves Flushed (R153). -/
theorem turn_of_flushed {s t : State} (h : Turn s t) (hb : BuffersOk s) (hp : s.phase = .flushed) :
    OneFrameAfter s.txlog t ∧ t.phase ≠ .flushed := by
  cases h with
  | send _ hn => exact ⟨afterSend_oneFrame hb hn, by simp⟩
  | _ hp' => exact absurd (hp.symm.trans hp') nofun

/-- No other turn transmits, and none leads back to Flushed (R25, R154 to R163). -/
theorem turn_of_not_flushed {s t : State} (h : Turn s t) (hp : s.phase ≠ .flushed) :
    t.txlog = s.txlog ∧ t.phase ≠ .flushed := by
  cases h with
  | send hp' => exact absurd hp' hp
  | body =>
    obtain ⟨st, n, p, -, hout⟩ := bodyOutcome_frame (afterBodyRead s) (bodyVerdict s)
    rw [hout]
    exact ⟨rfl, by simp⟩
  | idle | headerMiss | bodyMiss => exact ⟨rfl, hp⟩
  | _ => exact ⟨rfl, nofun⟩

theorem turn_txlog {s t : State} (h : Turn s t) (hb : BuffersOk s) : t.txlog = s.txlog ∨ OneFrameAfter s.txlog t := by
  by_cases hp : s.phase = .flushed
  · exact .inr (turn_of_flushed h hb hp).left
  · exact .inl (turn_of_not_flushed h hp).left

/-! ## Calls -/

/-- How far an operation that began with this transmit log has come: it has transmitted nothing, or its one frame, and then Flushed
lies behind it. -/
def SentAtMostOnce (log : List Byte) (u : State) : Prop := u.txlog = log ∨ OneFrameAfter log u ∧ u.phase ≠ .flushed

theorem SentAtMostOnce.turn {log : List Byte} {u v : State} (hu : SentAtMostOnce log u) (hb : BuffersOk u) (h : Turn u v) :
    SentAtMostOnce log v := by
  by_cases hp : u.phase = .flushed
  · obtain rfl | ⟨-, hne⟩ := hu
    · exact .inr (turn_of_flushed h hb hp)
    · exact absurd hp hne
  · obtain ⟨hlog, hne⟩ := turn_of_not_flushed h hp
    obtain rfl | ⟨⟨a, c, pl, hpl, heq⟩, -⟩ := hu
    · exact .inl hlog
    · exact .inr ⟨⟨a, c, pl, hpl, hlog.trans heq⟩, hne⟩

/-- What every move of a call without a reset keeps. -/
def CallOnTheWay (log : List Byte) (u : State) : Prop := BuffersOk u ∧ Event.reset ∉ u.agenda ∧ SentAtMostOnce log u

theorem Started.onTheWay {d : Args} {s u : State} {o : OpCode} (h : Started d s o u) (hb : BuffersOk s)
    (hr : Event.reset ∉ s.agenda) : CallOnTheWay s.txlog u := by
  obtain ⟨-, -, hn⟩ := acceptsSend_iff.mp h.accepts
  cases h with
  | request => exact ⟨hb, hr, .inl rfl⟩
  | write =>
    have hlatch : BuffersOk (latch .writeCommand d s) := hb
    exact ⟨afterSend_buffersOk hlatch hn, hr, .inr ⟨afterSend_oneFrame hlatch hn, by simp⟩⟩

theorem CallOnTheWay.move {log : List Byte} {u v : State} (hu : CallOnTheWay log u) (h : Move u v) : CallOnTheWay log v := by
  obtain ⟨hb, hr, hsent⟩ := hu
  have hrest : Event.reset ∉ v.agenda := fun hmem => hr ((move_agenda_suffix h).subset hmem)
  cases h with
  | turn h => exact ⟨turn_buffersOk h hb, hrest, hsent.turn hb h⟩
  | @tick _ rest _ h => exact ⟨turn_buffersOk h hb, hrest, SentAtMostOnce.turn (u := { u with agenda := rest }) hsent hb h⟩
  | bytes | chanOk => exact ⟨hb, hrest, hsent⟩
  | reset ha => simp [ha] at hr

/-- A whole call transmits at most one frame. -/
theorem Called.txlog {d : Args} {s t : State} (h : Called d s t) (hb : BuffersOk s) (hr : Event.reset ∉ s.agenda) :
    t.txlog = s.txlog ∨ OneFrameAfter s.txlog t := by
  obtain ⟨-, -, hsent⟩ : CallOnTheWay s.txlog t :=
    h.keeps (fun _ _ hstart => hstart.onTheWay hb hr) (fun _ _ hu hmove => hu.move hmove)
  exact hsent.imp_right And.left

/-! ## A step -/

theorem Started.txlog {d : Args} {s t : State} {o : OpCode} (h : Started d s o t) (hb : BuffersOk s)
    (hr : Event.reset ∉ s.agenda) : t.txlog = s.txlog ∨ OneFrameAfter s.txlog t := by
  obtain ⟨-, -, hsent⟩ := h.onTheWay hb hr
  exact hsent.imp_right And.left

@[simp] theorem bindSession_txlog (arg : Byte) (s : State) : (bindSession arg s).txlog = s.txlog := by
  unfold bindSession; split <;> rfl

theorem effect_txlog {s t : State} {e : Event} (h : Effect s e t) (hb : BuffersOk s) (he : e ≠ .reset)
    (hr : Event.reset ∉ s.agenda) : t.txlog = s.txlog ∨ OneFrameAfter s.txlog t := by
  cases h with
  | tick h => exact turn_txlog h hb
  | start h => exact h.txlog hb hr
  | call _ h => exact h.txlog hb hr
  | link bs => rw [deliverAll_eq]; exact .inl rfl
  | bind => exact .inl (bindSession_txlog _ _)
  | reset => exact absurd rfl he
  | _ => exact .inl rfl

/-- Settles O50: a turn transmits at most one frame, and so does a call, however many turns it takes. -/
theorem transmitLogGrowsByWholeFrames : Obligations.TransmitLogGrowsByWholeFrames := by
  intro s t hb hr hstep
  obtain hturn | ⟨e, rest, ha, heff⟩ := step_cases hstep
  · exact turn_txlog hturn hb
  · rw [ha, List.mem_cons, not_or] at hr
    obtain ⟨he, hrest⟩ := hr
    exact (effect_txlog heff hb (Ne.symm he) hrest :)

end Sys2Proof.Machine
end

