-- ==== Sys2Proof/Proofs/LittleEndian.lean ====
section
/-! Little-endian values and the fields of a catalogue row read back (30_encoding R91, 43_catalogue R180, R181). -/

namespace Sys2Proof.Machine.Codec

open Sys2Proof

theorem fromLe_leBytes {n v : Nat} (h : v < 256 ^ n) : fromLe (leBytes n v) = v := by
  induction n generalizing v with
  | zero => exact (Nat.lt_one_iff.mp h).symm
  | succ n ih =>
    have hrest : v / 256 < 256 ^ n := Nat.div_lt_of_lt_mul (by rwa [Nat.pow_succ'] at h)
    simp only [leBytes, fromLe, ih hrest, BitVec.toNat_ofNat]
    exact Nat.mod_add_div v 256

theorem ofNat_fromLe_le16 (v : U16) : BitVec.ofNat 16 (fromLe (le16 v)) = v := by
  rw [le16, fromLe_leBytes v.isLt, BitVec.ofNat_toNat, BitVec.setWidth_eq]

end Sys2Proof.Machine.Codec

namespace Sys2Proof.Machine

open Sys2Proof Sys2Proof.Machine.Codec

theorem decodeFields_leBytes_append (f : Config.FieldSpec) (fs : List Config.FieldSpec) {v : Nat} (h : v < 256 ^ f.bytes)
    (rest : List Byte) : decodeFields (f :: fs) (leBytes f.bytes v ++ rest) = v :: decodeFields fs rest := by
  rw [decodeFields, List.take_left' (leBytes_length _ _), List.drop_left' (leBytes_length _ _), fromLe_leBytes h]

theorem decodeFields_encodeFields {fs : List Config.FieldSpec} {vs : List Nat} (hlen : vs.length = fs.length)
    (hfit : ∀ p ∈ List.zip fs vs, clampField p.1 p.2 < 256 ^ p.1.bytes) :
    decodeFields fs (encodeFields fs vs) = List.zipWith clampField fs vs := by
  induction fs generalizing vs with
  | nil => rfl
  | cons f fs ih =>
    cases vs with
    | nil => cases hlen
    | cons v vs =>
      rw [List.zip_cons_cons, List.forall_mem_cons] at hfit
      obtain ⟨hhead, htail⟩ := hfit
      rw [encodeFields, decodeFields_leBytes_append f fs hhead, ih (Nat.succ.inj hlen) htail, List.zipWith_cons_cons]

/-- Settles O11, by induction on the number of bytes and on the row's fields. -/
theorem catalogueFieldsRoundTrip : Obligations.CatalogueFieldsRoundTrip :=
  ⟨fun _ _ => fromLe_leBytes, fun _ _ => decodeFields_encodeFields⟩

end Sys2Proof.Machine
end

