-- ==== Sys2Proof/Proofs/Encoding.lean ====
section
/-! Decoding what was encoded, port by port (30_encoding R88, R100, R101, 10_state R25). -/

namespace Sys2Proof

open Sys2Proof.Machine Sys2Proof.Machine.Codec

/-! ## Descriptors (R100, R101) -/

/-- A descriptor with any reserved bits and any `op` bits (R100). -/
def packDesc (r : BitVec 2) (plen : BitVec 3) (bcast : Bool) (op : BitVec 2) (arg explen : Byte) (pay : Six) : DescWord :=
  ⟨r ++ plen ++ BitVec.ofBool bcast ++ op, arg, explen, pay.b0, pay.b1, pay.b2, pay.b3, pay.b4, pay.b5⟩

section Pack
variable (r : BitVec 2) (plen : BitVec 3) (bcast : Bool) (op : BitVec 2) (arg explen : Byte) (pay : Six)

theorem packDesc_op_bit {i : Nat} (h : i < 2) :
    (packDesc r plen bcast op arg explen pay).byte0.getLsbD i = op.getLsbD i := by
  rw [packDesc, BitVec.getLsbD_append, if_pos h]

theorem packDesc_bcast_bit : (packDesc r plen bcast op arg explen pay).byte0.getLsbD 2 = bcast := by
  rw [packDesc, BitVec.getLsbD_append, if_neg (by decide), BitVec.getLsbD_append, if_pos (by decide)]
  cases bcast <;> rfl

theorem packDesc_plen_bits : (packDesc r plen bcast op arg explen pay).byte0.extractLsb' 3 3 = plen := by
  ext i hi
  rw [BitVec.getElem_extractLsb', packDesc, BitVec.getLsbD_append, if_neg (by omega), BitVec.getLsbD_append,
    if_neg (by omega), BitVec.getLsbD_append, if_pos (by omega), ← BitVec.getLsbD_eq_getElem]
  congr 1
  omega

/-- The `op` bits alone select the operation (R101). -/
theorem descOp_packDesc (o : OpCode) : descOp (packDesc r plen bcast (opBits o) arg explen pay) = o := by
  rw [descOp, packDesc_op_bit _ _ _ _ _ _ _ Nat.one_lt_two, packDesc_op_bit _ _ _ _ _ _ _ Nat.two_pos]
  cases o <;> rfl

theorem descArgs_packDesc : descArgs (packDesc r plen bcast op arg explen pay) = ⟨bcast, arg, plen, explen, pay⟩ := by
  rw [descArgs, packDesc_bcast_bit, packDesc_plen_bits]
  rfl

end Pack

theorem decode_descBytes (w : DescWord) : decode (.port .host) (descBytes w) = .ok (decodeDesc w) := rfl

/-- Settles O2: the operation and the fields read back from byte 0 are those packed there, whatever its reserved bits are. -/
theorem descriptorFieldsDecode : Obligations.DescriptorFieldsDecode := by
  intro r plen bcast o arg explen p0 p1 p2 p3 p4 p5
  have hdec := decode_descBytes (packDesc r plen bcast (opBits o) arg explen ⟨p0, p1, p2, p3, p4, p5⟩)
  rw [decodeDesc, descOp_packDesc, descArgs_packDesc] at hdec
  cases o <;> exact hdec

/-! What the descriptors of the encoder select, as a host line and as a start pulse. -/

theorem decode_descOfBind (arg : Byte) :
    decodeDesc (descOfBind arg) = .bind arg ∧ decodeStart (descOfBind arg) = .tBind arg := by
  have hop : descOp (descOfBind arg) = .bind := descOp_packDesc 0 0 false arg 0 ⟨0, 0, 0, 0, 0, 0⟩ .bind
  constructor
  · rw [decodeDesc, hop]; rfl
  · rw [decodeStart, hop]; rfl

theorem decode_descOfArgs_writeCommand (d : Args) :
    decodeDesc (descOfArgs .writeCommand d) = .writeCommand d ∧ decodeStart (descOfArgs .writeCommand d) = .tStartWr d := by
  simp only [decodeDesc, decodeStart, descOp_of, descArgs_of, and_self]

theorem decode_descOfArgs_requestReply (d : Args) :
    decodeDesc (descOfArgs .requestReply d) = .requestReply d ∧ decodeStart (descOfArgs .requestReply d) = .tStartReq d := by
  simp only [decodeDesc, decodeStart, descOp_of, descArgs_of, and_self]

/-! ## Frame words of the codec rows and of MOVE_TIME_WRITE (R88, R93, R182) -/

/-- The covered bytes of a frame word come back, whatever follows them. -/
theorem coveredOfFrame_append (a c : Byte) {l : Byte} {pl : List Byte} (hl : l.toNat = pl.length + 3) (hpl : pl.length ≤ 6)
    (rest : List Byte) :
    coveredOfFrame (Config.hdr :: Config.hdr :: a :: l :: c :: (pl ++ rest)) = .ok (a :: l :: c :: pl) := by
  have htake : l.toNat - Config.lenOverhead = pl.length := by rw [hl]; rfl
  have hfits : Config.lenMin ≤ l.toNat ∧ l.toNat ≤ Config.lenMax ∧ l.toNat - Config.lenOverhead ≤ (pl ++ rest).length := by
    simp only [Config.lenMin, Config.lenMax, htake, List.length_append]
    omega
  rw [coveredOfFrame, if_pos ⟨rfl, rfl⟩, if_pos hfits, htake, List.take_left]

/-- What the range of CHECKSUM's operand says of its bytes: address, length byte, command id and at most 6 payload bytes (R84). -/
theorem wellFormed_checksum_cases {bs : List Byte} (h : (Instr.checksum bs).wellFormed = true) :
    ∃ a l c pl, bs = a :: l :: c :: pl ∧ l.toNat = pl.length + 3 ∧ pl.length ≤ 6 := by
  simp only [Instr.wellFormed, Bool.and_eq_true, decide_eq_true_eq] at h
  obtain ⟨⟨hmin, hmax⟩, hlen⟩ := h
  match bs, hmin with
  | a :: l :: c :: pl, _ =>
    simp only [Config.lenMax, List.length_cons] at hmax
    have hl : l = BitVec.ofNat 8 (pl.length + 3) := by simpa using hlen
    refine ⟨a, l, c, pl, rfl, ?_, by omega⟩
    rw [hl, BitVec.toNat_ofNat]
    omega

theorem decode_encode_checksum (a : Byte) {bs : List Byte} (h : (Instr.checksum bs).wellFormed = true) :
    decode (encode a (.checksum bs)).1 (encode a (.checksum bs)).2 = .ok (.checksum bs) := by
  obtain ⟨b, l, c, pl, rfl, hl, hpl⟩ := wellFormed_checksum_cases h
  simp only [encode, decode, List.cons_append, coveredOfFrame_append b c hl hpl, Except.map]

theorem decode_encodeFn_encode (a c : Byte) {pl : List Byte} (h : pl.length ≤ 6) :
    decode (.port .encodeFn) (Codec.encode a c pl) = .ok (.encodeFrame a c pl) := by
  rw [encode_eq_cons, decode, coveredOfFrame_append a c (lengthByte_toNat h) h]
  rfl

theorem decodeCatalogue_encode (a : Byte) (pos time : U16) :
    decodeCatalogue (Codec.encode a 1 (le16 pos ++ le16 time)) = .ok (.moveTimeWrite pos time) := by
  have hdec : decodeCatalogue (Codec.encode a 1 (le16 pos ++ le16 time)) =
      .ok (.moveTimeWrite (BitVec.ofNat 16 (fromLe (le16 pos))) (BitVec.ofNat 16 (fromLe (le16 time)))) := rfl
  rw [hdec, ofNat_fromLe_le16, ofNat_fromLe_le16]

/-! ## The round trip -/

/-- Settles O1: the laws above where the decoder computes on operands; the frames' checksum bytes are read as they stand, and the
rows without operands are their slot and code. -/
theorem decodeOfEncode : Obligations.DecodeOfEncode := by
  intro a i hwf
  cases i with
  | frameP0 | frameP1 | frameP2 | frameP3 | frameP4 | frameP5 | frameP6 => rfl
  | bind arg => exact congrArg Except.ok (decode_descOfBind arg).left
  | writeCommand d => exact congrArg Except.ok (decode_descOfArgs_writeCommand d).left
  | requestReply d => exact congrArg Except.ok (decode_descOfArgs_requestReply d).left
  | checksum bs => exact decode_encode_checksum a hwf
  | encodeFrame b c pl =>
    simp only [Instr.wellFormed, Bool.and_eq_true, decide_eq_true_eq] at hwf
    exact decode_encodeFn_encode b c hwf.right
  | decodeValidate => rfl
  | moveTimeWrite pos time => exact decodeCatalogue_encode a pos time
  | tBind arg => exact congrArg Except.ok (decode_descOfBind arg).right
  | tStartReq d => exact congrArg Except.ok (decode_descOfArgs_requestReply d).right
  | tStartWr d => exact congrArg Except.ok (decode_descOfArgs_writeCommand d).right
  | close | tClose => rfl
  | tSend | tWrDone | tArm | tHdr | tPollHdrMiss | tPollHdrTimeout | tBody | tPollBodyMiss | tPollBodyTimeout | tRetire => rfl

/-- Settles O3: the decoder evaluated on each closed word. -/
theorem sampleWordsDecode : Obligations.SampleWordsDecode := by
  unfold Obligations.SampleWordsDecode
  decide

end Sys2Proof
end

