-- ==== Sys2Proof/Proofs/PlacedWord.lean ====
section
/-! A word of the opcode table, presented to the machine (30_encoding R88, R100, R103). -/

namespace Sys2Proof.Machine

open Sys2Proof

theorem decode_of_decodeTableWord {nbits w : Nat} {i : Instr} (h : decodeTableWord nbits w = some i) :
    decode (.port (tableSource nbits w)) (tableBytes nbits w) = .ok i := by
  unfold decodeTableWord at h
  split at h
  case h_1 j hd => cases h; exact hd
  case h_2 => cases h

/-- Settles O48: the placed word heads the agenda, and it is a wire frame or finds the phase in Idle. The slot chosen for a table word
and what `withFetchWord` does for a host's line and for an ENCODE are the model's choices (log entries 15, 17 and 24). -/
theorem placedWordRuns : Obligations.PlacedWordRuns := by
  intro s nbits w i h
  have hd := decode_of_decodeTableWord h
  by_cases hlink : tableSource nbits w = .link
  · rw [if_pos hlink, step_runs_port_word rfl hd (.inr hlink)]
    simp [State.withFetchWord, placeWord, hlink, Event.waitsForIdle]
  · have hw : (Event.word (tableSource nbits w) (tableBytes nbits w)).waitsForIdle = true :=
      Bool.eq_true_of_not_eq_false (mt waitsForIdle_word_eq_false_iff.mp hlink)
    have hp : (s.withFetchWord nbits w).phase = .idle := if_pos hw
    rw [if_neg hlink, step_runs_port_word rfl hd (.inl hp)]
    simp [State.withFetchWord, placeWord, hw]

end Sys2Proof.Machine
end

