-- ==== Sys2Proof/Proofs/OutOfDomain.lean ====
section
/-! Register values outside the ranges of R28 and R30: where the machine stops by name (log entry 21). -/

namespace Sys2Proof.Machine

open Sys2Proof

theorem buildAndSend_too_long {s : State} (h : 6 < s.plen.toNat) : buildAndSend s = .fault .payloadTooLong :=
  if_neg (Nat.not_le.mpr h)

theorem execTSend_too_long {s : State} (hp : s.phase = .flushed) (h : 6 < s.plen.toNat) :
    execTSend s = .fault .payloadTooLong := by
  rw [execTSend, if_pos hp, sendAndGo, buildAndSend_too_long h]

theorem execTBody_too_long {s : State} (hp : s.phase = .awaitingBody) (hn : s.need.toNat ≤ s.rxq.length)
    (h : 254 < s.need.toNat) : execTBody s = .fault .rxbufBound := by
  have hcap : ¬ Config.headerBytes + s.need.toNat ≤ Config.rxbufCap := by
    simp only [Config.headerBytes, Config.rxbufCap]; omega
  rw [execTBody, if_pos ⟨hp, hn⟩, if_neg hcap]

/-- Settles O40: 7 is above `PAYLOAD_MAX`, and 4 + 255 is above `RXBUF_CAP`. -/
theorem outOfDomainStops : Obligations.OutOfDomainStops := by
  intro s
  refine ⟨fun hp hplen => execTSend_too_long hp ?_, fun hp hneed hq => execTBody_too_long hp ?_ ?_⟩
  · rw [hplen]; decide
  · rw [hneed]; exact hq
  · rw [hneed]; decide

end Sys2Proof.Machine
end

