-- ==== Sys2Proof/Proofs/Checksum.lean ====
section
/-! The checksum's value, at any width of the accumulator (40_codec R110, R111). -/

namespace Sys2Proof.Machine.Codec

open Sys2Proof

/-- Only the low 8 bits of an accumulator reach the checksum. -/
theorem lowByte_not_ofNat {w : Nat} (h : 8 ≤ w) (n : Nat) :
    (~~~ (BitVec.ofNat w n)).extractLsb' 0 8 = ~~~ (BitVec.ofNat 8 n) := by
  rw [← BitVec.setWidth_eq_extractLsb' h, BitVec.setWidth_not h, BitVec.setWidth_ofNat_of_le h]

theorem sum16_eq_ofNat (bs : List Byte) : sum16 bs = BitVec.ofNat 16 (sumNat bs) :=
  BitVec.eq_of_toNat_eq (by rw [sum16_toNat, BitVec.toNat_ofNat])

theorem checksum_eq_not (bs : List Byte) : checksum bs = ~~~ (BitVec.ofNat 8 (sumNat bs)) := by
  rw [checksum, sum16_eq_ofNat, lowByte_not_ofNat (by decide)]

theorem checksum_toNat (bs : List Byte) : (checksum bs).toNat = 255 - sumNat bs % 256 := by
  rw [checksum_eq_not, BitVec.toNat_not, BitVec.toNat_ofNat]

theorem checksum_eq_ofNat (bs : List Byte) : checksum bs = BitVec.ofNat 8 (255 - sumNat bs % 256) := by
  rw [← checksum_toNat, BitVec.ofNat_toNat, BitVec.setWidth_eq]

/-- A frame is two markers, the covered bytes and their checksum (R87, R113). -/
theorem encode_eq_covered (a c : Byte) (pl : List Byte) :
    encode a c pl = Config.hdr :: Config.hdr :: (covered a c pl ++ [checksum (covered a c pl)]) := rfl

theorem encode_coveredBytes (a c : Byte) (pl : List Byte) :
    ((encode a c pl).drop 2).take (3 + pl.length) = covered a c pl :=
  List.take_left' (covered_length a c pl)

theorem encode_checksumByte (a c : Byte) (pl : List Byte) :
    (encode a c pl)[5 + pl.length]? = some (checksum (covered a c pl)) := by
  have hoff : 5 + pl.length = (covered a c pl).length + 2 := by rw [covered_length]; omega
  rw [encode_eq_covered, hoff, List.getElem?_cons_succ, List.getElem?_cons_succ, List.getElem?_concat_length]

/-- Settles O4: the low byte of the complement is the complement of the low byte, and a byte and its complement add to 255. -/
theorem checksumForms : Obligations.ChecksumForms := by
  refine ⟨checksum_toNat, fun bs => ?_, fun bs w hw => ?_, fun a c pl _ ck hck => ?_⟩
  · rw [checksum_eq_not, ← BitVec.toNat_inj]
    simp [sumNat]
  · rw [lowByte_not_ofNat hw, checksum_eq_not, sumNat]
  · obtain rfl : checksum (covered a c pl) = ck := Option.some.inj ((encode_checksumByte a c pl).symm.trans hck)
    rw [encode_coveredBytes, checksum_toNat, ← sumNat]
    omega

/-! ## What a frame determines (R114) -/

theorem encode_injective {a a' c c' : Byte} {pl pl' : List Byte} (h : encode a c pl = encode a' c' pl') :
    a = a' ∧ c = c' ∧ pl = pl' := by
  simp only [encode_eq_cons, List.cons.injEq] at h
  obtain ⟨-, -, ha, -, hc, htail⟩ := h
  exact ⟨ha, hc, List.append_inj_left' htail rfl⟩

/-- Settles O5: the bytes of a frame one by one. -/
theorem encodeProperties : Obligations.EncodeProperties := by
  refine ⟨fun a c pl hpl => ⟨encode_length a c pl, ?_⟩, fun _ _ _ _ _ _ _ _ => encode_injective⟩
  exact congrArg some (lengthByte_toNat hpl)

end Sys2Proof.Machine.Codec
end

