-- ==== Sys2Proof/Proofs/Validation.lean ====
section
/-! `decode_and_validate`, on sequences of the shape of a frame: two markers, covered bytes, checksum byte (40_codec R115 to
R124). -/

namespace Sys2Proof.Machine.Codec

open Sys2Proof

/-! ## The well-formed frames are what is accepted -/

/-- The checks, all of them, and what is then taken out (R115). -/
theorem decodeAndValidate_eq_some_iff (raw : List Byte) (c l : Byte) (pl : List Byte) :
    decodeAndValidate raw c l = some pl ↔
      (3 ≤ l.toNat ∧ l.toNat ≤ 9) ∧ raw.length = 3 + l.toNat ∧ raw[3]? = some l ∧ raw[4]? = some c ∧
        raw[2 + l.toNat]? = some (checksum ((raw.drop 2).take l.toNat)) ∧ (raw.drop 5).take (l.toNat - 3) = pl := by
  simp only [decodeAndValidate, Option.ite_none_left_eq_some, Option.some.injEq, ne_eq, Decidable.not_not, not_or, Nat.not_lt,
    Config.lenMin, Config.lenMax, Config.headerBytes, Config.lenOverhead]
  constructor
  · rintro ⟨hl, -, hlength, hlen, hcmd, hck, hpl⟩
    exact ⟨hl, hlen, hlength, hcmd, hck, hpl⟩
  · rintro ⟨hl, hlen, hlength, hcmd, hck, hpl⟩
    exact ⟨hl, by omega, hlength, hlen, hcmd, hck, hpl⟩

/-- A frame with any two bytes in the markers' places (R120). -/
theorem decodeAndValidate_frame (m1 m2 a c : Byte) {pl : List Byte} (h : pl.length ≤ 6) :
    decodeAndValidate (m1 :: m2 :: (covered a c pl ++ [checksum (covered a c pl)])) c (lengthByte pl.length) = some pl := by
  have hl : (lengthByte pl.length).toNat = (covered a c pl).length := by rw [lengthByte_toNat h, covered_length, Nat.add_comm]
  rw [decodeAndValidate_eq_some_iff, hl]
  refine ⟨?_, ?_, rfl, rfl, ?_, ?_⟩
  · rw [covered_length]; omega
  · simp; omega
  · rw [Nat.add_comm 2, List.getElem?_cons_succ, List.getElem?_cons_succ, List.getElem?_concat_length]
    exact congrArg (fun bs => some (checksum bs)) (List.take_left' rfl).symm
  · simp [covered]

/-- What is accepted has the shape of a frame: nothing is left out and nothing is left over (R121). -/
theorem frame_of_decodeAndValidate {raw pl : List Byte} {c l : Byte} (h : decodeAndValidate raw c l = some pl) :
    ∃ m1 m2 a : Byte, raw = m1 :: m2 :: (covered a c pl ++ [checksum (covered a c pl)]) ∧
      pl.length ≤ 6 ∧ l.toNat = pl.length + 3 := by
  obtain ⟨⟨hmin, hmax⟩, hlen, hlength, hcmd, hck, hpl⟩ := (decodeAndValidate_eq_some_iff raw c l pl).mp h
  match raw, hlen with
  | m1 :: m2 :: a :: n :: d :: rest, hlen =>
    obtain rfl : n = l := Option.some.inj hlength
    obtain rfl : d = c := Option.some.inj hcmd
    obtain rfl | ⟨pl', ck, rfl⟩ := rest.eq_nil_or_concat'
    · simp at hlen; omega
    · have hl : n.toNat = pl'.length + 3 := by simp at hlen; omega
      obtain rfl : pl' = pl := by rw [← hpl, hl]; exact (List.take_left' rfl).symm
      have hcov : covered a d pl' = a :: n :: d :: pl' := by
        rw [covered, lengthByte, Config.lenOverhead, ← hl, BitVec.ofNat_toNat, BitVec.setWidth_eq]
      have hckEq : ck = checksum (covered a d pl') := by
        rw [hcov, ← Option.some.injEq]
        simpa [hl, Nat.add_comm 2] using hck
      exact ⟨m1, m2, a, by rw [← hckEq, hcov]; rfl, by omega, hl⟩

/-- Settles O6: the frame laws in both directions. -/
theorem validationAcceptsExactly : Obligations.ValidationAcceptsExactly := by
  refine fun raw c l pl => ⟨frame_of_decodeAndValidate, ?_⟩
  rintro ⟨m1, m2, a, rfl, hpl, hl⟩
  obtain rfl : l = lengthByte pl.length := BitVec.eq_of_toNat_eq (hl.trans (lengthByte_toNat hpl).symm)
  exact decodeAndValidate_frame m1 m2 a c hpl

/-- The two facts a rejection turns on: the last byte is the checksum of the bytes before it, and their number is the
length asked for. -/
theorem checks_of_decodeAndValidate {m1 m2 ck c l : Byte} {bs pl : List Byte}
    (h : decodeAndValidate (m1 :: m2 :: (bs ++ [ck])) c l = some pl) : ck = checksum bs ∧ bs.length = l.toNat := by
  obtain ⟨_, _, a, hraw, -, hl⟩ := frame_of_decodeAndValidate h
  simp only [List.cons.injEq] at hraw
  obtain ⟨-, -, hbs⟩ := hraw
  obtain ⟨rfl, hck⟩ := List.append_inj' hbs rfl
  exact ⟨List.singleton_inj.mp hck, by rw [covered_length, hl, Nat.add_comm]⟩

theorem ofNat_eq_lengthByte (p : Nat) : BitVec.ofNat 8 (3 + p) = lengthByte p := by
  rw [Nat.add_comm]; rfl

/-- Settles O7: a frame is accepted. -/
theorem codecRoundTrip : Obligations.CodecRoundTrip := by
  intro a c pl hpl
  rw [ofNat_eq_lengthByte]
  exact decodeAndValidate_frame Config.hdr Config.hdr a c hpl

/-- Settles O9: the number of covered bytes is the length asked for. -/
theorem lengthExactness : Obligations.LengthExactness := by
  refine fun a c l pl _ hl => Option.eq_none_iff_forall_ne_some.mpr fun pl' h => hl ?_
  rw [encode_eq_covered] at h
  rw [← (checks_of_decodeAndValidate h).right, covered_length, Nat.add_comm]

/-! ## Errors (R123) -/

theorem xor_twoPow_ne (b : Byte) {bit : Nat} (h : bit < 8) : b ^^^ BitVec.twoPow 8 bit ≠ b := by
  intro heq
  have hbit := congrArg (BitVec.getLsbD · bit) heq
  simp [h] at hbit

/-- Another value in one place gives another checksum. -/
theorem checksum_set_ne {bs : List Byte} {i : Nat} {b v : Byte} (hb : bs[i]? = some b) (hv : v ≠ b) :
    checksum (bs.set i v) ≠ checksum bs := by
  obtain ⟨hi, rfl⟩ := List.getElem?_eq_some_iff.mp hb
  obtain ⟨before, after, hbs, -, hset⟩ := List.exists_of_set (a' := v) hi
  have hne := mt BitVec.eq_of_toNat_eq hv
  generalize bs[i] = b at hbs hne
  have hb := b.isLt
  have hv := v.isLt
  rw [hset, hbs, Ne, checksum_eq_iff]
  simp only [sumNat_append, sumNat_cons]
  omega

/-- Another value in one place after the markers is rejected: of a covered byte because the checksum is another, of the
checksum byte because it no longer is the checksum. -/
theorem decodeAndValidate_set_eq_none {a c b v l : Byte} {pl : List Byte} {i : Nat} (hb : (encode a c pl)[i + 2]? = some b)
    (hv : v ≠ b) : decodeAndValidate ((encode a c pl).set (i + 2) v) c l = none := by
  refine Option.eq_none_iff_forall_ne_some.mpr fun pl' h => ?_
  rw [encode_eq_covered, List.getElem?_cons_succ, List.getElem?_cons_succ] at hb
  rw [encode_eq_covered, List.set_cons_succ, List.set_cons_succ] at h
  by_cases hi : i < (covered a c pl).length
  · rw [List.getElem?_append_left hi] at hb
    rw [List.set_append_left _ _ hi] at h
    exact checksum_set_ne hb hv (checks_of_decodeAndValidate h).left.symm
  · obtain ⟨hlen, -⟩ := List.getElem?_eq_some_iff.mp hb
    obtain rfl : i = (covered a c pl).length := by simp only [List.length_append, List.length_singleton] at hlen; omega
    rw [List.getElem?_concat_length, Option.some.injEq] at hb
    rw [List.set_append_right _ _ le_rfl, Nat.sub_self, List.set_cons_zero] at h
    exact hv ((checks_of_decodeAndValidate h).left.trans hb)

/-- +k in one payload byte and -k in another leave the sum modulo 256 as it was. -/
theorem checksum_covered_shift (a c x y k : Byte) (p q r : List Byte) :
    checksum (covered a c (p ++ [x] ++ q ++ [y] ++ r)) = checksum (covered a c (p ++ [x + k] ++ q ++ [y - k] ++ r)) := by
  have hlen : (p ++ [x] ++ q ++ [y] ++ r).length = (p ++ [x + k] ++ q ++ [y - k] ++ r).length := by simp
  rw [checksum_eq_iff, covered, covered, hlen]
  simp only [sumNat_append, sumNat_cons, sumNat_nil, BitVec.toNat_add, BitVec.toNat_sub]
  omega

/-- Settles O8: markers are not read; a change elsewhere is rejected; the checksum is a function of the covered bytes; and errors
that cancel keep it. -/
theorem singleBitSensitivity : Obligations.SingleBitSensitivity := by
  refine ⟨?_, ?_, ?_⟩
  · rintro a c pl f' off bit b hpl hbit hb rfl
    rw [ofNat_eq_lengthByte]
    match off with
    | 0 => exact decodeAndValidate_frame _ _ a c hpl
    | 1 => exact decodeAndValidate_frame _ _ a c hpl
    | i + 2 =>
      rw [if_neg (by omega)]
      exact decodeAndValidate_set_eq_none hb (xor_twoPow_ne b hbit)
  · intro a c ck pl hpl
    rw [ofNat_eq_lengthByte]
    constructor
    · intro h
      obtain ⟨pl', hpl'⟩ := Option.ne_none_iff_exists'.mp h
      exact (checks_of_decodeAndValidate hpl').left
    · rintro rfl
      exact ne_of_eq_of_ne (decodeAndValidate_frame _ _ a c hpl) nofun
  · intro a c x y k p q r hpl
    have hlen : (p ++ [x] ++ q ++ [y] ++ r).length = (p ++ [x + k] ++ q ++ [y - k] ++ r).length := by simp
    rw [ofNat_eq_lengthByte, checksum_covered_shift a c x y k p q r, hlen]
    exact decodeAndValidate_frame _ _ a c (hlen ▸ hpl)

end Sys2Proof.Machine.Codec
end

