-- ==== Sys2Proof/Proofs/CodecRows.lean ====
section
/-! The codec's rows evaluated on their own (40_codec R110, R113, R115): the functions' values spelled out on bytes. -/

namespace Sys2Proof.Machine

open Sys2Proof Sys2Proof.Machine.Codec

theorem encode_eq_bytes (a c : Byte) {pl : List Byte} (h : pl.length ≤ 6) :
    Codec.encode a c pl = [0x55, 0x55, a, BitVec.ofNat 8 (pl.length + 3), c] ++ pl ++
      [BitVec.ofNat 8 (255 - (a.toNat + (pl.length + 3) + c.toNat + (pl.map BitVec.toNat).sum) % 256)] := by
  have hsum : sumNat (covered a c pl) = a.toNat + (pl.length + 3) + c.toNat + sumNat pl := by
    simp only [covered, sumNat_cons, lengthByte_toNat h]
    omega
  rw [encode_eq_cons, checksum_eq_ofNat, hsum]
  rfl

/-- Settles O10: each row's meaning with the function's value spelled out. -/
theorem codecRowsComplete : Obligations.CodecRowsComplete := by
  refine fun s => ⟨fun bs => ?_, fun a c pl hpl => ?_, fun a c pl hpl => ?_, fun raw c l => ?_⟩
  · rw [exec, execChecksum, checksum_eq_ofNat]; rfl
  · rw [exec, execEncodeFrame, if_pos hpl, encode_eq_bytes a c hpl]; rfl
  · rw [exec, execEncodeFrame, if_neg (Nat.not_le.mpr hpl)]
  · rw [exec, execDecodeValidate]
    cases Codec.decodeAndValidate raw c l <;> rfl

end Sys2Proof.Machine
end

