-- ==== Sys2Proof/Proofs/Starts.lean ====
section
/-! Starts (41_session_ops R130, R133, R134, R135): what each does when it is accepted, and that it changes nothing otherwise. -/

namespace Sys2Proof.Machine

open Sys2Proof Sys2Proof.Safety

/-! ## BIND and CLOSE are one step each, so operation and step are the same function -/

theorem exec_bind (arg : Byte) (s : State) : exec (.bind arg) s = execTBind arg s := rfl

theorem exec_close (s : State) : exec .close s = execTClose s := rfl

theorem execTBind_accepted {s : State} (h : acceptsBind s = true) (arg : Byte) :
    execTBind arg s = .next (bindSession arg s) := if_pos h

theorem execTClose_accepted {s : State} (h : acceptsClose s = true) : execTClose s = .next (closeSession s) := if_pos h

theorem bindSession_ok {s : State} (h : s.chanOk = true) (arg : Byte) :
    bindSession arg s = { s with addr := arg, opened := true, status := .ok, done := true } := if_pos h

theorem bindSession_failed {s : State} (h : s.chanOk = false) (arg : Byte) :
    bindSession arg s = { s with status := .channelSetupFailure, done := true } := if_neg (by simp [h])

/-! ## A precondition that fails (R135) -/

theorem not_acceptsBind {s : State} (h : s.phase ≠ .idle ∨ s.opened = true) : ¬ acceptsBind s = true := by
  rw [acceptsBind_iff]
  rintro ⟨hp, hclosed⟩
  simp [hp, hclosed] at h

theorem not_acceptsClose {s : State} (h : s.phase ≠ .idle ∨ s.opened = false) : ¬ acceptsClose s = true := by
  rw [acceptsClose_iff]
  rintro ⟨hp, hopen⟩
  simp [hp, hopen] at h

theorem not_acceptsSend {d : Args} {s : State} (h : s.phase ≠ .idle ∨ s.opened = false ∨ d.plen = 7) :
    ¬ acceptsSend d s = true := by
  intro hacc
  obtain ⟨hp, hopen, hn⟩ := acceptsSend_iff.mp hacc
  obtain h | h | h := h
  · exact h hp
  · simp [hopen] at h
  · simp [h] at hn

theorem execTBind_ignored {s : State} (h : s.phase ≠ .idle ∨ s.opened = true) (arg : Byte) : execTBind arg s = .next s :=
  if_neg (not_acceptsBind h)

theorem execTClose_ignored {s : State} (h : s.phase ≠ .idle ∨ s.opened = false) : execTClose s = .next s :=
  if_neg (not_acceptsClose h)

theorem execTStartReq_ignored {d : Args} {s : State} (h : ¬ acceptsSend d s = true) : execTStartReq d s = .next s := if_neg h

theorem execTStartWr_ignored {d : Args} {s : State} (h : ¬ acceptsSend d s = true) : execTStartWr d s = .next s := if_neg h

theorem execRequestReply_ignored {d : Args} {s : State} (h : ¬ acceptsSend d s = true) : execRequestReply d s = .next s :=
  if_neg h

theorem execWriteCommand_ignored {d : Args} {s : State} (h : ¬ acceptsSend d s = true) : execWriteCommand d s = .next s :=
  if_neg h

/-! ## The statements -/

/-- Settles O15: an accepted BIND follows `chan_ok`; with a session open none is accepted. -/
theorem bindResult : Obligations.BindResult := by
  refine fun arg s => ⟨fun hp hclosed hok => ?_, fun hp hclosed hfail => ?_, fun hopen => ?_⟩
  · rw [exec_bind, ← bindSession_ok hok]
    exact and_self_iff.mpr (execTBind_accepted (acceptsBind_iff.mpr ⟨hp, hclosed⟩) arg)
  · rw [exec_bind, ← bindSession_failed hfail]
    exact and_self_iff.mpr (execTBind_accepted (acceptsBind_iff.mpr ⟨hp, hclosed⟩) arg)
  · exact and_self_iff.mpr (execTBind_ignored (.inr hopen) arg)

/-- Settles O16: an accepted CLOSE, and one outside Idle. -/
theorem closeResult : Obligations.CloseResult := by
  refine fun s => ⟨fun hp hopen => ?_, fun hp => ?_⟩
  · exact and_self_iff.mpr (execTClose_accepted (acceptsClose_iff.mpr ⟨hp, hopen⟩))
  · exact and_self_iff.mpr (execTClose_ignored (.inl hp))

/-- Settles O17: none of these starts is accepted; a raw pulse runs its start step. -/
theorem ignoredStarts : Obligations.IgnoredStarts := by
  refine fun s => ⟨fun arg h => and_self_iff.mpr (execTBind_ignored h arg), fun h => and_self_iff.mpr (execTClose_ignored h),
    fun d h => ?_, fun w rest ha h => ?_⟩
  · have hno := not_acceptsSend h
    exact ⟨execWriteCommand_ignored hno, execRequestReply_ignored hno, execTStartWr_ignored hno, execTStartReq_ignored hno⟩
  · rw [step_runs_start ha rfl, decodeStart]
    cases ho : descOp w with
    | bind => exact execTBind_ignored (by simpa only [ho] using h) w.byte1
    | close => exact execTClose_ignored (by simpa only [ho] using h)
    | writeCommand => exact execTStartWr_ignored (not_acceptsSend (by simpa only [ho] using h))
    | requestReply => exact execTStartReq_ignored (not_acceptsSend (by simpa only [ho] using h))

/-- Settles O18: a legal start is accepted, and the step is its effect. -/
theorem legalStartsAreAccepted : Obligations.LegalStartsAreAccepted := by
  intro w s rest hlegal ha
  rw [step_runs_start ha rfl, decodeStart]
  unfold HostLegal at hlegal
  cases ho : descOp w with
  | bind =>
    simp only [ho, Bool.and_eq_true] at hlegal
    obtain ⟨hacc, -⟩ := hlegal
    obtain ⟨hp, -⟩ := acceptsBind_iff.mp hacc
    refine ⟨_, execTBind_accepted (s := { s with agenda := rest }) hacc w.byte1, by rw [bindSession_phase, hp], ?_⟩
    cases s.chanOk <;> simp [bindSession]
  | close =>
    simp only [ho] at hlegal
    obtain ⟨hp, -⟩ := acceptsClose_iff.mp hlegal
    exact ⟨_, execTClose_accepted (s := { s with agenda := rest }) hlegal, hp, rfl, rfl, rfl⟩
  | writeCommand =>
    simp only [ho, Bool.and_eq_true] at hlegal
    obtain ⟨hacc, -⟩ := hlegal
    exact ⟨_, (if_pos hacc).trans (startWrite_eq (s := { s with agenda := rest }) hacc), rfl, rfl, rfl⟩
  | requestReply =>
    simp only [ho, Bool.and_eq_true] at hlegal
    obtain ⟨hacc, -⟩ := hlegal
    exact ⟨_, if_pos hacc, rfl, rfl, rfl⟩

end Sys2Proof.Machine
end

