-- ==== Sys2Proof/Proofs/Calls.lean ====
section
/-! A whole call (41_session_ops R131, R132): every accepted one ends in Idle; what its start establishes and every engine turn and
every event keep holds at its end. -/

namespace Sys2Proof.Machine

open Sys2Proof Sys2Proof.Safety

/-! ## The engine never stops on its way -/

/-- What the engine's turn asks of the registers in each phase (R24 to R30). It holds through a reset as well, and needs no bound on
the parameters. -/
structure Runnable (s : State) : Prop where
  plen_le : s.phase = .flushed → s.plen.toNat ≤ 6
  op_flushed : s.phase = .flushed → s.op = .requestReply
  op_sent : s.phase = .sent → s.op = .writeCommand ∨ s.op = .requestReply
  need_le : s.phase = .awaitingBody → s.need.toNat ≤ 254

theorem Runnable.turn {s t : State} (hs : Runnable s) (h : Turn s t) : Runnable t := by
  cases h with
  | idle => exact hs
  | send hp => exact ⟨nofun, nofun, fun _ => .inr (hs.op_flushed hp), nofun⟩
  | header => exact ⟨nofun, nofun, nofun, fun _ => bodyNeed_le _⟩
  | headerMiss | bodyMiss => exact ⟨hs.plen_le, hs.op_flushed, hs.op_sent, hs.need_le⟩
  | body =>
    obtain ⟨st, n, p, -, hout⟩ := bodyOutcome_frame (afterBodyRead s) (bodyVerdict s)
    rw [hout]
    exact ⟨nofun, nofun, nofun, nofun⟩
  | _ => exact ⟨nofun, nofun, nofun, nofun⟩

theorem Runnable.move {s t : State} (hs : Runnable s) (h : Move s t) : Runnable t := by
  cases h with
  | turn h => exact hs.turn h
  | @tick _ rest _ h =>
    have hs' : Runnable { s with agenda := rest } := ⟨hs.plen_le, hs.op_flushed, hs.op_sent, hs.need_le⟩
    exact hs'.turn h
  | bytes | chanOk => exact ⟨hs.plen_le, hs.op_flushed, hs.op_sent, hs.need_le⟩
  | reset => exact ⟨nofun, nofun, nofun, nofun⟩

theorem Runnable.busyStep {s : State} (hs : Runnable s) : ∃ t, Machine.busyStep s = .next t ∧ Runnable t := by
  obtain ⟨t, ht, hmove⟩ := move_total hs.plen_le hs.need_le hs.op_sent
  exact ⟨t, ht, hs.move hmove⟩

theorem Started.runnable {d : Args} {s u : State} {o : OpCode} (h : Started d s o u) : Runnable u := by
  obtain ⟨-, -, hn⟩ := acceptsSend_iff.mp h.accepts
  cases h with
  | request => exact ⟨fun _ => hn, fun _ => rfl, nofun, nofun⟩
  | write => exact ⟨nofun, nofun, fun _ => .inl rfl, nofun⟩

/-- An accepted call ends in Idle, whatever the agenda brings, and what its start establishes and every move keeps holds there. -/
theorem Started.call_reaches {d : Args} {s u : State} {o : OpCode} {P : State → Prop} (h : Started d s o u) (hu : P u)
    (hmove : ∀ v w, P v → busyStep v = .next w → P w) :
    ∃ t, runToIdle (callFuel s) u = .next t ∧ P t ∧ t.phase = .idle ∧ t.cfg = s.cfg := by
  have hstep : ∀ v, Runnable v ∧ P v → v.phase ≠ .idle → ∃ w, busyStep v = .next w ∧ Runnable w ∧ P w := by
    intro v ⟨hrun, hv⟩ _
    obtain ⟨w, hw, hrun'⟩ := hrun.busyStep
    exact ⟨w, hw, hrun', hmove v w hv hw⟩
  obtain ⟨t, ht, ⟨-, hPt⟩, hp, hcfg⟩ := runToIdle_reaches hstep (callFuel s) u ⟨h.runnable, hu⟩ h.turnsLeft_le
  exact ⟨t, ht, hPt, hp, hcfg.trans h.cfg⟩

theorem exec_requestReply_accepted {d : Args} {s : State} (h : acceptsSend d s = true) :
    exec (.requestReply d) s = runToIdle (callFuel s) (startRequest d s) := if_pos h

theorem exec_writeCommand_accepted {d : Args} {s : State} (h : acceptsSend d s = true) :
    exec (.writeCommand d) s = runToIdle (callFuel s) (afterSend (latch .writeCommand d s)) := by
  rw [exec, execWriteCommand, writeCall, if_pos h, startWrite_eq h]

/-! ## What a move does is the agenda's choice -/

/-- The outside world takes event `e` of the agenda and drives `chan_ok` to `c`: the bytes it brings arrive (R56). -/
def takeEvent (e : Event) (rest : List Event) (c : Bool) (s : State) : State :=
  { s with agenda := rest, chanOk := c, rxq := rxAppendAll s.cfg.rxfifoDepth s.rxq (arrivals [e]) }

/-- With no reset in it, the agenda alone decides whether a move is the engine's turn, a turn given by a tick, or an event. -/
theorem busyStep_of_agenda {as : List Event} (hr : Event.reset ∉ as) :
    (∀ s, s.agenda = as → busyStep s = engineStep s) ∨
    ∃ e rest, as = e :: rest ∧
      ((∀ s, s.agenda = as → busyStep s = engineStep (takeEvent e rest s.chanOk s)) ∨
       (∀ s, s.agenda = as → ∃ c, busyStep s = .next (takeEvent e rest c s))) := by
  cases as with
  | nil => exact .inl fun s ha => by rw [busyStep, ha]
  | cons e rest =>
    cases e with
    | tick => exact .inr ⟨_, _, rfl, .inl fun s ha => by rw [busyStep, ha]; rfl⟩
    | deliver b => exact .inr ⟨_, _, rfl, .inr fun s ha => ⟨s.chanOk, by rw [busyStep, ha]; rfl⟩⟩
    | chanOk v => exact .inr ⟨_, _, rfl, .inr fun s ha => ⟨v, by rw [busyStep, ha]; rfl⟩⟩
    | reset => simp at hr
    | start w => exact .inr ⟨_, _, rfl, .inr fun s ha => ⟨s.chanOk, by rw [busyStep, ha]; rfl⟩⟩
    | wrapper c vs => exact .inl fun s ha => by rw [busyStep, ha]
    | word p bs =>
      cases p with
      | link =>
        refine .inr ⟨_, _, rfl, .inr fun s ha => ⟨s.chanOk, ?_⟩⟩
        rw [busyStep, ha]
        simp only [deliverAll_eq, takeEvent, arrivals, List.append_nil]
      | _ => exact .inl fun s ha => by rw [busyStep, ha]

/-- What every turn and every event keep, a move without a reset keeps. -/
theorem busyStep_keeps {P : State → Prop} (hturn : ∀ u v, P u → Turn u v → P v)
    (hevent : ∀ u e rest c, P u → u.agenda = e :: rest → P (takeEvent e rest c u)) {s t : State} (hs : P s)
    (hr : Event.reset ∉ s.agenda) (h : busyStep s = .next t) : P t := by
  obtain heq | ⟨e, rest, ha, heq | heq⟩ := busyStep_of_agenda hr
  · exact hturn s t hs (turn_of_engineStep ((heq s rfl).symm.trans h))
  · exact hturn _ t (hevent s e rest s.chanOk hs ha) (turn_of_engineStep ((heq s rfl).symm.trans h))
  · obtain ⟨c, hc⟩ := heq s rfl
    obtain rfl : takeEvent e rest c s = t := by rw [hc] at h; exact Host.Outcome.next.inj h
    exact hevent s e rest c hs ha

/-! ## The frame a call transmits -/

/-- The operands of a send, latched, with the session as it was in `s` (R150, R151). -/
def Latched (o : OpCode) (d : Args) (s t : State) : Prop :=
  t.opened = s.opened ∧ t.addr = s.addr ∧ t.op = o ∧ t.bcast = d.bcast ∧ t.cmd = d.cmd ∧ t.plen = d.plen ∧ t.pay = d.pay ∧
    t.explen = d.explen ∧ t.cfg = s.cfg ∧ t.codecOut = s.codecOut ∧ t.freeIx = s.freeIx

/-- The frame of a send with operands `d` from state `s` was transmitted and stands in `txbuf`, whose bytes beyond it are those of
`s` (R152). -/
def FrameSent (d : Args) (s t : State) : Prop :=
  t.txlog = s.txlog ++ requestFrame s.addr d ∧ t.txlen.toNat = 6 + d.plen.toNat ∧
    Memory.readBlock t.txbuf 0 (6 + d.plen.toNat) = requestFrame s.addr d ∧
    ∀ k, 6 + d.plen.toNat ≤ k → Memory.read t.txbuf k = Memory.read s.txbuf k

theorem latch_latched (o : OpCode) (d : Args) (s : State) : Latched o d s (latch o d s) :=
  ⟨rfl, rfl, rfl, rfl, rfl, rfl, rfl, rfl, rfl, rfl, rfl⟩

/-- T_SEND, and the send within T_START_WR, on latched operands (R151 to R153). -/
theorem afterSend_frameSent {o : OpCode} {d : Args} {s u : State} (hl : Latched o d s u) (hlog : u.txlog = s.txlog)
    (hbuf : u.txbuf = s.txbuf) (hb : u.txbuf.wf = true) (hn : u.plen.toNat ≤ 6) : FrameSent d s (afterSend u) := by
  obtain ⟨-, haddr, -, hbcast, hcmd, hplen, hpay, -⟩ := hl
  have hframe : Codec.encode (sendAddr u) u.cmd (payloadOf u.pay u.plen) = requestFrame s.addr d := by
    rw [sendAddr, hbcast, haddr, hcmd, hpay, hplen, requestFrame]
  obtain ⟨t, ht, hsent⟩ := sendAndGo_legal hb hn
  obtain rfl : afterSend u = t := Host.Outcome.next.inj ((sendAndGo_eq hn).symm.trans ht)
  obtain ⟨htxlog, htxlen, hblock, hbeyond, -⟩ := hsent
  rw [hframe] at htxlog hblock
  rw [hplen] at htxlen hblock hbeyond
  exact ⟨hlog ▸ htxlog, htxlen, hblock, hbuf ▸ hbeyond⟩

end Sys2Proof.Machine
end

