-- ==== Sys2Proof/Proofs/WriteCommand.lean ====
section
/-! WRITE_COMMAND as a whole (41_session_ops R131). -/

namespace Sys2Proof.Machine

open Sys2Proof Sys2Proof.Safety

/-- `rest` is what is left of the agenda, no reset in it, and `q` is the queue after the arrivals of the used part. -/
def ArrivedSince (w : State) (q : List Byte) (rest : List Event) : Prop :=
  Event.reset ∉ rest ∧
    ∃ used, w.agenda = used ++ rest ∧ q = rxAppendAll w.cfg.rxfifoDepth w.rxq (arrivals used)

theorem ArrivedSince.event {w : State} {q : List Byte} {e : Event} {rest : List Event} (h : ArrivedSince w q (e :: rest)) :
    ArrivedSince w (rxAppendAll w.cfg.rxfifoDepth q (arrivals [e])) rest := by
  obtain ⟨hr, used, hused, rfl⟩ := h
  refine ⟨fun hmem => hr (List.mem_cons_of_mem e hmem), used ++ [e], by rw [hused, List.append_assoc]; rfl, ?_⟩
  rw [arrivals_append, rxAppendAll_append]

/-- The queue is the one of `w` if nothing arrives at all. -/
theorem ArrivedSince.queue_eq {w : State} {q : List Byte} {rest : List Event} (h : ArrivedSince w q rest)
    (hnone : arrivals w.agenda = []) : q = w.rxq := by
  obtain ⟨-, used, hused, rfl⟩ := h
  rw [hused, arrivals_append, List.append_eq_nil_iff] at hnone
  obtain ⟨hnone, -⟩ := hnone
  rw [hnone]
  rfl

/-- The three stages of a write whose frame went out in `w` (R151, R154, R163): each differs from `w` in the outcome and in what the
outside world drives. -/
inductive WriteStage (w : State) : State → Prop where
  | sent {q : List Byte} {c : Bool} {rest : List Event} (h : ArrivedSince w q rest) :
      WriteStage w { w with rxq := q, chanOk := c, agenda := rest }
  | validated {q : List Byte} {c : Bool} {rest : List Event} (h : ArrivedSince w q rest) :
      WriteStage w { w with status := .ok, phase := .validated, rxq := q, chanOk := c, agenda := rest }
  | finished {q : List Byte} {c : Bool} {rest : List Event} (h : ArrivedSince w q rest) :
      WriteStage w { w with status := .ok, done := true, phase := .idle, rxq := q, chanOk := c, agenda := rest }

theorem WriteStage.start {w : State} (hr : Event.reset ∉ w.agenda) : WriteStage w w := .sent ⟨hr, [], rfl, rfl⟩

theorem WriteStage.noReset {w u : State} (h : WriteStage w u) : Event.reset ∉ u.agenda := by
  cases h with
  | sent h | validated h | finished h => exact h.left

theorem WriteStage.event {w u : State} {e : Event} {rest : List Event} (h : WriteStage w u) (ha : u.agenda = e :: rest)
    (c : Bool) : WriteStage w (takeEvent e rest c u) := by
  cases h with
  | sent h => exact .sent (ArrivedSince.event (ha ▸ h))
  | validated h => exact .validated (ArrivedSince.event (ha ▸ h))
  | finished h => exact .finished (ArrivedSince.event (ha ▸ h))

/-- A turn leads from each stage to the next, and in Idle nowhere (R154, R163). -/
theorem WriteStage.turn {w u v : State} (hp : w.phase = .sent) (ho : w.op = .writeCommand) (hu : WriteStage w u)
    (h : Turn u v) : WriteStage w v := by
  cases hu with
  | sent harr =>
    cases h with
    | writeDone => exact .validated harr
    | arm _ ho' => exact absurd (ho.symm.trans ho') nofun
    | _ hp' => exact absurd (hp.symm.trans hp') nofun
  | validated harr =>
    cases h with
    | retire => exact .finished harr
    | _ hp' => exact absurd hp' nofun
  | finished harr =>
    cases h with
    | idle => exact .finished harr
    | _ hp' => exact absurd hp' nofun

/-- Settles O19: the write passes its three stages whatever arrives, and the last one is the result. -/
theorem writeCommandWhole : Obligations.WriteCommandWhole := by
  rintro d s _ ⟨htwf, -⟩ hp hopen hn hr rfl
  have hacc : acceptsSend d s = true := acceptsSend_iff.mpr ⟨hp, hopen, hn⟩
  obtain ⟨hlog, hlen, hblock, hbeyond⟩ : FrameSent d s (afterSend (latch .writeCommand d s)) :=
    afterSend_frameSent (latch_latched .writeCommand d s) rfl rfl htwf hn
  obtain ⟨t, ht, hstage, htp, -⟩ := (Started.write hacc).call_reaches (WriteStage.start hr)
    fun _ _ hu => busyStep_keeps (fun _ _ => WriteStage.turn rfl rfl) (fun _ _ _ c hu ha => hu.event ha c) hu hu.noReset
  cases hstage with
  | sent => cases htp
  | validated => cases htp
  | finished harr =>
    have ⟨_, used, hused, hq⟩ := harr
    refine ⟨_, (exec_writeCommand_accepted hacc).trans ht, hlog, rfl, rfl, rfl, rfl, ⟨used, hused, hq.trans ?_⟩, harr.queue_eq,
      hlen, hblock, hbeyond, by rw [← hp]; rfl⟩
    change rxAppendAll s.cfg.rxfifoDepth s.rxq (arrivals used) = _
    cases s.cfg.rxfifoDepth with
    | none => exact rxAppendAll_none _ _
    | some n => exact rxAppendAll_some _ _ _

end Sys2Proof.Machine
end

