-- ==== Sys2Proof/Proofs/RequestReply.lean ====
section
/-! REQUEST_REPLY as a whole (41_session_ops R132, 42_sequencer_steps R164): it completes with one frame sent and one of four
outcomes, and leaves the rest unchanged. -/

namespace Sys2Proof.Machine

open Sys2Proof Sys2Proof.Safety

/-! ## What each turn keeps of the call that began in state `s` -/

theorem Latched.turn {o : OpCode} {d : Args} {s u v : State} (hu : Latched o d s u) (h : Turn u v) : Latched o d s v := by
  cases h with
  | body =>
    obtain ⟨st, n, p, -, hout⟩ := bodyOutcome_frame (afterBodyRead u) (bodyVerdict u)
    rw [hout]
    exact hu
  | _ => exact hu

/-- The transmit side: as it was up to T_SEND, and then with the frame (R152, R153). -/
def TransmitSide (d : Args) (s u : State) : Prop :=
  u.phase = .flushed ∧ u.txlog = s.txlog ∧ u.txbuf = s.txbuf ∨ u.phase ≠ .flushed ∧ FrameSent d s u

theorem TransmitSide.turn {o : OpCode} {d : Args} {s u v : State} (hu : TransmitSide d s u) (hl : Latched o d s u)
    (hb : BuffersOk u) (h : Turn u v) : TransmitSide d s v := by
  obtain ⟨hp, hlog, hbuf⟩ | ⟨hp, hsent⟩ := hu
  · obtain ⟨htwf, -⟩ := hb
    cases h with
    | send _ hn => exact .inr ⟨nofun, afterSend_frameSent hl hlog hbuf htwf hn⟩
    | _ hp' => exact absurd (hp.symm.trans hp') nofun
  · cases h with
    | send hp' => exact absurd hp' hp
    | idle | headerMiss | bodyMiss => exact .inr ⟨hp, hsent⟩
    | body =>
      obtain ⟨st, n, p, -, hout⟩ := bodyOutcome_frame (afterBodyRead u) (bodyVerdict u)
      rw [hout]
      exact .inr ⟨nofun, hsent⟩
    | _ => exact .inr ⟨nofun, hsent⟩

/-- The receive side: the buffer beyond `rxcnt` is as it was, and up to the header `rxcnt` is at most 4 (R156, R160). -/
def ReceiveSide (s u : State) : Prop :=
  (∀ k, u.rxcnt.toNat ≤ k → Memory.read u.rxbuf k = Memory.read s.rxbuf k) ∧
    (u.phase ≠ .validated → u.phase ≠ .idle → u.rxcnt.toNat ≤ 4)

theorem ReceiveSide.turn {s u v : State} (hu : ReceiveSide s u) (h : Turn u v) : ReceiveSide s v := by
  have ⟨hbeyond, hcnt⟩ := hu
  cases h with
  | idle | headerMiss | bodyMiss => exact hu
  | send hp | arm hp => exact ⟨hbeyond, fun _ _ => hcnt (by simp [hp]) (by simp [hp])⟩
  | header hp =>
    refine ⟨fun k hk => ?_, fun _ _ => le_rfl⟩
    have hk : 4 ≤ k := hk
    have hle : u.rxcnt.toNat ≤ 4 := hcnt (by simp [hp]) (by simp [hp])
    refine (Memory.read_writeBlock_other (.inr ?_)).trans (hbeyond k (hle.trans hk))
    rw [List.length_take]; omega
  | body hp _ hn =>
    obtain ⟨st, n, p, -, hout⟩ := bodyOutcome_frame (afterBodyRead u) (bodyVerdict u)
    rw [hout]
    refine ⟨fun k hk => ?_, fun hne => absurd rfl hne⟩
    have hk : 4 + u.need.toNat ≤ k := by
      have hmod : (4 + u.need.toNat) % 2 ^ 9 ≤ k := by rw [← BitVec.toNat_ofNat]; exact hk
      omega
    have hle : u.rxcnt.toNat ≤ 4 := hcnt (by simp [hp]) (by simp [hp])
    refine (Memory.read_writeBlock_other (.inr ?_)).trans (hbeyond k (by omega))
    rw [List.length_take]; omega
  | writeDone | headerTimeout | bodyTimeout => exact ⟨hbeyond, fun hne => absurd rfl hne⟩
  | retire => exact ⟨hbeyond, fun _ hne => absurd rfl hne⟩

/-- The four outcomes: `Ok`, or a failure beside which the result registers are as they were (R132, log entry 10). -/
def RequestOutcome (s u : State) : Prop :=
  u.status = .ok ∨ (u.status = .headerTimeout ∨ u.status = .bodyTimeout ∨ u.status = .corruptReply) ∧
    u.rplen = s.rplen ∧ u.rpay = s.rpay

/-- The result side: no outcome while the call runs, then one, and it is published in Idle (R163, R196). -/
inductive ResultSide (s u : State) : Prop where
  | running (hv : u.phase ≠ .validated) (hi : u.phase ≠ .idle) (hlen : u.rplen = s.rplen) (hpay : u.rpay = s.rpay)
  | decided (hp : u.phase = .validated) (h : RequestOutcome s u)
  | published (hp : u.phase = .idle) (hd : u.done = true) (h : RequestOutcome s u)

theorem bodyOutcome_outcome {s u : State} (hlen : u.rplen = s.rplen) (hpay : u.rpay = s.rpay) (r : Option (List Byte)) :
    RequestOutcome s (bodyOutcome r u) := by
  cases r with
  | some pl => exact .inl rfl
  | none => exact .inr ⟨.inr (.inr rfl), hlen, hpay⟩

theorem ResultSide.turn {s u v : State} (hu : ResultSide s u) (h : Turn u v) : ResultSide s v := by
  cases hu with
  | running hv hi hlen hpay =>
    cases h with
    | idle hp => exact absurd hp hi
    | retire hp => exact absurd hp hv
    | writeDone => exact .decided rfl (.inl rfl)
    | headerTimeout => exact .decided rfl (.inr ⟨.inl rfl, hlen, hpay⟩)
    | bodyTimeout => exact .decided rfl (.inr ⟨.inr (.inl rfl), hlen, hpay⟩)
    | body => exact .decided (bodyOutcome_phase _ _) (bodyOutcome_outcome (u := afterBodyRead u) hlen hpay _)
    | headerMiss | bodyMiss => exact .running hv hi hlen hpay
    | send | arm | header => exact .running nofun nofun hlen hpay
  | decided hp hout =>
    cases h with
    | retire => exact .published rfl rfl hout
    | _ hp' => exact absurd (hp.symm.trans hp') nofun
  | published hp hd hout =>
    cases h with
    | idle => exact .published hp hd hout
    | _ hp' => exact absurd (hp.symm.trans hp') nofun

/-! ## The call -/

/-- How far a REQUEST_REPLY that began in `s` has come in `u`, when no reset is on its way. -/
structure RequestProgress (d : Args) (s u : State) : Prop where
  buffers : BuffersOk u
  noReset : Event.reset ∉ u.agenda
  latched : Latched .requestReply d s u
  transmit : TransmitSide d s u
  receive : ReceiveSide s u
  result : ResultSide s u

theorem RequestProgress.start {d : Args} {s : State} (hb : BuffersOk s) (hr : Event.reset ∉ s.agenda) :
    RequestProgress d s (startRequest d s) where
  buffers := hb
  noReset := hr
  latched := latch_latched .requestReply d s
  transmit := .inl ⟨rfl, rfl, rfl⟩
  receive := ⟨fun _ _ => rfl, fun _ _ => Nat.zero_le 4⟩
  result := .running nofun nofun rfl rfl

theorem RequestProgress.turn {d : Args} {s u v : State} (hu : RequestProgress d s u) (h : Turn u v) :
    RequestProgress d s v where
  buffers := turn_buffersOk h hu.buffers
  noReset := turn_agenda h ▸ hu.noReset
  latched := hu.latched.turn h
  transmit := hu.transmit.turn hu.latched hu.buffers h
  receive := hu.receive.turn h
  result := hu.result.turn h

theorem ResultSide.event {s u : State} (hu : ResultSide s u) (e : Event) (rest : List Event) (c : Bool) :
    ResultSide s (takeEvent e rest c u) := by
  cases hu with
  | running hv hi hlen hpay => exact .running hv hi hlen hpay
  | decided hp h => exact .decided hp h
  | published hp hd h => exact .published hp hd h

theorem RequestProgress.event {d : Args} {s u : State} {e : Event} {rest : List Event} (hu : RequestProgress d s u)
    (ha : u.agenda = e :: rest) (c : Bool) : RequestProgress d s (takeEvent e rest c u) where
  buffers := hu.buffers
  noReset hmem := hu.noReset (ha ▸ List.mem_cons_of_mem e hmem)
  latched := hu.latched
  transmit := hu.transmit
  receive := hu.receive
  result := hu.result.event e rest c

theorem RequestProgress.move {d : Args} {s u v : State} (hu : RequestProgress d s u) (h : busyStep u = .next v) :
    RequestProgress d s v :=
  busyStep_keeps (fun _ _ => RequestProgress.turn) (fun _ _ _ c hw ha => hw.event ha c) hu hu.noReset h

/-- A state with these operands latched differs from `s` in them and in what is listed here. -/
theorem Latched.eq_update {o : OpCode} {d : Args} {s t : State} (h : Latched o d s t) :
    t = { s with op := o, bcast := d.bcast, cmd := d.cmd, plen := d.plen, pay := d.pay, explen := d.explen,
                 phase := t.phase, done := t.done, status := t.status, rplen := t.rplen, rpay := t.rpay,
                 pollCnt := t.pollCnt, need := t.need, txbuf := t.txbuf, txlen := t.txlen, txlog := t.txlog,
                 rxbuf := t.rxbuf, rxcnt := t.rxcnt, rxq := t.rxq, chanOk := t.chanOk, agenda := t.agenda } := by
  obtain ⟨hopen, haddr, hop, hbcast, hcmd, hplen, hpay, hexplen, hcfg, hout, hfree⟩ := h
  rw [← hopen, ← haddr, ← hop, ← hbcast, ← hcmd, ← hplen, ← hpay, ← hexplen, ← hcfg, ← hout, ← hfree]

/-- Settles O21: with a reset or without, the call reaches Idle; without one every move keeps its progress. -/
theorem requestReplyCompletes : Obligations.RequestReplyCompletes := by
  rintro d s _ hb hp hopen hn rfl
  have hacc : acceptsSend d s = true := acceptsSend_iff.mpr ⟨hp, hopen, hn⟩
  obtain ⟨t, ht, hprogress, htp, hcfg⟩ :=
    (Started.request hacc).call_reaches (P := fun u => Event.reset ∉ s.agenda → RequestProgress d s u)
      (RequestProgress.start hb) fun _ _ hu hmove hr => (hu hr).move hmove
  refine ⟨t, (exec_requestReply_accepted hacc).trans ht, htp, hcfg, fun hr => ?_⟩
  have hprog := hprogress hr
  obtain ⟨hflushed, -⟩ | ⟨-, hlog, hlen, hblock, htx⟩ := hprog.transmit
  · exact absurd (htp.symm.trans hflushed) nofun
  obtain ⟨hrx, -⟩ := hprog.receive
  cases hprog.result with
  | running _ hi => exact absurd htp hi
  | decided hv => exact absurd (htp.symm.trans hv) nofun
  | published _ hd hout =>
    refine ⟨hd, hlog, hout, hlen, hblock, htx, hrx, ?_⟩
    have heq := hprog.latched.eq_update
    rw [hd, htp, ← hp] at heq
    exact heq

end Sys2Proof.Machine
end

