-- ==== Sys2Proof/Proofs/Reply.lean ====
section
/-! A REQUEST_REPLY whose reply arrives (41_session_ops R132, 42_sequencer_steps R156, R157, R160): the engine's six steps from the
flush to Idle, and what the host then reads. -/

namespace Sys2Proof.Machine

open Sys2Proof Sys2Proof.Safety

/-! ## Running move by move -/

theorem runToIdle_of_idle {s : State} (hp : s.phase = .idle) (fuel : Nat) : runToIdle fuel s = .next s := by
  cases fuel with
  | zero => rfl
  | succ fuel => simp only [runToIdle, hp]

theorem runToIdle_of_busyStep {s t : State} (hp : s.phase ≠ .idle) (h : busyStep s = .next t) (fuel : Nat) :
    runToIdle (fuel + 1) s = runToIdle fuel t := by
  rw [runToIdle, h]
  split
  · exact absurd ‹_› hp
  · rfl

theorem runToIdle_of_turn {s t : State} (ha : s.agenda = []) (hp : s.phase ≠ .idle) (h : Turn s t) (fuel : Nat) :
    runToIdle (fuel + 1) s = runToIdle fuel t :=
  runToIdle_of_busyStep hp (by rw [busyStep, ha]; exact engineStep_of_turn h) fuel

/-- The request of `s` with operands `d` begun, and `bs`, all the agenda brings, in the flushed queue. -/
def delivered (d : Args) (bs : List Byte) (s : State) : State := { startRequest d s with agenda := [], rxq := bs }

/-- Bytes for which the flushed queue has room all arrive (R55, R56). -/
theorem busyStep_delivered {s : State} {bs : List Byte} (ha : s.agenda = [.word .link bs]) (hroom : RoomFor bs.length s)
    (d : Args) : busyStep (startRequest d s) = .next (delivered d bs s) := by
  have hall : rxAppendAll s.cfg.rxfifoDepth [] bs = bs := by
    cases hd : s.cfg.rxfifoDepth with
    | none => exact rxAppendAll_none [] bs
    | some n => rw [rxAppendAll_some, List.nil_append, List.length_nil, Nat.sub_zero, List.take_of_length_le (hroom n hd)]
  simp only [busyStep, startRequest_agenda, ha, deliverAll_eq, startRequest_cfg, startRequest_rxq, hall, delivered]

/-! ## The reply in the buffer -/

/-- T_HDR on four bytes and more: they stand in `rxbuf`, `need` is from the fourth, the others stay in the queue (R156, R157). -/
theorem afterHeader_of_rxq {s : State} (hb : s.rxbuf.wf = true) {m1 m2 a l : Byte} {rest : List Byte}
    (hq : s.rxq = m1 :: m2 :: a :: l :: rest) :
    Memory.readBlock (afterHeader s).rxbuf 0 4 = [m1, m2, a, l] ∧ (afterHeader s).need = Codec.bodyNeed l ∧
      (afterHeader s).rxq = rest := by
  have htake : s.rxq.take 4 = [m1, m2, a, l] := by rw [hq]; rfl
  have hblock : Memory.readBlock (Memory.writeBlock s.rxbuf 0 [m1, m2, a, l]) 0 4 = [m1, m2, a, l] :=
    Memory.readBlock_writeBlock hb 0 [m1, m2, a, l]
  have hlength : Memory.read (Memory.writeBlock s.rxbuf 0 [m1, m2, a, l]) 3 = l := by
    simp only [Memory.readBlock, List.cons.injEq] at hblock
    obtain ⟨-, -, -, h3, -⟩ := hblock
    exact h3
  refine ⟨?_, ?_, ?_⟩
  · rw [afterHeader, htake]; exact hblock
  · rw [afterHeader, htake, hlength]
  · rw [afterHeader, hq]; rfl

theorem sixToList_sixOverwrite_take (p : Six) {pl : List Byte} (h : pl.length ≤ 6) :
    (Codec.sixToList (Codec.sixOverwrite p pl)).take pl.length = pl := by
  match pl, h with
  | [], _ | [_], _ | [_, _], _ | [_, _, _], _ | [_, _, _, _], _ | [_, _, _, _, _], _ | [_, _, _, _, _, _], _ => rfl

/-- The payload T_BODY publishes is what the validation took out (R160). -/
theorem bodyOutcome_payload {pl : List Byte} (h : pl.length ≤ 6) (s : State) :
    payloadOf (bodyOutcome (some pl) s).rpay (bodyOutcome (some pl) s).rplen = pl := by
  have hlen : (BitVec.ofNat 3 pl.length).toNat = pl.length := by rw [BitVec.toNat_ofNat]; omega
  change (Codec.sixToList (Codec.sixOverwrite s.rpay pl)).take (BitVec.ofNat 3 pl.length).toNat = pl
  rw [hlen, sixToList_sixOverwrite_take _ h]

/-- What the host reads after T_RETIRE of an accepted reply. -/
theorem hostResult_accepted {pl : List Byte} (h : pl.length ≤ 6) (s : State) :
    hostResult .requestReply (retire (bodyOutcome (some pl) s)) = .okPayload pl :=
  congrArg HostResult.okPayload (bodyOutcome_payload h s)

theorem hostResult_corrupt (s : State) :
    hostResult .requestReply (retire (bodyOutcome none s)) = .fail .corruptReply := rfl

/-! ## The engine's steps -/

/-- The state after T_SEND and T_ARM (R153, R155). -/
def armed (s : State) : State := { afterSend s with need := 4, pollCnt := 0, phase := .awaitingHeader }

theorem runToIdle_armed {s : State} (ha : s.agenda = []) (hp : s.phase = .flushed) (ho : s.op = .requestReply)
    (hn : s.plen.toNat ≤ 6) (fuel : Nat) : runToIdle (fuel + 2) s = runToIdle fuel (armed s) := by
  calc runToIdle (fuel + 2) s
    _ = runToIdle (fuel + 1) (afterSend s) := runToIdle_of_turn ha (by simp [hp]) (.send hp hn) _
    _ = runToIdle fuel (armed s) := runToIdle_of_turn (s := afterSend s) ha (by simp) (.arm rfl ho) _

/-- The state after T_HDR, T_BODY and T_RETIRE (R156, R160, R163). -/
def afterReply (s : State) : State :=
  retire (bodyOutcome (bodyVerdict (afterHeader s)) (afterBodyRead (afterHeader s)))

/-- With header and body in the queue, T_HDR, T_BODY and T_RETIRE follow one another (R156, R160, R163). -/
theorem runToIdle_reply {s : State} (ha : s.agenda = []) (hp : s.phase = .awaitingHeader) (hl : 4 ≤ s.rxq.length)
    (hbody : (afterHeader s).need.toNat ≤ (afterHeader s).rxq.length) (fuel : Nat) :
    runToIdle (fuel + 3) s = .next (afterReply s) := by
  have hout := bodyOutcome_phase (bodyVerdict (afterHeader s)) (afterBodyRead (afterHeader s))
  have hagenda := (bodyOutcome_agenda (bodyVerdict (afterHeader s)) (afterBodyRead (afterHeader s))).trans ha
  calc runToIdle (fuel + 3) s
    _ = runToIdle (fuel + 2) (afterHeader s) := runToIdle_of_turn ha (by simp [hp]) (.header hp hl) _
    _ = runToIdle (fuel + 1) (bodyOutcome (bodyVerdict (afterHeader s)) (afterBodyRead (afterHeader s))) :=
      runToIdle_of_turn (s := afterHeader s) ha nofun (.body rfl hbody (bodyNeed_le _)) _
    _ = runToIdle fuel (afterReply s) := runToIdle_of_turn hagenda (by simp) (.retire hout) _
    _ = .next (afterReply s) := runToIdle_of_idle rfl _

@[simp] theorem bodyOutcome_rxq (r : Option (List Byte)) (s : State) : (bodyOutcome r s).rxq = s.rxq := by
  cases r <;> rfl

/-- The verdict of T_BODY after T_HDR is on the frame's bytes, and only they leave the queue (R160). -/
theorem reply_of_rxq {s : State} (hb : s.rxbuf.wf = true) {m1 m2 a l : Byte} {body extra : List Byte}
    (hq : s.rxq = m1 :: m2 :: a :: l :: (body ++ extra)) (hlen : body.length = l.toNat - 1) :
    (afterHeader s).need.toNat ≤ (afterHeader s).rxq.length ∧ (afterBodyRead (afterHeader s)).rxq = extra ∧
      bodyVerdict (afterHeader s) = Codec.decodeAndValidate (m1 :: m2 :: a :: l :: body) s.cmd s.explen := by
  obtain ⟨hblock, hneed, hrest⟩ := afterHeader_of_rxq hb hq
  have hneed : (afterHeader s).need.toNat = body.length := by rw [hneed, bodyNeed_toNat, hlen]
  have hle : (afterHeader s).need.toNat ≤ (afterHeader s).rxq.length := by
    rw [hneed, hrest, List.length_append]; exact Nat.le_add_right _ _
  refine ⟨hle, ?_, ?_⟩
  · rw [afterBodyRead, hneed, hrest]; exact List.drop_left
  · have hwf : (afterHeader s).rxbuf.wf = true := Memory.writeBlock_wf hb 0 _
    rw [bodyVerdict_eq hwf hle, hblock, hneed, hrest, List.take_left]
    rfl

/-- Settles O25: the reply arrives, the request goes out, and the engine reads header and body and retires. -/
theorem requestReplyReturnsValidation : Obligations.RequestReplyReturnsValidation := by
  intro d s m1 m2 a l body extra ⟨_, _, hrwf, _⟩ hcfg hp hopen hn hroom hlen ha
  have hacc : acceptsSend d s = true := acceptsSend_iff.mpr ⟨hp, hopen, hn⟩
  have hbound := one_le_pollBound hcfg
  obtain ⟨fuel, hfuel⟩ : ∃ fuel, callFuel s = fuel + 3 + 2 + 1 :=
    ⟨callFuel s - 6, by unfold callFuel; omega⟩
  have hlength : (m1 :: m2 :: a :: l :: (body ++ extra)).length = 4 + body.length + extra.length := by
    simp only [List.length_cons, List.length_append]; omega
  have hlink := busyStep_delivered ha (hlength ▸ hroom) d
  obtain ⟨hbody, hextra, hverdict⟩ :=
    reply_of_rxq (s := armed (delivered d (m1 :: m2 :: a :: l :: (body ++ extra)) s)) hrwf rfl hlen
  refine ⟨afterReply (armed (delivered d (m1 :: m2 :: a :: l :: (body ++ extra)) s)), ?_, (bodyOutcome_rxq _ _).trans hextra, ?_⟩
  · rw [exec_requestReply_accepted hacc, hfuel, runToIdle_of_busyStep (by simp) hlink, runToIdle_armed rfl rfl rfl hn,
      runToIdle_reply rfl rfl (Nat.le_add_left 4 _) hbody]
  · rw [afterReply, hverdict]
    change hostResult _ (retire (bodyOutcome (Codec.decodeAndValidate _ d.cmd d.explen) _)) = _
    cases hv : Codec.decodeAndValidate (m1 :: m2 :: a :: l :: body) d.cmd d.explen with
    | some pl => exact hostResult_accepted (decodeAndValidate_length hv) _
    | none => exact hostResult_corrupt _

end Sys2Proof.Machine
end

