-- ==== Sys2Proof/Proofs/Independence.lean ====
section
/-! The result of a REQUEST_REPLY does not depend on earlier calls (41_session_ops R137): two runs from the flush on, move by
move. -/

namespace Sys2Proof.Machine

open Sys2Proof Sys2Proof.Safety

/-- Two states in one REQUEST_REPLY that agree on what the rest of the call reads: of `pollCnt`, `need` and the header only once the
call has written them, of the result registers only beside an `Ok`. Everything else may differ. -/
structure Agree (u v : State) : Prop where
  wf_left : u.rxbuf.wf = true
  wf_right : v.rxbuf.wf = true
  op_left : u.op = .requestReply
  op_right : v.op = .requestReply
  phase : u.phase = v.phase
  plen : u.plen = v.plen
  cmd : u.cmd = v.cmd
  explen : u.explen = v.explen
  cfg : u.cfg = v.cfg
  agenda : u.agenda = v.agenda
  rxq : u.rxq = v.rxq
  status : u.status = v.status
  pollCnt : u.phase = .awaitingHeader ∨ u.phase = .awaitingBody → u.pollCnt = v.pollCnt
  need : u.phase = .awaitingBody → u.need = v.need
  header : u.phase = .awaitingBody → Memory.readBlock u.rxbuf 0 4 = Memory.readBlock v.rxbuf 0 4
  payload : u.status = .ok → payloadOf u.rpay u.rplen = payloadOf v.rpay v.rplen

section
variable {u v : State}

theorem Agree.start {d : Args} {s1 s2 : State} (hb1 : BuffersOk s1) (hb2 : BuffersOk s2) (hcfg : s1.cfg = s2.cfg)
    (hagenda : s1.agenda = s2.agenda) : Agree (startRequest d s1) (startRequest d s2) := by
  obtain ⟨-, -, hwf1, -⟩ := hb1
  obtain ⟨-, -, hwf2, -⟩ := hb2
  exact
    { wf_left := hwf1, wf_right := hwf2, op_left := rfl, op_right := rfl, phase := rfl, plen := rfl, cmd := rfl, explen := rfl,
      cfg := hcfg, agenda := hagenda, rxq := rfl, status := rfl, pollCnt := by simp, need := nofun, header := nofun,
      payload := nofun }

/-! ## A turn -/

theorem Agree.afterSend (h : Agree u v) : Agree (afterSend u) (afterSend v) :=
  { h with phase := rfl, pollCnt := by simp, need := nofun, header := nofun }

theorem Agree.countMiss (h : Agree u v) (hp : u.phase = .awaitingHeader ∨ u.phase = .awaitingBody) :
    Agree (countMiss u) (countMiss v) :=
  { h with pollCnt := fun _ => congrArg (· + 1) (h.pollCnt hp) }

theorem Agree.timeout (h : Agree u v) {f : Status} (hf : f ≠ .ok) :
    Agree (raise f (Machine.countMiss u)) (raise f (Machine.countMiss v)) :=
  { h with phase := rfl, status := rfl, pollCnt := by simp, need := nofun, header := nofun,
           payload := fun hok => absurd hok hf }

/-- The four bytes of the header are the same in both buffers, whatever those held, and so is the length they announce. -/
theorem Agree.afterHeader (h : Agree u v) (hl : 4 ≤ u.rxq.length) : Agree (afterHeader u) (afterHeader v) := by
  match hq : u.rxq, hl with
  | m1 :: m2 :: a :: l :: rest, _ =>
    obtain ⟨hblock1, hneed1, hrest1⟩ := afterHeader_of_rxq h.wf_left hq
    obtain ⟨hblock2, hneed2, hrest2⟩ := afterHeader_of_rxq h.wf_right (h.rxq ▸ hq)
    exact
      { h with
        wf_left := Memory.writeBlock_wf h.wf_left 0 _, wf_right := Memory.writeBlock_wf h.wf_right 0 _, phase := rfl,
        rxq := hrest1.trans hrest2.symm, pollCnt := fun _ => rfl, need := fun _ => hneed1.trans hneed2.symm,
        header := fun _ => hblock1.trans hblock2.symm }

/-- T_BODY writes behind the header. -/
theorem afterBodyRead_header (s : State) : Memory.readBlock (afterBodyRead s).rxbuf 0 4 = Memory.readBlock s.rxbuf 0 4 :=
  Memory.readBlock_writeBlock_before (Nat.zero_add 4).le

theorem Agree.bodyVerdict (h : Agree u v) (hp : u.phase = .awaitingBody) (hl : u.need.toNat ≤ u.rxq.length) :
    bodyVerdict u = bodyVerdict v := by
  have hneed := h.need hp
  rw [bodyVerdict_eq h.wf_left hl, bodyVerdict_eq h.wf_right (by rw [← hneed, ← h.rxq]; exact hl), h.header hp, hneed, h.rxq,
    h.cmd, h.explen]

/-- The same verdict publishes the same payload, or raises the same failure (R160). -/
theorem Agree.bodyOutcome (h : Agree u v) {r : Option (List Byte)} (hr : ∀ pl, r = some pl → pl.length ≤ 6) :
    Agree (bodyOutcome r u) (bodyOutcome r v) := by
  cases r with
  | some pl =>
    have hpl := hr pl rfl
    exact
      { h with phase := rfl, status := rfl, pollCnt := by simp, need := nofun, header := nofun,
               payload := fun _ => (bodyOutcome_payload hpl u).trans (bodyOutcome_payload hpl v).symm }
  | none => exact { h with phase := rfl, status := rfl, pollCnt := by simp, need := nofun, header := nofun, payload := nofun }

theorem Agree.body (h : Agree u v) (hp : u.phase = .awaitingBody) (hl : u.need.toNat ≤ u.rxq.length) :
    Agree (Machine.bodyOutcome (Machine.bodyVerdict u) (afterBodyRead u))
      (Machine.bodyOutcome (Machine.bodyVerdict v) (afterBodyRead v)) := by
  have hneed := h.need hp
  have hread : Agree (afterBodyRead u) (afterBodyRead v) :=
    { h with
      wf_left := Memory.writeBlock_wf h.wf_left 4 _, wf_right := Memory.writeBlock_wf h.wf_right 4 _,
      rxq := by rw [afterBodyRead, afterBodyRead, hneed, h.rxq],
      header := fun hp' => by rw [afterBodyRead_header, afterBodyRead_header]; exact h.header hp' }
  rw [← h.bodyVerdict hp hl]
  exact hread.bodyOutcome fun _ => decodeAndValidate_length

/-- A turn possible in one is possible in the other, and they agree again. -/
theorem Agree.turn {u' : State} (h : Agree u v) (hu : Turn u u') : ∃ v', Turn v v' ∧ Agree u' v' := by
  cases hu with
  | idle hp => exact ⟨v, .idle (h.phase ▸ hp), h⟩
  | send hp hn => exact ⟨_, .send (h.phase ▸ hp) (h.plen ▸ hn), h.afterSend⟩
  | writeDone _ ho => exact absurd (h.op_left.symm.trans ho) nofun
  | arm hp =>
    exact ⟨_, .arm (h.phase ▸ hp) h.op_right,
      { h with phase := rfl, pollCnt := fun _ => rfl, need := nofun, header := nofun }⟩
  | header hp hl => exact ⟨_, .header (h.phase ▸ hp) (h.rxq ▸ hl), h.afterHeader hl⟩
  | headerMiss hp hl hc =>
    rw [h.pollCnt (.inl hp), h.cfg] at hc
    exact ⟨_, .headerMiss (h.phase ▸ hp) (h.rxq ▸ hl) hc, h.countMiss (.inl hp)⟩
  | headerTimeout hp hl hc =>
    rw [h.pollCnt (.inl hp), h.cfg] at hc
    exact ⟨_, .headerTimeout (h.phase ▸ hp) (h.rxq ▸ hl) hc, h.timeout nofun⟩
  | body hp hl hn =>
    have hbody := h.body hp hl
    rw [h.need hp, h.rxq] at hl
    exact ⟨_, .body (h.phase ▸ hp) hl (h.need hp ▸ hn), hbody⟩
  | bodyMiss hp hl hc =>
    rw [h.need hp, h.rxq] at hl
    rw [h.pollCnt (.inr hp), h.cfg] at hc
    exact ⟨_, .bodyMiss (h.phase ▸ hp) hl hc, h.countMiss (.inr hp)⟩
  | bodyTimeout hp hl hc =>
    rw [h.need hp, h.rxq] at hl
    rw [h.pollCnt (.inr hp), h.cfg] at hc
    exact ⟨_, .bodyTimeout (h.phase ▸ hp) hl hc, h.timeout nofun⟩
  | retire hp =>
    exact ⟨_, .retire (h.phase ▸ hp), { h with phase := rfl, pollCnt := by simp, need := nofun, header := nofun }⟩

/-! ## A move, and the whole run -/

theorem Agree.takeEvent (h : Agree u v) (e : Event) (rest : List Event) (c1 c2 : Bool) :
    Agree (takeEvent e rest c1 u) (takeEvent e rest c2 v) :=
  { h with agenda := rfl, rxq := by rw [Machine.takeEvent, Machine.takeEvent, h.cfg, h.rxq] }

theorem Agree.engineStep {u' : State} (h : Agree u v) (hu : engineStep u = .next u') :
    ∃ v', engineStep v = .next v' ∧ Agree u' v' := by
  obtain ⟨v', hv, h'⟩ := h.turn (turn_of_engineStep hu)
  exact ⟨v', engineStep_of_turn hv, h'⟩

/-- The agenda, which is the same, decides who moves; so both make the same move. -/
theorem Agree.busyStep {u' : State} (h : Agree u v) (hr : Event.reset ∉ u.agenda) (hu : busyStep u = .next u') :
    ∃ v', busyStep v = .next v' ∧ Agree u' v' := by
  obtain heq | ⟨e, rest, -, heq | heq⟩ := busyStep_of_agenda hr
  · rw [heq u rfl] at hu
    rw [heq v h.agenda.symm]
    exact h.engineStep hu
  · rw [heq u rfl] at hu
    rw [heq v h.agenda.symm]
    exact (h.takeEvent e rest u.chanOk v.chanOk).engineStep hu
  · obtain ⟨c1, hc1⟩ := heq u rfl
    obtain ⟨c2, hc2⟩ := heq v h.agenda.symm
    obtain rfl : Machine.takeEvent e rest c1 u = u' := Host.Outcome.next.inj (hc1.symm.trans hu)
    exact ⟨_, hc2, h.takeEvent e rest c1 c2⟩

end

theorem Agree.runToIdle {fuel : Nat} {u v t : State} (h : Agree u v) (hr : Event.reset ∉ u.agenda)
    (ht : runToIdle fuel u = .next t) : ∃ t', runToIdle fuel v = .next t' ∧ Agree t t' := by
  induction fuel generalizing u v with
  | zero =>
    obtain rfl : u = t := Host.Outcome.next.inj ht
    exact ⟨v, rfl, h⟩
  | succ fuel ih =>
    obtain ⟨hp, rfl⟩ | ⟨hp, u', hu, hrun⟩ := runToIdle_succ_cases ht
    · exact ⟨v, runToIdle_of_idle (h.phase ▸ hp) _, h⟩
    · obtain ⟨v', hv, h'⟩ := h.busyStep hr hu
      obtain ⟨t', ht', hagree⟩ :=
        ih h' (fun hmem => hr ((move_agenda_suffix (move_of_busyStep hu)).subset hmem)) hrun
      exact ⟨t', (runToIdle_of_busyStep (h.phase ▸ hp) hv fuel).trans ht', hagree⟩

/-! ## What the host reads -/

/-- The host's reading is a function of what agreeing states share. -/
theorem Agree.hostResult_eq {t1 t2 : State} (h : Agree t1 t2) (hd1 : t1.done = true) (hd2 : t2.done = true) :
    hostResult .requestReply t1 = hostResult .requestReply t2 := by
  unfold hostResult
  rw [hd1, hd2, ← h.phase, ← h.status]
  cases hst : t1.status with
  | ok =>
    have hpay : (Codec.sixToList t1.rpay).take t1.rplen.toNat = (Codec.sixToList t2.rpay).take t2.rplen.toNat := h.payload hst
    rw [hpay]
  | _ => rfl

/-- Settles O27: the two runs agree from the flush on, and each transmits the frame of its operands and address. -/
theorem callsAreIndependent : Obligations.CallsAreIndependent := by
  intro d s1 s2 t1 t2 hb1 hb2 hp1 hp2 ho1 ho2 haddr hcfg hagenda hr ht1 ht2 hn
  obtain ⟨t1', h1, -, -, hdone1⟩ := requestReplyCompletes d s1 _ hb1 hp1 ho1 hn rfl
  obtain ⟨t2', h2, -, -, hdone2⟩ := requestReplyCompletes d s2 _ hb2 hp2 ho2 hn rfl
  obtain rfl : t1' = t1 := Host.Outcome.next.inj (h1.symm.trans ht1)
  obtain rfl : t2' = t2 := Host.Outcome.next.inj (h2.symm.trans ht2)
  obtain ⟨hd1, hlog1, -⟩ := hdone1 hr
  obtain ⟨hd2, hlog2, -⟩ := hdone2 (hagenda ▸ hr)
  have hfuel : callFuel s1 = callFuel s2 := by rw [callFuel, callFuel, hcfg, hagenda]
  rw [exec_requestReply_accepted (acceptsSend_iff.mpr ⟨hp1, ho1, hn⟩)] at ht1
  rw [exec_requestReply_accepted (acceptsSend_iff.mpr ⟨hp2, ho2, hn⟩), ← hfuel] at ht2
  obtain ⟨t, ht, hagree⟩ := (Agree.start hb1 hb2 hcfg hagenda).runToIdle hr ht1
  obtain rfl : t = t2' := Host.Outcome.next.inj (ht.symm.trans ht2)
  exact ⟨hagree.hostResult_eq hd1 hd2, hagree.rxq, _, hlog1, haddr ▸ hlog2⟩

end Sys2Proof.Machine
end

