-- ==== Sys2Proof/Proofs/SequencerSteps.lean ====
section
/-! The steps of the sequencer one by one (42_sequencer_steps R150 to R163): the next state of each where its precondition holds, and
that in a running engine exactly one of them is enabled (R164, R165). -/

namespace Sys2Proof.Machine

open Sys2Proof Sys2Proof.Safety

/-! ## The starts and T_SEND -/

theorem execTStartReq_accepted {d : Args} {s : State} (h : acceptsSend d s = true) :
    execTStartReq d s = .next (startRequest d s) := if_pos h

theorem execTStartWr_accepted {d : Args} {s : State} (h : acceptsSend d s = true) :
    execTStartWr d s = sendAndGo (latch .writeCommand d s) := if_pos h

theorem execTSend_flushed {s : State} (h : s.phase = .flushed) : execTSend s = sendAndGo s := if_pos h

/-- Settles O32: an accepted start latches and flushes, and one that is not accepted is ignored. -/
theorem startRequestStep : Obligations.StartRequestStep := fun _ _ =>
  ⟨fun hp hopen hn => execTStartReq_accepted (acceptsSend_iff.mpr ⟨hp, hopen, hn⟩),
    fun h => execTStartReq_ignored (mt acceptsSend_iff.mp h)⟩

/-- Settles O33: `build_and_send` on the latched operands. -/
theorem startWriteStep : Obligations.StartWriteStep := by
  rintro d s _ ⟨htwf, -⟩ hp hopen hn rfl
  obtain ⟨t, ht, hlog, hlen, hblock, hbeyond, -, hframe⟩ := sendAndGo_legal (s := latch .writeCommand d s) htwf hn
  have hexec := execTStartWr_accepted (acceptsSend_iff.mpr ⟨hp, hopen, hn⟩)
  exact ⟨t, hexec.trans ht, hlog, hlen, hblock, hbeyond, hframe⟩

/-- Settles O34: `build_and_send` on the operands as they stand. -/
theorem sendStep : Obligations.SendStep := by
  rintro s _ ⟨htwf, -⟩ hp hn rfl
  obtain ⟨t, ht, hlog, hlen, hblock, hbeyond, -, hframe⟩ := sendAndGo_legal htwf hn
  exact ⟨t, (execTSend_flushed hp).trans ht, hlog, hlen, hblock, hbeyond, hframe⟩

/-! ## The steps that move no byte -/

/-- Settles O35: phase and operation are the precondition of each step. -/
theorem sentSteps : Obligations.SentSteps :=
  fun _ hp => ⟨fun ho => if_pos ⟨hp, ho⟩, fun ho => if_pos ⟨hp, ho⟩⟩

/-- Settles O37: phase, shortage and a counter below the bound are the precondition of each step. -/
theorem pollMissSteps : Obligations.PollMissSteps :=
  fun _ hc => ⟨fun hp hl => if_pos ⟨hp, hl, hc⟩, fun hp hl => if_pos ⟨hp, hl, hc⟩⟩

/-- Settles O38: phase, shortage and a counter that reaches the bound are the precondition of each step. -/
theorem pollTimeoutSteps : Obligations.PollTimeoutSteps :=
  fun _ hc => ⟨fun hp hl => if_pos ⟨hp, hl, hc⟩, fun hp hl => if_pos ⟨hp, hl, hc⟩⟩

/-- Settles O41: the phase is the precondition. -/
theorem retireStep : Obligations.RetireStep := fun _ hp => if_pos hp

/-! ## T_HDR and T_BODY -/

/-- T_HDR writes at the offsets below 4 only (R156). -/
theorem afterHeader_read_beyond (s : State) {k : Nat} (hk : 4 ≤ k) :
    Memory.read (afterHeader s).rxbuf k = Memory.read s.rxbuf k := by
  refine Memory.read_writeBlock_other (.inr ?_)
  rw [List.length_take]
  omega

/-- Settles O36: the queue's first four bytes make the header. -/
theorem headerStep : Obligations.HeaderStep := by
  intro s m1 m2 a l rest ⟨_, _, hrwf, _⟩ hp hq
  have hl : 4 ≤ s.rxq.length := by rw [hq]; exact Nat.le_add_left 4 _
  obtain ⟨hblock, hneed, rfl⟩ := afterHeader_of_rxq hrwf hq
  exact ⟨afterHeader s, execTHdr_enough hp hl, hblock, fun _ => afterHeader_read_beyond s,
    by rw [hneed, bodyNeed_toNat], rfl⟩

/-- The body's bytes stand behind the header, and no other byte changed (R160). -/
theorem afterBodyRead_rxbuf {s : State} (hb : s.rxbuf.wf = true) (hl : s.need.toNat ≤ s.rxq.length) :
    Memory.readBlock (afterBodyRead s).rxbuf 4 s.need.toNat = s.rxq.take s.need.toNat ∧
      ∀ k, k < 4 ∨ 4 + s.need.toNat ≤ k → Memory.read (afterBodyRead s).rxbuf k = Memory.read s.rxbuf k := by
  have hlen : (s.rxq.take s.need.toNat).length = s.need.toNat := List.length_take_of_le hl
  have hblock := Memory.readBlock_writeBlock hb 4 (s.rxq.take s.need.toNat)
  rw [hlen] at hblock
  exact ⟨hblock, fun k hk => Memory.read_writeBlock_other (hlen.symm ▸ hk)⟩

/-- `rxcnt` has room for every count T_BODY sets (R30). -/
theorem afterBodyRead_rxcnt {s : State} (hn : s.need.toNat ≤ 254) : (afterBodyRead s).rxcnt.toNat = 4 + s.need.toNat := by
  rw [afterBodyRead, BitVec.toNat_ofNat]
  omega

theorem sixToList_sixOverwrite_drop (p : Six) {pl : List Byte} (h : pl.length ≤ 6) :
    (Codec.sixToList (Codec.sixOverwrite p pl)).drop pl.length = (Codec.sixToList p).drop pl.length := by
  match pl, h with
  | [], _ | [_], _ | [_, _], _ | [_, _, _], _ | [_, _, _, _], _ | [_, _, _, _, _], _ | [_, _, _, _, _, _], _ => rfl

/-- Settles O39: T_BODY reads, and its verdict, which is on the header and the body, decides the outcome. -/
theorem bodyStep : Obligations.BodyStep := by
  intro s ⟨_, _, hrwf, _⟩ hp hl hn
  obtain ⟨hblock, hother⟩ := afterBodyRead_rxbuf hrwf hl
  obtain ⟨st, n, p, -, hout⟩ := bodyOutcome_frame (afterBodyRead s) (bodyVerdict s)
  refine ⟨bodyOutcome (bodyVerdict s) (afterBodyRead s), execTBody_enough hp hl hn, ?_, ?_, ?_, ?_, ?_⟩
  · rw [hout]; exact afterBodyRead_rxcnt hn
  · rw [hout]; exact hblock
  · rw [hout]; exact hother
  · rw [← bodyVerdict_eq hrwf hl]
    cases hv : bodyVerdict s with
    | none => exact ⟨rfl, rfl, rfl⟩
    | some pl =>
      have hpl : pl.length ≤ 6 := decodeAndValidate_length hv
      have hrplen : (BitVec.ofNat 3 pl.length).toNat = pl.length := by rw [BitVec.toNat_ofNat]; omega
      exact ⟨rfl, hrplen, sixToList_sixOverwrite_take _ hpl, sixToList_sixOverwrite_drop _ hpl⟩
  · rw [hout]; rfl

/-! ## Exactly one step is enabled -/

/-- The preconditions of the ten steps of the running engine (R153 to R163). -/
inductive Enabled (s : State) : Instr → Prop where
  | send (hp : s.phase = .flushed) : Enabled s .tSend
  | writeDone (hp : s.phase = .sent) (ho : s.op = .writeCommand) : Enabled s .tWrDone
  | arm (hp : s.phase = .sent) (ho : s.op = .requestReply) : Enabled s .tArm
  | header (hp : s.phase = .awaitingHeader) (hl : 4 ≤ s.rxq.length) : Enabled s .tHdr
  | headerMiss (hp : s.phase = .awaitingHeader) (hl : s.rxq.length < 4) (hc : s.pollCnt + 1 < s.cfg.pollBound) :
      Enabled s .tPollHdrMiss
  | headerTimeout (hp : s.phase = .awaitingHeader) (hl : s.rxq.length < 4) (hc : s.cfg.pollBound ≤ s.pollCnt + 1) :
      Enabled s .tPollHdrTimeout
  | body (hp : s.phase = .awaitingBody) (hl : s.need.toNat ≤ s.rxq.length) : Enabled s .tBody
  | bodyMiss (hp : s.phase = .awaitingBody) (hl : s.rxq.length < s.need.toNat) (hc : s.pollCnt + 1 < s.cfg.pollBound) :
      Enabled s .tPollBodyMiss
  | bodyTimeout (hp : s.phase = .awaitingBody) (hl : s.rxq.length < s.need.toNat) (hc : s.cfg.pollBound ≤ s.pollCnt + 1) :
      Enabled s .tPollBodyTimeout
  | retire (hp : s.phase = .validated) : Enabled s .tRetire

/-- Phase and condition select this step (R25). -/
def Selected (s : State) (i : Instr) : Prop := ∃ c, selectCond s = some c ∧ decode (.seq c) (phaseWord s) = .ok i

theorem Selected.unique {s : State} {i j : Instr} (hi : Selected s i) (hj : Selected s j) : j = i := by
  obtain ⟨c, hc, hdi⟩ := hi
  obtain ⟨c', hc', hdj⟩ := hj
  obtain rfl : c = c' := Option.some.inj (hc.symm.trans hc')
  exact Except.ok.inj (hdj.symm.trans hdi)

theorem Selected.engineTurn {s : State} {i : Instr} (h : Selected s i) : engineTurn s = exec i s := by
  obtain ⟨c, hc, hd⟩ := h
  exact engineTurn_of_decode_ok hc hd

theorem Enabled.mem_engineSteps {s : State} {i : Instr} (h : Enabled s i) : i ∈ engineSteps := by
  cases h <;> simp [engineSteps]

/-- An enabled step is the one that R25 selects. -/
theorem Enabled.selected {s : State} {i : Instr} (h : Enabled s i) : Selected s i := by
  unfold Selected selectCond phaseWord
  cases h with
  | send hp => rw [hp]; exact ⟨_, rfl, rfl⟩
  | writeDone hp ho => rw [hp, ho]; exact ⟨_, rfl, rfl⟩
  | arm hp ho => rw [hp, ho]; exact ⟨_, rfl, rfl⟩
  | header hp hl => rw [hp]; exact ⟨_, congrArg some (pollCond_enough hl), rfl⟩
  | headerMiss hp hl hc => rw [hp]; exact ⟨_, congrArg some (pollCond_miss hl hc), rfl⟩
  | headerTimeout hp hl hc => rw [hp]; exact ⟨_, congrArg some (pollCond_reached hl hc), rfl⟩
  | body hp hl => rw [hp]; exact ⟨_, congrArg some (pollCond_enough hl), rfl⟩
  | bodyMiss hp hl hc => rw [hp]; exact ⟨_, congrArg some (pollCond_miss hl hc), rfl⟩
  | bodyTimeout hp hl hc => rw [hp]; exact ⟨_, congrArg some (pollCond_reached hl hc), rfl⟩
  | retire hp => rw [hp]; exact ⟨_, rfl, rfl⟩

/-- A step whose precondition fails has no transition (R13). -/
theorem stepNotEnabled_of_not_enabled {s : State} {j : Instr} (hj : j ∈ engineSteps) (h : ¬ Enabled s j) :
    exec j s = .fault .stepNotEnabled := by
  simp only [engineSteps, List.mem_cons, List.not_mem_nil, or_false] at hj
  obtain rfl | rfl | rfl | rfl | rfl | rfl | rfl | rfl | rfl | rfl := hj
  · exact if_neg fun hp => h (.send hp)
  · exact if_neg fun ⟨hp, ho⟩ => h (.writeDone hp ho)
  · exact if_neg fun ⟨hp, ho⟩ => h (.arm hp ho)
  · exact if_neg fun ⟨hp, hl⟩ => h (.header hp hl)
  · exact if_neg fun ⟨hp, hl, hc⟩ => h (.headerMiss hp hl hc)
  · exact if_neg fun ⟨hp, hl, hc⟩ => h (.headerTimeout hp hl hc)
  · exact if_neg fun ⟨hp, hl⟩ => h (.body hp hl)
  · exact if_neg fun ⟨hp, hl, hc⟩ => h (.bodyMiss hp hl hc)
  · exact if_neg fun ⟨hp, hl, hc⟩ => h (.bodyTimeout hp hl hc)
  · exact if_neg fun hp => h (.retire hp)

/-- Outside Idle the engine's turn is one of the ten steps. -/
theorem Turn.enabled {s t : State} (h : Turn s t) (hp : s.phase ≠ .idle) : ∃ i, Enabled s i := by
  cases h with
  | idle hp' => exact absurd hp' hp
  | send hp => exact ⟨_, .send hp⟩
  | writeDone hp ho => exact ⟨_, .writeDone hp ho⟩
  | arm hp ho => exact ⟨_, .arm hp ho⟩
  | header hp hl => exact ⟨_, .header hp hl⟩
  | headerMiss hp hl hc => exact ⟨_, .headerMiss hp hl hc⟩
  | headerTimeout hp hl hc => exact ⟨_, .headerTimeout hp hl hc⟩
  | body hp hl => exact ⟨_, .body hp hl⟩
  | bodyMiss hp hl hc => exact ⟨_, .bodyMiss hp hl hc⟩
  | bodyTimeout hp hl hc => exact ⟨_, .bodyTimeout hp hl hc⟩
  | retire hp => exact ⟨_, .retire hp⟩

/-- Settles O42: the invariant makes a turn possible, so a step is enabled; phase and condition select no second one. -/
theorem exactlyOneStepEnabled : Obligations.ExactlyOneStepEnabled := by
  intro s ⟨_, _, _, _, _, hph⟩ hp
  obtain ⟨t, ht⟩ := engineTurn_continues hph
  obtain ⟨i, hi⟩ := (turn_of_engineTurn ht).enabled hp
  have hturn := hi.selected.engineTurn
  exact ⟨i, hi.mem_engineSteps, ⟨t, hturn.symm.trans ht⟩, hturn, fun j hj hne =>
    stepNotEnabled_of_not_enabled hj fun hen => hne (hi.selected.unique hen.selected)⟩

end Sys2Proof.Machine
end

