-- ==== Sys2Proof/Proofs/EngineRuns.lean ====
section
/-! Runs of the engine step by step (42_sequencer_steps R164, 41_session_ops first paragraph): an operation ends after a bounded number
of steps, and the blocking call is the run of the small-step machine. -/

namespace Sys2Proof.Machine

open Sys2Proof Sys2Proof.Safety

/-! ## A bounded number of turns -/

theorem engineTurn_of_turn {s t : State} (h : Turn s t) : engineTurn s = .next t :=
  (engineTurn_eq_engineStep s).trans (engineStep_of_turn h)

/-- Settles O20: T_START_WR, T_WR_DONE and T_RETIRE. -/
theorem writeTakesThreeSteps : Obligations.WriteTakesThreeSteps := by
  intro d s hp hopen hn
  have hacc : acceptsSend d s = true := acceptsSend_iff.mpr ⟨hp, hopen, hn⟩
  exact ⟨_, _, _, (execTStartWr_accepted hacc).trans (sendAndGo_eq hn), engineTurn_of_turn (.writeDone rfl rfl),
    engineTurn_of_turn (.retire rfl), nofun, nofun, rfl, rfl⟩

theorem idle_of_turnsLeft_eq_zero {s : State} (h : turnsLeft s = 0) : s.phase = .idle := by
  cases hp : s.phase <;> simp [turnsLeft, hp] at h ⊢

/-- Into Idle leads T_RETIRE alone, which sets `done` (R163). -/
theorem turn_done {s t : State} (h : Turn s t) (hp : s.phase ≠ .idle) (ht : t.phase = .idle) : t.done = true := by
  cases h with
  | retire => rfl
  | idle | headerMiss | bodyMiss => exact absurd ht hp
  | body => rw [bodyOutcome_phase] at ht; cases ht
  | _ => cases ht

theorem Runnable.arrivals {s : State} (h : Runnable s) (bs : List Byte) : Runnable (deliverAll bs s) := by
  rw [deliverAll_eq]
  exact ⟨h.plen_le, h.op_flushed, h.op_sent, h.need_le⟩

/-- Whatever arrives before each turn, as many turns as the measure says lead to Idle with `done` set (R164). -/
theorem runWithEnv_reaches_idle {env : List (List Byte)} {s : State} (hs : Runnable s) (hd : s.phase = .idle → s.done = true)
    (hle : turnsLeft s ≤ env.length) :
    ∃ k t, k ≤ env.length ∧ runWithEnv (env.take k) s = .next t ∧ t.phase = .idle ∧ t.done = true := by
  induction env generalizing s with
  | nil =>
    have hp := idle_of_turnsLeft_eq_zero (Nat.le_zero.mp hle)
    exact ⟨0, s, le_rfl, rfl, hp, hd hp⟩
  | cons bs rest ih =>
    by_cases hp : s.phase = .idle
    · exact ⟨0, s, Nat.zero_le _, rfl, hp, hd hp⟩
    · have hrun : Runnable (deliverAll bs s) := hs.arrivals bs
      obtain ⟨u, hu⟩ := turn_total hrun.plen_le hrun.need_le hrun.op_sent
      have hp' : (deliverAll bs s).phase ≠ .idle := by rw [deliverAll_eq]; exact hp
      have hleft : turnsLeft (deliverAll bs s) = turnsLeft s := by rw [deliverAll_eq]; rfl
      obtain ⟨hlt, -⟩ := turn_decreases hu hp'
      rw [List.length_cons] at hle
      obtain ⟨k, t, hk, ht, hidle⟩ := ih (hrun.turn hu) (turn_done hu hp') (by omega)
      refine ⟨k + 1, t, Nat.succ_le_succ hk, ?_, hidle⟩
      rw [List.take_succ_cons, runWithEnv, engineTurn_of_turn hu]
      exact ht

/-- Settles O22: in Flushed the measure is 3 + 2 * POLL_BOUND. -/
theorem requestReplyBounded : Obligations.RequestReplyBounded := by
  intro d s env hcfg hp hopen hn henv
  have hacc : acceptsSend d s = true := acceptsSend_iff.mpr ⟨hp, hopen, hn⟩
  have hbound := one_le_pollBound hcfg
  have hle : turnsLeft (startRequest d s) ≤ env.length := by
    change 2 * max 1 s.cfg.pollBound + 3 ≤ env.length
    omega
  obtain ⟨k, t, hk, ht, hidle⟩ := runWithEnv_reaches_idle (Started.request hacc).runnable nofun hle
  exact ⟨_, k, t, execTStartReq_accepted hacc, hk, ht, hidle⟩

/-! ## The blocking call is the run of the small-step machine -/

theorem runSteps_succ {s t : State} (h : step s = .next t) (k : Nat) : runSteps (k + 1) s = runSteps k t := by
  rw [runSteps, h]

/-- While an operation runs, `step` makes the moves of the call; the call stops in Idle. -/
theorem Runnable.exists_runSteps {s : State} (hs : Runnable s) (fuel : Nat) : ∃ k, runSteps k s = runToIdle fuel s := by
  induction fuel generalizing s with
  | zero => exact ⟨0, rfl⟩
  | succ fuel ih =>
    by_cases hp : s.phase = .idle
    · exact ⟨0, (runToIdle_of_idle hp _).symm⟩
    · obtain ⟨t, ht, hrun⟩ := hs.busyStep
      obtain ⟨k, hk⟩ := ih hrun
      have hstep : step s = .next t := (nextMove_busy hp).trans ht
      exact ⟨k + 1, (runSteps_succ hstep k).trans (hk.trans (runToIdle_of_busyStep hp ht fuel).symm)⟩

/-- From a step that makes an accepted start, the small-step machine runs the call. -/
theorem Started.exists_runSteps {d : Args} {s s' u : State} {o : OpCode} (h : Started d s o u) (hstep : step s' = .next u) :
    ∃ k, runSteps k s' = runToIdle (callFuel s) u := by
  obtain ⟨k, hk⟩ := h.runnable.exists_runSteps (callFuel s)
  exact ⟨k + 1, (runSteps_succ hstep k).trans hk⟩

/-- A start pulse put before the agenda runs the start step its descriptor selects. -/
theorem step_start_cons {w : DescWord} {i : Instr} (h : decodeStart w = i) (s : State) :
    step { s with agenda := .start w :: s.agenda } = exec i s :=
  step_runs_start (rest := s.agenda) rfl (congrArg Except.ok h)

/-- Settles O26: the pulse makes the start of the call, and the steps that follow make its moves. -/
theorem callsEqualSmallSteps : Obligations.CallsEqualSmallSteps := by
  intro d s hp hopen hn
  have hacc : acceptsSend d s = true := acceptsSend_iff.mpr ⟨hp, hopen, hn⟩
  obtain ⟨-, hreq⟩ := decode_descOfArgs_requestReply d
  obtain ⟨-, hwr⟩ := decode_descOfArgs_writeCommand d
  rw [exec_requestReply_accepted hacc, exec_writeCommand_accepted hacc]
  exact ⟨(Started.request hacc).exists_runSteps ((step_start_cons hreq s).trans (execTStartReq_accepted hacc)),
    (Started.write hacc).exists_runSteps
      ((step_start_cons hwr s).trans ((execTStartWr_accepted hacc).trans (sendAndGo_eq hn)))⟩

end Sys2Proof.Machine
end

