-- ==== Sys2Proof/Proofs/Timeouts.lean ====
section
/-! A REQUEST_REPLY whose reply stays away or breaks off (42_sequencer_steps R158, R159, R161, R162, 60_exceptions R191, R192): POLL_BOUND
failed polls, then the timeout. -/

namespace Sys2Proof.Machine

open Sys2Proof Sys2Proof.Safety

/-! ## Waiting for bytes that do not arrive -/

/-- The engine waits for more bytes than there are, and `f` is the failure the wait ends in (R158, R159, R161, R162). -/
inductive Starved : Status → State → Prop where
  | header {s : State} (hp : s.phase = .awaitingHeader) (hl : s.rxq.length < 4) : Starved .headerTimeout s
  | body {s : State} (hp : s.phase = .awaitingBody) (hl : s.rxq.length < s.need.toNat) : Starved .bodyTimeout s

section
variable {f : Status} {s : State} (h : Starved f s)
include h

theorem Starved.phase_ne_idle : s.phase ≠ .idle := by
  cases h with
  | header hp | body hp => simp [hp]

theorem Starved.countMiss : Starved f (countMiss s) := by
  cases h with
  | header hp hl => exact .header hp hl
  | body hp hl => exact .body hp hl

theorem Starved.turn_miss (hc : s.pollCnt + 1 < s.cfg.pollBound) : Turn s (Machine.countMiss s) := by
  cases h with
  | header hp hl => exact .headerMiss hp hl hc
  | body hp hl => exact .bodyMiss hp hl hc

theorem Starved.turn_timeout (hc : s.cfg.pollBound ≤ s.pollCnt + 1) : Turn s (raise f (Machine.countMiss s)) := by
  cases h with
  | header hp hl => exact .headerTimeout hp hl hc
  | body hp hl => exact .bodyTimeout hp hl hc

end

/-- The state in which a starved wait has ended (R163, R196): every poll failed, and the failure is published. -/
def timedOut (f : Status) (s : State) : State := retire (raise f { s with pollCnt := s.cfg.pollBound })

/-- A starved wait counts its failed polls up to the bound, times out and retires. -/
theorem Starved.runToIdle {f : Status} {s : State} {fuel : Nat} (h : Starved f s) (ha : s.agenda = [])
    (hc : s.pollCnt < s.cfg.pollBound) (hfuel : s.cfg.pollBound + 1 ≤ s.pollCnt + fuel) :
    runToIdle fuel s = .next (timedOut f s) := by
  induction fuel generalizing s with
  | zero => omega
  | succ fuel ih =>
    by_cases hmiss : s.pollCnt + 1 < s.cfg.pollBound
    · have hfuel' : s.cfg.pollBound + 1 ≤ s.pollCnt + 1 + fuel := by omega
      exact (runToIdle_of_turn ha h.phase_ne_idle (h.turn_miss hmiss) fuel).trans (ih h.countMiss ha hmiss hfuel')
    · have hreached : s.cfg.pollBound = s.pollCnt + 1 := by omega
      obtain ⟨rest, rfl⟩ : ∃ rest, fuel = rest + 1 := ⟨fuel - 1, by omega⟩
      calc Machine.runToIdle (rest + 2) s
        _ = Machine.runToIdle (rest + 1) (raise f (Machine.countMiss s)) :=
          runToIdle_of_turn ha h.phase_ne_idle (h.turn_timeout hreached.le) _
        _ = Machine.runToIdle rest (retire (raise f (Machine.countMiss s))) :=
          runToIdle_of_turn (s := raise f (Machine.countMiss s)) ha nofun (.retire rfl) _
        _ = .next (timedOut f s) := by rw [runToIdle_of_idle rfl, timedOut, hreached]; rfl

theorem Starved.hostResult_timedOut {f : Status} {s : State} (h : Starved f s) (o : OpCode) :
    hostResult o (timedOut f s) = .fail f := by
  cases h <;> rfl

/-! ## The call up to its first poll -/

/-- The least depth R9 allows a bounded queue has room for a whole frame. -/
theorem roomFor_of_wf {s : State} (h : s.cfg.wf = true) {n : Nat} (hn : n ≤ 12) : RoomFor n s := by
  intro d hd
  simp only [Config.wf, hd, Bool.and_eq_true, decide_eq_true_eq] at h
  obtain ⟨-, hdepth⟩ := h
  exact hn.trans hdepth

/-- An accepted call whose agenda brings `bs` at once and nothing else sends its request and waits for the header. -/
theorem exec_requestReply_armed {d : Args} {s : State} {bs : List Byte} (hacc : acceptsSend d s = true)
    (ha : s.agenda = [.word .link bs]) (hroom : RoomFor bs.length s) :
    exec (.requestReply d) s = runToIdle (2 * s.cfg.pollBound + 3) (armed (delivered d bs s)) := by
  obtain ⟨-, -, hn⟩ := acceptsSend_iff.mp hacc
  have hfuel : callFuel s = 2 * s.cfg.pollBound + 3 + 2 + 1 := by rw [callFuel, ha, List.length_singleton]; omega
  rw [exec_requestReply_accepted hacc, hfuel, runToIdle_of_busyStep (by simp) (busyStep_delivered ha hroom d),
    runToIdle_armed rfl rfl rfl hn]

/-- Settles O23: fewer than 4 bytes starve the header's wait from its first poll on. -/
theorem silentLineTimesOut : Obligations.SilentLineTimesOut := by
  intro d s bs ⟨htwf, _⟩ hcfg hp hopen hn hlen ha
  have hacc : acceptsSend d s = true := acceptsSend_iff.mpr ⟨hp, hopen, hn⟩
  have hfuel : s.cfg.pollBound + 1 ≤ 0 + (2 * s.cfg.pollBound + 3) := by omega
  have hstarved : Starved .headerTimeout (armed (delivered d bs s)) := .header rfl hlen
  obtain ⟨hlog, -⟩ : FrameSent d s (afterSend (delivered d bs s)) :=
    afterSend_frameSent (latch_latched .requestReply d s) rfl rfl htwf hn
  refine ⟨timedOut .headerTimeout (armed (delivered d bs s)), ?_, hstarved.hostResult_timedOut _, rfl, rfl, rfl, rfl, hlog⟩
  rw [exec_requestReply_armed hacc ha (roomFor_of_wf hcfg (by omega))]
  exact hstarved.runToIdle rfl (one_le_pollBound hcfg) hfuel

/-- Settles O24: T_HDR takes the header, and the part of the body that arrived starves the body's wait. -/
theorem partialBodyTimesOut : Obligations.PartialBodyTimesOut := by
  intro d s m1 m2 a l part ⟨_, _, hrwf, _⟩ hcfg hp hopen hn hroom hlen ha
  have hacc : acceptsSend d s = true := acceptsSend_iff.mpr ⟨hp, hopen, hn⟩
  have hfuel : s.cfg.pollBound + 1 ≤ 0 + (2 * s.cfg.pollBound + 2) := by omega
  have hlength : (m1 :: m2 :: a :: l :: part).length = 4 + part.length := Nat.add_comm _ 4
  obtain ⟨hblock, hneed, hrest⟩ :=
    afterHeader_of_rxq (s := armed (delivered d (m1 :: m2 :: a :: l :: part) s)) hrwf rfl
  have hneed := (congrArg BitVec.toNat hneed).trans (bodyNeed_toNat l)
  have hstarved : Starved .bodyTimeout (afterHeader (armed (delivered d (m1 :: m2 :: a :: l :: part) s))) :=
    .body rfl (by rw [hrest, hneed]; omega)
  refine ⟨timedOut .bodyTimeout _, ?_, hstarved.hostResult_timedOut _, rfl, hrest, rfl, hneed, hblock⟩
  rw [exec_requestReply_armed hacc ha (hlength.symm ▸ hroom),
    runToIdle_of_turn rfl (by nofun) (.header rfl (Nat.le_add_left 4 _))]
  exact hstarved.runToIdle rfl (one_le_pollBound hcfg) hfuel

end Sys2Proof.Machine
end

