-- ==== Sys2Proof/Proofs/Catalogue.lean ====
section
/-! The catalogue layer (43_catalogue R180 to R186): what a row expands to, what a wrapper runs and hands its caller, and
MOVE_TIME_WRITE. -/

namespace Sys2Proof.Machine

open Sys2Proof Sys2Proof.Safety

/-! ## A row's expansion (R181) -/

/-- The operands of a row carry the payload they were made for, up to the six bytes a descriptor has room for (R100). -/
theorem rowArgs_payload (row : Config.CatRow) {pl : List Byte} (h : pl.length ≤ 6) :
    payloadOf (rowArgs row pl).pay (rowArgs row pl).plen = pl := by
  have hlen : (rowArgs row pl).plen.toNat = pl.length := by
    rw [rowArgs, BitVec.toNat_ofNat]; omega
  rw [payloadOf, hlen]
  exact sixToList_sixOverwrite_take _ h

theorem rowArgs_explen_of_reply {row : Config.CatRow} {r : Nat} (hrow : row.replySize = some r) (hr : r ≤ 6)
    (pl : List Byte) : (rowArgs row pl).explen.toNat = r + 3 := by
  simp only [rowArgs, hrow]
  exact Codec.lengthByte_toNat hr

section Expansion
variable {row : Config.CatRow} {vs : List Nat} (hvs : vs.length = row.requestFields.length)
  (hsize : (encodeFields row.requestFields vs).length = row.requestSize) (hmax : row.requestSize ≤ 6)
include hvs hsize hmax

theorem expandRow_write (hrow : row.replySize = none) :
    expandRow row vs = some (.writeCommand (rowArgs row (encodeFields row.requestFields vs))) := by
  simp only [expandRow, hrow]
  exact if_pos ⟨hsize, hsize.trans_le hmax, hvs⟩

theorem expandRow_read {r : Nat} (hrow : row.replySize = some r) (hr : r ≤ 6) :
    expandRow row vs = some (.requestReply (rowArgs row (encodeFields row.requestFields vs))) := by
  simp only [expandRow, hrow]
  exact (if_pos ⟨hsize, hsize.trans_le hmax, hvs⟩).trans (if_pos hr)

end Expansion

/-- Settles O29: the operands of either operation are `rowArgs`, whose payload and expected length are the row's. -/
theorem catalogueRowExpands : Obligations.CatalogueRowExpands := by
  intro row vs hvs hsize hmax
  have hpay := rowArgs_payload row (hsize.trans_le hmax)
  exact ⟨fun hrow => ⟨_, expandRow_write hvs hsize hmax hrow, rfl, rfl, hpay⟩,
    fun r hrow hr => ⟨_, expandRow_read hvs hsize hmax hrow hr, rfl, rfl, rowArgs_explen_of_reply hrow hr _, hpay⟩⟩

/-! ## What a wrapper runs -/

section Wrapper
variable {c : Byte} {vs : List Nat} {rest : List Event} {s : State}

theorem runWrapper_of_expandRow {row : Config.CatRow} {i : Instr} (hrow : findRow c s.cfg.catalogue = some row)
    (hi : expandRow row vs = some i) : runWrapper c vs s = exec i s := by
  simp only [runWrapper, hrow, hi]

/-- A wrapper is turned away for want of a row, or because its values do not fit the row found (log entry 22). -/
theorem runWrapper_refused (h : ∀ row, findRow c s.cfg.catalogue = some row → expandRow row vs = none) :
    runWrapper c vs s = .refused .noCatalogueRow := by
  cases hrow : findRow c s.cfg.catalogue with
  | none => simp only [runWrapper, hrow]
  | some row => simp only [runWrapper, hrow, h row hrow]

/-- A wrapper at the head of the agenda waits for Idle and then runs (R103, R181). -/
theorem step_wrapper (ha : s.agenda = .wrapper c vs :: rest) (hp : s.phase = .idle) :
    step s = runWrapper c vs { s with agenda := rest } :=
  step_of_agenda_head ha (.inl hp)

/-- Without an open session the wrapper's start is ignored (R135). -/
theorem runWrapper_closed {t : State} (hclosed : s.opened = false) (h : runWrapper c vs s = .next t) : t = s := by
  obtain ⟨row, i, hi, hexec⟩ := runWrapper_next h
  obtain ⟨d, rfl | rfl⟩ := expandRow_some hi
  · exact Host.Outcome.next.inj (hexec.symm.trans (execWriteCommand_ignored (not_acceptsSend (.inr (.inl hclosed)))))
  · exact Host.Outcome.next.inj (hexec.symm.trans (execRequestReply_ignored (not_acceptsSend (.inr (.inl hclosed)))))

end Wrapper

/-- Settles O30: in Idle the wrapper at the agenda's head runs, on the catalogue it finds there. -/
theorem catalogueWrapperRuns : Obligations.CatalogueWrapperRuns := by
  intro s c vs rest ha hp
  have hstep := step_wrapper ha hp
  exact ⟨fun _ _ hrow hi => hstep.trans (runWrapper_of_expandRow hrow hi), fun h => hstep.trans (runWrapper_refused h)⟩

/-! ## What a wrapper hands its caller -/

/-- The end of every operation that succeeded: the host reads a payload after a REQUEST_REPLY and none after another (R33). -/
theorem hostResult_of_ok {s : State} (hd : s.done = true) (hp : s.phase = .idle) (hst : s.status = .ok) (o : OpCode) :
    hostResult o s =
      if o = .requestReply then .okPayload ((Codec.sixToList s.rpay).take s.rplen.toNat) else .ok := by
  simp only [hostResult, hd, hp, hst, and_self, if_true]

section Result
variable (row : Config.CatRow) {t : State} (hd : t.done = true) (hp : t.phase = .idle)
include hd hp

theorem wrapperResult_failure (hf : t.status.isFailure = true) : wrapperResult row t = some (.error t.status) := by
  rw [wrapperResult, hostResult_failure hf hd hp]

theorem wrapperResult_write (hst : t.status = .ok) (hrow : row.replySize = none) :
    wrapperResult row t = some (.ok []) := by
  rw [wrapperResult, hostResult_of_ok hd hp hst, hrow]
  rfl

theorem wrapperResult_read (hst : t.status = .ok) (hrow : row.replySize.isSome = true) :
    wrapperResult row t =
      some (.ok (decodeFields row.replyFields ((Codec.sixToList t.rpay).take t.rplen.toNat))) := by
  rw [wrapperResult, hostResult_of_ok hd hp hst, if_pos hrow]
  rfl

end Result

/-- Settles O31: a host's line ends in Idle, where the wrapper reads the outcome; a start without a session changes nothing. -/
theorem catalogueWrapperResult : Obligations.CatalogueWrapperResult := by
  intro s t c vs rest row ha hp _ hstep
  have htp : t.phase = .idle := effect_line_phase (effect_of_step ha (.inl hp) hstep) rfl hp
  refine ⟨fun _ => ⟨htp, fun hd => ⟨?_, ?_, ?_⟩⟩, fun hclosed => ?_⟩
  · exact wrapperResult_failure row hd htp
  · exact wrapperResult_write row hd htp
  · exact wrapperResult_read row hd htp
  · exact runWrapper_closed (s := { s with agenda := rest }) hclosed (step_wrapper ha hp ▸ hstep)

/-! ## MOVE_TIME_WRITE (R182) -/

/-- The little-endian form of a word is its low byte, then its high byte (R91). -/
theorem Codec.le16_eq_extract (v : U16) : Codec.le16 v = [v.extractLsb' 0 8, v.extractLsb' 8 8] := by
  have hhigh : v.extractLsb' 8 8 = BitVec.ofNat 8 (v.toNat / 256) :=
    congrArg (BitVec.ofNat 8) (Nat.shiftRight_eq_div_pow v.toNat 8)
  rw [hhigh]
  rfl

/-- The payload: the position clamped to 0 to 1000, and the time as it is (R182, log entry 16). -/
theorem encodeFields_moveTimeWriteRow (pos time : U16) :
    encodeFields Config.moveTimeWriteRow.requestFields [pos.toNat, time.toNat] =
      [BitVec.ofNat 8 (min 1000 pos.toNat), BitVec.ofNat 8 (min 1000 pos.toNat / 256), time.extractLsb' 0 8,
        time.extractLsb' 8 8] := by
  have hpos : clampField ⟨2, 0, some 1000⟩ pos.toNat = min 1000 pos.toNat := by rw [clampField, Nat.zero_max]
  have htime : clampField ⟨2, 0, none⟩ time.toNat = time.toNat := Nat.zero_max _
  calc encodeFields Config.moveTimeWriteRow.requestFields [pos.toNat, time.toNat]
    _ = Codec.leBytes 2 (clampField ⟨2, 0, some 1000⟩ pos.toNat) ++
          (Codec.leBytes 2 (clampField ⟨2, 0, none⟩ time.toNat) ++ []) := rfl
    _ = Codec.leBytes 2 (min 1000 pos.toNat) ++ Codec.le16 time := by rw [hpos, htime, List.append_nil, Codec.le16]
    _ = _ := by rw [Codec.le16_eq_extract]; rfl

/-- The operands of the write, byte by byte. -/
theorem moveTimeArgs_eq (pos time : U16) :
    moveTimeArgs pos time =
      ⟨false, 1, 4, 0, ⟨BitVec.ofNat 8 (min 1000 pos.toNat), BitVec.ofNat 8 (min 1000 pos.toNat / 256),
        time.extractLsb' 0 8, time.extractLsb' 8 8, 0, 0⟩⟩ := by
  rw [moveTimeArgs, encodeFields_moveTimeWriteRow]
  rfl

/-- Settles O28: MOVE_TIME_WRITE is the write of these operands by definition, and that write was settled as a whole. -/
theorem moveTimeWriteSends : Obligations.MoveTimeWriteSends := by
  intro pos time s p0 p1 t0 t1 hp0 hp1 ht0 ht1
  have hargs : moveTimeArgs pos time = ⟨false, 1, 4, 0, ⟨p0, p1, t0, t1, 0, 0⟩⟩ := by
    rw [moveTimeArgs_eq, hp0, hp1, ht0, ht1]
  have hwrite : exec (.moveTimeWrite pos time) s = exec (.writeCommand ⟨false, 1, 4, 0, ⟨p0, p1, t0, t1, 0, 0⟩⟩) s :=
    congrArg (writeCall · s) hargs
  refine ⟨hwrite, fun hb hp hopen hr => ?_⟩
  obtain ⟨t, ht, hlog, hst, hd, htp, -⟩ :=
    writeCommandWhole ⟨false, 1, 4, 0, ⟨p0, p1, t0, t1, 0, 0⟩⟩ s _ hb hp hopen (Nat.le_add_left 4 2) hr rfl
  exact ⟨t, hwrite.trans ht, hst, hd, htp, hlog⟩

end Sys2Proof.Machine
end

