-- ==== Sys2Proof/Proofs/Reset.lean ====
section
/-! Reset (70_reset_and_hazards R220, R221; 10_state R38): what a reset event leaves, and that nothing runs until the host's next
start. -/

namespace Sys2Proof.Machine

open Sys2Proof

/-- A reset acts in every phase: it does not wait for the engine (R220, R221). -/
theorem step_reset {s : State} {rest : List Event} (ha : s.agenda = .reset :: rest) :
    step s = .next (applyReset { s with agenda := rest }) :=
  step_of_agenda_head ha (.inr rfl)

/-- In Idle the engine's turn does nothing (R25). -/
theorem engineTurn_of_idle {s : State} (hp : s.phase = .idle) : engineTurn s = .next s :=
  engineTurn_of_turn (.idle hp)

/-- Without `done` the host has no result to read, of whatever operation (R32). -/
theorem hostResult_pending_of_not_done {s : State} (hd : s.done = false) (o : OpCode) : hostResult o s = .pending :=
  if_neg fun ⟨hdone, _⟩ => Bool.false_ne_true (hd ▸ hdone)

/-- Settles O14: the state a reset leaves is idle with `done` = 0, so the engine's turn keeps it and no result stands in it. -/
theorem resetLeavesIdleEngine : Obligations.ResetLeavesIdleEngine := by
  refine ⟨fun s rest ha => ⟨applyReset { s with agenda := rest }, step_reset ha, ?_⟩, ?_⟩
  · exact ⟨rfl, rfl, rfl, rfl, rfl, rfl, engineTurn_of_idle rfl, hostResult_pending_of_not_done rfl⟩
  · exact ⟨rfl, rfl, rfl, rfl, rfl, engineTurn_of_idle rfl⟩

end Sys2Proof.Machine
end
